-- ==== Sys2Proof/Word.lean ====
section
/-! DEFINITION. The words of the machine: byte, 32-bit register word, pixel (00_scope.md R6, R9). -/

namespace Sys2Proof

/-- A byte of a stream or a channel value (R6, R7). -/
abbrev Byte := BitVec 8

/-- A register of the window (10_state.md, "All registers are 32 bits wide"). -/
abbrev Word := BitVec 32

/-- "four unsigned 8-bit channels (red, green, blue, alpha). Two pixels are equal iff all four channels
match." (R9) -/
structure Pixel where
  r : Byte
  g : Byte
  b : Byte
  a : Byte
  deriving DecidableEq, Repr

/-- `OPAQUE_BLACK = (0, 0, 0, 255)` (R9). -/
def opaqueBlack : Pixel := ⟨0, 0, 0, 255⟩

/-- `ZERO_PIXEL = (0, 0, 0, 0)` (R9). -/
def zeroPixel : Pixel := ⟨0, 0, 0, 0⟩

end Sys2Proof
end

