-- ==== Sys2Proof/Config.lean ====
section
/-! DEFINITION. What one implementation fixes (the four open parameters, 00_scope.md R5) and the free values,
which nothing in Lean can evaluate (the spec's "any value": R44, R77, R146, R240). -/

namespace Sys2Proof

/-- The parameters of R5, in the 32 bits their `CAP_*` registers have (10_state.md R33). The model carries them
in State, where no step writes them (DESIGN CHOICE, log 1). -/
structure Params where
  maxDimension : Word
  inCapacity   : Word
  pixCapacity  : Word
  outCapacity  : Word
  deriving DecidableEq, Repr

/-- The legal values of R5: `MAX_DIMENSION` and `PIX_CAPACITY` at least 1, `IN_CAPACITY` at least 23,
`OUT_CAPACITY` at least 27; the upper bound 2^32-1 is the width of the field. -/
def Params.legal (p : Params) : Bool :=
  decide (1 ≤ p.maxDimension.toNat) && decide (23 ≤ p.inCapacity.toNat) &&
    decide (1 ≤ p.pixCapacity.toNat) && decide (27 ≤ p.outCapacity.toNat)

/-- The parameters of `State.reset` (DESIGN CHOICE, log 1): `MAX_DIMENSION = 1000`, as in every vector of
95_test_vectors.md, and the largest memories R5 admits. No rule of the spec fixes them. -/
def Config.defaultParams : Params := ⟨1000, 0xFFFFFFFF, 0xFFFFFFFF, 0xFFFFFFFF⟩

/-- FREE VALUE: what byte `a` of `BYTE_IN` reads as when nothing has written it since reset number `epoch`
(R77: "Memory contents at reset are unspecified"; log 3). -/
opaque Config.freshByteIn (epoch a : Nat) : Byte

/-- FREE VALUE: what byte `a` of `BYTE_OUT` reads as when nothing has written it since reset number `epoch`
(R77; log 3). -/
opaque Config.freshByteOut (epoch a : Nat) : Byte

/-- FREE VALUE: what entry `i` of `PIX`, as a 32-bit word, reads as when nothing has written it since reset
number `epoch` (R77; log 3). -/
opaque Config.freshPix (epoch i : Nat) : Word

/-- FREE VALUE: what entry `i` of `PIX`, as a 32-bit word, holds after decode failure number `draw`
(41_decoder.md R146: "UNSPECIFIED after a failure in D_CHUNK or D_TAIL"; log 4). -/
opaque Config.lostPix (draw i : Nat) : Word

end Sys2Proof
end

