-- ==== Sys2Proof/Syntax.lean ====
section
/-! DEFINITION. The instructions: one constructor for each row of spec/opcode_table.json. -/

namespace Sys2Proof

/-- The chunks, the end marker, the header and the host commands (30_encoding.md). Operands are the decoded
values of the assembly notation R97: a delta is the signed value, not the stored field; a run is its length. -/
inductive Instr where
  /-- `RGB r, g, b` (R85, R135). -/
  | rgb (r g b : Byte)
  /-- `RGBA r, g, b, a` (R86, R136). -/
  | rgba (r g b a : Byte)
  /-- `INDEX k` (R87, R137). -/
  | index (k : Fin 64)
  /-- `DIFF dr, dg, db`, each in -2..1 (R88, R138). -/
  | diff (dr dg db : Int)
  /-- `LUMA dg, dr_dg, db_dg`, in -32..31, -8..7, -8..7 (R89, R139). -/
  | luma (dg drDg dbDg : Int)
  /-- `RUN n`, 1..62 (R90, R140). -/
  | run (n : Nat)
  /-- `END` (R92, R133, R144). -/
  | endMarker
  /-- `HEADER w, h, ch, cs` (R81, R110). -/
  | header (w h : Word) (ch cs : Byte)
  /-- A host write of 1 to `CMD` (R95, R194). -/
  | cmdParse
  /-- A host write of 2 to `CMD` (R95, R195). -/
  | cmdDecode
  /-- A host write of 3 to `CMD` (R95, R197). -/
  | cmdEncode
  /-- A host write of any other value to `CMD` (R95, R193). -/
  | cmdIllegal (v : Word)
  deriving DecidableEq, Repr

end Sys2Proof
end

