-- ==== Sys2Proof/Machine/State.lean ====
section
/-! DEFINITION. The state of the block (10_state.md R20), the moves still to come (43_commands.md R190), the ways
a step can stop, and the state after reset (70_reset_and_hazards.md R240). -/

namespace Sys2Proof.Machine

/-- The sequencer phase (R42). -/
inductive Phase where
  | idle | pHdr | dHdr | dChunk | dTail | eHdr | ePix | eEnd
  deriving DecidableEq, Repr

/-- `STATUS.ERR_CODE` (60_exceptions.md R210). Codes 11 to 15 "never appear", so they have no constructor
(log 15). -/
inductive ErrorCode where
  | none | badMagic | unsupportedChannels | unsupportedColorspace | invalidDimension | unexpectedEof
  | badEndMarker | trailingData | runOverflow | outOfMemory | illegalCommand
  deriving DecidableEq, Repr

/-- The registers of the window by name (10_state.md, the table before R21), and the reserved offsets (R34). -/
inductive Reg where
  | id | ctrl | cmd | status | inLen | errPos | errPix | imgWidth | imgHeight | imgFmt
  | hdrWidth | hdrHeight | hdrFmt | pixCount | outLen | capIn | capPix | capOut | capMaxdim | reserved
  deriving DecidableEq, Repr

/-- "A host action is one register read, one register write, or (while `STATUS.BUSY = 0` only) one byte read or
write of `BYTE_IN` or `BYTE_OUT` or one entry read or write of `PIX`." (R190) A register is named by its byte
offset; a `PIX` entry is moved as the 32-bit word of R63. -/
inductive HostAction where
  | readReg (off : Nat)
  | writeReg (off : Nat) (v : Word)
  | readIn (a : Nat)
  | writeIn (a : Nat) (b : Byte)
  | readOut (a : Nat)
  | writeOut (a : Nat) (b : Byte)
  | readPix (i : Nat)
  | writePix (i : Nat) (v : Word)
  deriving DecidableEq, Repr

/-- Whose move is next: the host's, the core's (R190), or the reset input's (R240, R241). -/
inductive Turn where
  | host (act : HostAction)
  | core
  | reset
  deriving DecidableEq, Repr

/-- A memory: what has been written, by address, addresses strictly rising. An address that is not listed holds
no written value (20_memory.md R77; log 3). `Memory Byte` is a list of `Host.Cell`. -/
abbrev Memory (α : Type) := List (Nat × α)

/-- Why the machine is stuck: the acting agent has no move (93_implementation_defined.md, "stuck"). -/
inductive Fault where
  /-- A host access to `BYTE_IN`, `PIX` or `BYTE_OUT` while `BUSY = 1` (R72, R201 (b), I11). Raised by the host
  port. Safe: the run is outside every claim. -/
  | hostMemoryWhileBusy
  /-- A host register access that is not at an aligned offset 0x00..0xFC (R67, R201 (a), I12). Raised by the host
  port. Safe: the run is outside every claim. -/
  | hostRegisterAddress
  /-- A host memory access outside the memory's capacity (R70, R201 (c), I12). Raised by the host port. Safe: the
  run is outside every claim. -/
  | hostMemoryAddress
  /-- A core access outside its memory, which "Every core access lies inside its memory" (R76) rules out in every
  state the block reaches. Raised by the operations of Ops.lean. Safe: the machine stops. -/
  | coreMemoryAddress
  deriving DecidableEq, Repr

/-- Why an instruction has no meaning. -/
inductive Refusal where
  /-- An instruction of the opcode table without a meaning yet. Raised by exec's arms only. Safe. -/
  | notModelled (mnemonic : String)
  /-- An instruction of the stream in a phase whose step rule executes no such instruction (43_commands.md R196),
  so that no step runs it. Raised by the stream meanings. Safe. -/
  | notEnabled
  deriving DecidableEq, Repr

/-- The state of the block: the parameters, the register window (R21 to R33), the datapath (R35 to R42), the three
memories (R61 to R64), and the model's own fields. -/
structure State where
  /-- The parameters (R5), read in `CAP_*` (R33); no step writes them. -/
  cfg : Params
  /-- `CTRL` (R22). -/
  ctrl : Word
  /-- `STATUS.DONE` (R24). -/
  done : Bool
  /-- `STATUS.ERR_CODE` (R24). -/
  errCode : ErrorCode
  /-- `IN_LEN` (R25). -/
  inLen : Word
  /-- `ERR_POS` (R32). -/
  errPos : Word
  /-- `ERR_PIX` (R32). -/
  errPix : Word
  /-- `IMG_WIDTH` (R26). -/
  imgWidth : Word
  /-- `IMG_HEIGHT` (R26). -/
  imgHeight : Word
  /-- `IMG_FMT` (R27). -/
  imgFmt : Word
  /-- `HDR_WIDTH` (R28). -/
  hdrWidth : Word
  /-- `HDR_HEIGHT` (R28). -/
  hdrHeight : Word
  /-- `HDR_FMT` (R29). -/
  hdrFmt : Word
  /-- `PIX_COUNT` (R30). -/
  pixCount : Word
  /-- `OUT_LEN` (R31). -/
  outLen : Word
  /-- `phase` (R42). -/
  phase : Phase
  /-- `px` (R35). -/
  px : Pixel
  /-- `cache[0..63]` (R36). -/
  cache : Vector Pixel 64
  /-- `ipos` (R39). -/
  ipos : Nat
  /-- `opos` (R39). -/
  opos : Nat
  /-- `cur` (R39). -/
  cur : Nat
  /-- `run` (R41). -/
  run : BitVec 6
  /-- `W` (R40). -/
  latW : Word
  /-- `H` (R40). -/
  latH : Word
  /-- `N` (R40). -/
  latN : Nat
  /-- `alpha` (R40). -/
  alpha : Bool
  /-- `cs` (R40). -/
  cs : Byte
  /-- `len` (R40). -/
  len : Word
  /-- `BYTE_IN` (R61). -/
  byteIn : Memory Byte
  /-- `PIX` (R62). -/
  pix : Memory Pixel
  /-- `BYTE_OUT` (R64). -/
  byteOut : Memory Byte
  /-- MODEL: the moves still to come, the next one first; none left means the core moves (log 5). -/
  turns : List Turn
  /-- MODEL: the value the host's latest read returned, zero-extended (log 6). -/
  hostData : Word
  /-- MODEL: how many resets this run has seen; picks the free values of unlisted memory (log 3). -/
  epoch : Nat
  /-- MODEL: how many decodes have lost `PIX`; picks the free values of R146 (log 4). -/
  draws : Nat
  deriving DecidableEq, Repr

/-- The state of R240 for parameters `p`: every register of the window 0 (but `ID` and `CAP_*`), phase IDLE. The
datapath, which R240 leaves unspecified, is zero (DESIGN CHOICE, log 2); no memory cell is listed (log 3). -/
def State.resetWith (p : Params) : State where
  cfg := p
  ctrl := 0
  done := false
  errCode := .none
  inLen := 0
  errPos := 0
  errPix := 0
  imgWidth := 0
  imgHeight := 0
  imgFmt := 0
  hdrWidth := 0
  hdrHeight := 0
  hdrFmt := 0
  pixCount := 0
  outLen := 0
  phase := .idle
  px := zeroPixel
  cache := Vector.replicate 64 zeroPixel
  ipos := 0
  opos := 0
  cur := 0
  run := 0
  latW := 0
  latH := 0
  latN := 0
  alpha := false
  cs := 0
  len := 0
  byteIn := []
  pix := []
  byteOut := []
  turns := []
  hostData := 0
  epoch := 0
  draws := 0

/-- The machine right after reset (R240), with the parameters of log 1. -/
def State.reset : State := State.resetWith Config.defaultParams

/-- The three outcomes of a move of this machine. -/
abbrev Result := Host.Outcome State Fault Refusal

end Sys2Proof.Machine
end

