-- ==== Sys2Proof/Machine/Flags.lean ====
section
/-! DEFINITION. The flags. The block has no condition codes; "The only flags are `STATUS.BUSY`, `STATUS.DONE` and
`STATUS.ERR` and `CTRL.IRQ_EN`" (10_state.md R43). Here: the flags, the STATUS word, the interrupt output, and the
fields of IMG_FMT. -/

namespace Sys2Proof.Machine

/-- `STATUS.BUSY = (phase != IDLE)` (R42). -/
def busy (s : State) : Bool := s.phase != .idle

/-- The number of an error (R210). -/
def ErrorCode.number : ErrorCode → BitVec 4
  | .none => 0
  | .badMagic => 1
  | .unsupportedChannels => 2
  | .unsupportedColorspace => 3
  | .invalidDimension => 4
  | .unexpectedEof => 5
  | .badEndMarker => 6
  | .trailingData => 7
  | .runOverflow => 8
  | .outOfMemory => 9
  | .illegalCommand => 10

/-- `STATUS.ERR` is "1 exactly when `ERR_CODE != 0`" (R24). -/
def errFlag (s : State) : Bool := s.errCode.number != 0

/-- `STATUS`: ERR_CODE in 11:8, ERR bit 2, DONE bit 1, BUSY bit 0, every other bit 0 (R24). -/
def statusWord (s : State) : Word :=
  (s.errCode.number ++ (0 : BitVec 5) ++ BitVec.ofBool (errFlag s) ++ BitVec.ofBool s.done ++
    BitVec.ofBool (busy s) : BitVec 12).setWidth 32

/-- `CTRL.IRQ_EN`, bit 0 (R22). -/
def irqEnabled (s : State) : Bool := s.ctrl.getLsbD 0

/-- `irq = STATUS.DONE AND CTRL.IRQ_EN` at every moment (60_exceptions.md R220). -/
def irq (s : State) : Bool := s.done && irqEnabled s

/-- `IMG_FMT.HAS_ALPHA`, bit 0 (R27). -/
def imgHasAlpha (s : State) : Bool := s.imgFmt.getLsbD 0

/-- `IMG_FMT.COLORSPACE`, bits 15:8 (R27). -/
def imgColorspace (s : State) : Byte := s.imgFmt.extractLsb' 8 8

end Sys2Proof.Machine
end

