-- ==== Sys2Proof/WellFormed.lean ====
section
/-! DEFINITION. Which terms are instructions: "An operand outside its range does not assemble." (R97) -/

namespace Sys2Proof

/-- `lo ≤ v ≤ hi`. -/
def inRange (lo hi v : Int) : Bool := decide (lo ≤ v) && decide (v ≤ hi)

/-- The operand ranges of R97 and, for an illegal command, R95 (a value other than 1, 2, 3). -/
def Instr.wellFormed : Instr → Bool
  | .rgb _ _ _ => true
  | .rgba _ _ _ _ => true
  | .index _ => true
  | .diff dr dg db => inRange (-2) 1 dr && inRange (-2) 1 dg && inRange (-2) 1 db
  | .luma dg drDg dbDg => inRange (-32) 31 dg && inRange (-8) 7 drDg && inRange (-8) 7 dbDg
  | .run n => decide (1 ≤ n) && decide (n ≤ 62)
  | .endMarker => true
  | .header _ _ _ _ => true
  | .cmdParse => true
  | .cmdDecode => true
  | .cmdEncode => true
  | .cmdIllegal v => decide (v ≠ 1) && decide (v ≠ 2) && decide (v ≠ 3)

end Sys2Proof
end

