-- ==== Sys2Proof/Decode.lean ====
section
/-! DEFINITION. The decoder (total on any bytes, rejecting by name) and after it the encoder, both from the
layouts of 30_encoding.md; then the numbering of spec/opcode_table.json. -/

namespace Sys2Proof

/-- `b0 ++ b1 ++ b2 ++ b3`, big-endian (R82). -/
def be32 (b0 b1 b2 b3 : Byte) : Word := b0 ++ b1 ++ b2 ++ b3

/-- `w[31:24], w[23:16], w[15:8], w[7:0]` (R82, R119). -/
def be32Bytes (w : Word) : List Byte :=
  [w.extractLsb' 24 8, w.extractLsb' 16 8, w.extractLsb' 8 8, w.extractLsb' 0 8]

/-- The magic "qoif", `71 6F 69 66` (R81, R113). -/
def magicBytes : List Byte := [0x71, 0x6F, 0x69, 0x66]

/-- The end marker `00 00 00 00 00 00 00 01` (R92). -/
def endMarkerBytes : List Byte := [0, 0, 0, 0, 0, 0, 0, 1]

/-- Why bytes are no instruction. -/
inductive DecodeError where
  /-- Fewer than 14 bytes at the header position (R112). -/
  | shortHeader
  /-- The first four bytes are not "qoif" (R113). -/
  | badMagic
  /-- No byte at a tag position. -/
  | noTag
  /-- A tag whose data bytes are missing. -/
  | shortChunk
  deriving DecidableEq, Repr

/-- The 14-byte header at the start of `bs` (R81 to R83), and the bytes after it. Whether its fields are legal
is no matter of the decoder: the header's meaning raises for them (R114 to R116). -/
def decodeHeader : List Byte → Except DecodeError (Instr × List Byte)
  | m0 :: m1 :: m2 :: m3 :: w0 :: w1 :: w2 :: w3 :: h0 :: h1 :: h2 :: h3 :: ch :: cs :: rest =>
    if [m0, m1, m2, m3] = magicBytes then
      .ok (.header (be32 w0 w1 w2 w3) (be32 h0 h1 h2 h3) ch cs, rest)
    else .error .badMagic
  | _ => .error .shortHeader

/-- `DIFF`'s operands: `dr = t[5:4] - 2`, `dg = t[3:2] - 2`, `db = t[1:0] - 2` (R88). -/
def diffOf (t : Byte) : Instr :=
  .diff ((t.extractLsb' 4 2).toNat - 2 : Int) ((t.extractLsb' 2 2).toNat - 2 : Int)
    ((t.extractLsb' 0 2).toNat - 2 : Int)

/-- `LUMA`'s operands: `dg = t[5:0] - 32`, `dr_dg = u[7:4] - 8`, `db_dg = u[3:0] - 8` (R89). -/
def lumaOf (t u : Byte) : Instr :=
  .luma ((t.extractLsb' 0 6).toNat - 32 : Int) ((u.extractLsb' 4 4).toNat - 8 : Int)
    ((u.extractLsb' 0 4).toNat - 8 : Int)

/-- `INDEX`'s operand: `t[5:0]` (R87). -/
def indexOf (t : Byte) : Instr := .index ⟨(t.extractLsb' 0 6).toNat, (t.extractLsb' 0 6).isLt⟩

/-- `RUN`'s operand: `t[5:0] + 1` (R90). -/
def runOf (t : Byte) : Instr := .run ((t.extractLsb' 0 6).toNat + 1)

/-- The chunk or end marker at a tag position, and the bytes after it. The end marker is tried first (R92, R133),
then the two literal tags, then `t[7:6]` (R84). -/
def decodeChunk (bs : List Byte) : Except DecodeError (Instr × List Byte) :=
  if bs.take 8 = endMarkerBytes then .ok (.endMarker, bs.drop 8)
  else match bs with
    | [] => .error .noTag
    | t :: rest =>
      if t = 0xFE then
        match rest with
        | r :: g :: b :: rest' => .ok (.rgb r g b, rest')
        | _ => .error .shortChunk
      else if t = 0xFF then
        match rest with
        | r :: g :: b :: a :: rest' => .ok (.rgba r g b a, rest')
        | _ => .error .shortChunk
      else if t.extractLsb' 6 2 = 0b00 then .ok (indexOf t, rest)
      else if t.extractLsb' 6 2 = 0b01 then .ok (diffOf t, rest)
      else if t.extractLsb' 6 2 = 0b10 then
        match rest with
        | u :: rest' => .ok (lumaOf t u, rest')
        | _ => .error .shortChunk
      else .ok (runOf t, rest)

/-- The command a `CMD` write of `v` requests (R95): total. -/
def decodeCommand (v : Word) : Instr :=
  if v = 1 then .cmdParse
  else if v = 2 then .cmdDecode
  else if v = 3 then .cmdEncode
  else .cmdIllegal v

/-- The three places an instruction is taken from: the header position of the stream, a tag position of the
stream, and a host write of `CMD`. -/
inductive Fetch where
  | atHeader (bs : List Byte)
  | atTag (bs : List Byte)
  | atCmd (v : Word)
  deriving DecidableEq, Repr

/-- The decoder: the instruction and, in the stream, the bytes after it. -/
def decode : Fetch → Except DecodeError (Instr × List Byte)
  | .atHeader bs => decodeHeader bs
  | .atTag bs => decodeChunk bs
  | .atCmd v => .ok (decodeCommand v, [])

/-! ### The encoder -/

/-- `0x40 | (dr+2) << 4 | (dg+2) << 2 | (db+2)` (R88). -/
def diffByte (dr dg db : Int) : Byte :=
  0x40 ||| (BitVec.ofInt 8 (dr + 2) <<< 4) ||| (BitVec.ofInt 8 (dg + 2) <<< 2) |||
    BitVec.ofInt 8 (db + 2)

/-- `0x80 | (dg + 32)`, `(dr_dg + 8) << 4 | (db_dg + 8)` (R89). -/
def lumaBytes (dg drDg dbDg : Int) : List Byte :=
  [0x80 ||| BitVec.ofInt 8 (dg + 32),
    (BitVec.ofInt 8 (drDg + 8) <<< 4) ||| BitVec.ofInt 8 (dbDg + 8)]

/-- The bytes of an instruction of the stream (the table of R97); a host command has none. -/
def streamBytes : Instr → List Byte
  | .rgb r g b => [0xFE, r, g, b]
  | .rgba r g b a => [0xFF, r, g, b, a]
  | .index k => [BitVec.ofNat 8 k.val]
  | .diff dr dg db => [diffByte dr dg db]
  | .luma dg drDg dbDg => lumaBytes dg drDg dbDg
  | .run n => [0xC0 ||| BitVec.ofNat 8 (n - 1)]
  | .endMarker => endMarkerBytes
  | .header w h ch cs => magicBytes ++ be32Bytes w ++ be32Bytes h ++ [ch, cs]
  | .cmdParse => []
  | .cmdDecode => []
  | .cmdEncode => []
  | .cmdIllegal _ => []

/-- The encoder: the bytes of a stream instruction where it stands, or the value written to `CMD` (R95, R97). -/
def encode : Instr → Fetch
  | .rgb r g b => .atTag (streamBytes (.rgb r g b))
  | .rgba r g b a => .atTag (streamBytes (.rgba r g b a))
  | .index k => .atTag (streamBytes (.index k))
  | .diff dr dg db => .atTag (streamBytes (.diff dr dg db))
  | .luma dg drDg dbDg => .atTag (streamBytes (.luma dg drDg dbDg))
  | .run n => .atTag (streamBytes (.run n))
  | .endMarker => .atTag (streamBytes .endMarker)
  | .header w h ch cs => .atHeader (streamBytes (.header w h ch cs))
  | .cmdParse => .atCmd 1
  | .cmdDecode => .atCmd 2
  | .cmdEncode => .atCmd 3
  | .cmdIllegal v => .atCmd v

/-- How many bytes an instruction takes in the stream (R81, R92, R93). -/
def Instr.size : Instr → Nat
  | .rgb _ _ _ => 4
  | .rgba _ _ _ _ => 5
  | .index _ => 1
  | .diff _ _ _ => 1
  | .luma _ _ _ => 2
  | .run _ => 1
  | .endMarker => 8
  | .header _ _ _ _ => 14
  | .cmdParse => 0
  | .cmdDecode => 0
  | .cmdEncode => 0
  | .cmdIllegal _ => 0

/-- The six chunk kinds (glossary, "Chunk"): what stands at a tag position and carries pixels. -/
def Instr.isChunk : Instr → Bool
  | .rgb _ _ _ => true
  | .rgba _ _ _ _ => true
  | .index _ => true
  | .diff _ _ _ => true
  | .luma _ _ _ => true
  | .run _ => true
  | .endMarker => false
  | .header _ _ _ _ => false
  | .cmdParse => false
  | .cmdDecode => false
  | .cmdEncode => false
  | .cmdIllegal _ => false

/-! ### Assembly (R97, R99) -/

/-- `RUNS n`: `floor(n/62)` copies of `RUN 62`, then `RUN (n mod 62)` if that is not 0 (R99). -/
def asmRuns (n : Nat) : List Instr :=
  List.replicate (n / 62) (.run 62) ++ if n % 62 = 0 then [] else [.run (n % 62)]

/-- The bytes of a list of stream instructions. -/
def assemble : List Instr → List Byte
  | [] => []
  | i :: is => streamBytes i ++ assemble is

/-- `STREAM w, h, ch, cs { chunks }`: the header, the chunks, and `END` (R99). -/
def asmStream (w h : Word) (ch cs : Byte) (chunks : List Instr) : List Byte :=
  streamBytes (.header w h ch cs) ++ assemble chunks ++ streamBytes .endMarker

/-! ### The numbering of spec/opcode_table.json (log 11) -/

/-- `k` bytes of `w`, bits 7..0 first. -/
def lowBytes : Nat → Nat → List Byte
  | 0, _ => []
  | k + 1, w => BitVec.ofNat 8 w :: lowBytes k (w / 256)

/-- The instruction whose bits are `w`, laid out as the hardware stores it and padded with zero bytes to the
longest instruction (14 bytes). Bytes count up from bit 0, but for the values the table writes most significant
byte first: the header's 32-bit magic, width and height, and the 8-byte end marker. A row of 32 bits is a `CMD`
write unless bits 7..0 are the RGB tag (DESIGN CHOICE, log 11). -/
def tableFetch (nbits w : Nat) : Fetch :=
  let w := w % 2 ^ nbits
  if nbits = 32 && w % 256 != 0xFE then .atCmd (BitVec.ofNat 32 w)
  else if nbits = 112 then
    if w % 2 ^ 32 = 0x716F6966 then
      .atHeader (be32Bytes (BitVec.ofNat 32 w) ++ be32Bytes (BitVec.ofNat 32 (w / 2 ^ 32)) ++
        be32Bytes (BitVec.ofNat 32 (w / 2 ^ 64)) ++ lowBytes 2 (w / 2 ^ 96))
    else .atHeader (lowBytes 14 w)
  else if nbits = 64 && w == 1 then .atTag (endMarkerBytes ++ lowBytes 6 0)
  else .atTag (lowBytes 14 w)

/-- The instruction the decoder reads from a word of the opcode table. -/
def decodeTableWord (nbits w : Nat) : Option Instr :=
  match decode (tableFetch nbits w) with
  | .ok (i, _) => some i
  | .error _ => none

end Sys2Proof
end

