-- ==== Sys2Proof/Machine/Operands.lean ====
section
/-! DEFINITION. The operand forms and the pixel arithmetic: wrapped channel arithmetic (00_scope.md R7, R8), the
hash (10_state.md R37), the packing of a PIX entry (20_memory.md R63), the pixel each chunk produces (41_decoder.md
R135 to R139) and the chunk the encoder chooses (42_encoder.md R168 to R173). -/

namespace Sys2Proof.Machine

/-- `u8(v) = v mod 256` (R7). -/
def u8 (v : Int) : Byte := BitVec.ofInt 8 v

/-- `s8(v)`: the two's-complement reading of `u8(v)`, in -128..127 (R7). -/
def s8 (v : Int) : Int := (u8 v).toInt

/-- `u8(c + d)`: a channel moved by a delta (R8, R138). -/
def addDelta (c : Byte) (d : Int) : Byte := u8 ((c.toNat : Int) + d)

/-- `s8(p - q)`: the wrapped difference of two channels (R169). -/
def channelDelta (p q : Byte) : Int := s8 ((p.toNat : Int) - (q.toNat : Int))

/-- `hash(p) = (3*p.r + 5*p.g + 7*p.b + 11*p.a) mod 64` (R37). -/
def pixelHash (p : Pixel) : Fin 64 :=
  ⟨(3 * p.r.toNat + 5 * p.g.toNat + 7 * p.b.toNat + 11 * p.a.toNat) % 64, Nat.mod_lt _ (by decide)⟩

/-- A `PIX` entry as a 32-bit word: `p.r ++ p.g ++ p.b ++ p.a` (R63). -/
def packPixel (p : Pixel) : Word := be32 p.r p.g p.b p.a

/-- `(word[31:24], word[23:16], word[15:8], word[7:0])` (R63). -/
def unpackPixel (w : Word) : Pixel :=
  ⟨w.extractLsb' 24 8, w.extractLsb' 16 8, w.extractLsb' 8 8, w.extractLsb' 0 8⟩

/-! ### The pixel a chunk produces -/

/-- RGB keeps the alpha of the current pixel (R135). -/
def rgbPixel (px : Pixel) (r g b : Byte) : Pixel := ⟨r, g, b, px.a⟩

/-- DIFF adds its deltas to the colour channels, alpha unchanged (R138). -/
def diffPixel (px : Pixel) (dr dg db : Int) : Pixel :=
  ⟨addDelta px.r dr, addDelta px.g dg, addDelta px.b db, px.a⟩

/-- LUMA: `dr = dr_dg + dg`, `db = db_dg + dg`, then as DIFF (R139). -/
def lumaPixel (px : Pixel) (dg drDg dbDg : Int) : Pixel := diffPixel px (drDg + dg) dg (dbDg + dg)

/-- `cache[k] <- p` with `k = hash(p)` (R135, R174). -/
def cachePut (cache : Vector Pixel 64) (p : Pixel) : Vector Pixel 64 :=
  cache.set (pixelHash p).val p (pixelHash p).isLt

/-! ### The header -/

/-- The checks of R110 after length and magic, in its order (R114, R115, R116); none means valid. The dimension
check and the colorspace check are the encoder's too (R162). -/
def badChannels (ch : Byte) : Bool := ch != 3 && ch != 4

/-- "colorspace legal exactly when the byte is 0 or 1" (R83, R115, R162). -/
def badColorspace (cs : Byte) : Bool := cs != 0 && cs != 1

/-- `v == 0 or v > MAX_DIMENSION` (R116, R162). -/
def badDimension (p : Params) (v : Word) : Bool := v == 0 || decide (p.maxDimension.toNat < v.toNat)

/-- `zext_32((ch == 4) ++ cs8 ++ ch)` (R110): HAS_ALPHA bit 16, COLORSPACE 15:8, CHANNELS 7:0. -/
def hdrFmtOf (ch cs : Byte) : Word := ((BitVec.ofBool (ch == 4)) ++ cs ++ ch : BitVec 17).setWidth 32

/-! ### The chunk the encoder chooses -/

/-- `-2 <= dr <= 1` and so on (R170). -/
def diffFits (dr dg db : Int) : Bool := inRange (-2) 1 dr && inRange (-2) 1 dg && inRange (-2) 1 db

/-- `-32 <= dg <= 31`, `-8 <= dr - dg <= 7`, `-8 <= db - dg <= 7` (R171). -/
def lumaFits (dr dg db : Int) : Bool :=
  inRange (-32) 31 dg && inRange (-8) 7 (dr - dg) && inRange (-8) 7 (db - dg)

/-- The chunk for a pixel `p` that is neither `px` nor cached and has `px`'s alpha: DIFF, else LUMA, else RGB
(R169 to R172). -/
def deltaChunk (px p : Pixel) : Instr :=
  let dr := channelDelta p.r px.r
  let dg := channelDelta p.g px.g
  let db := channelDelta p.b px.b
  if diffFits dr dg db then .diff dr dg db
  else if lumaFits dr dg db then .luma dg (dr - dg) (db - dg)
  else .rgb p.r p.g p.b

/-- The chunk for a pixel `p` that differs from `px`, in priority order: INDEX on a cache hit (R168), RGBA when
alpha differs (R173), else the deltas (R169 to R172). -/
def chooseChunk (cache : Vector Pixel 64) (px p : Pixel) : Instr :=
  if cache[pixelHash p] = p then .index (pixelHash p)
  else if p.a ≠ px.a then .rgba p.r p.g p.b p.a
  else deltaChunk px p

end Sys2Proof.Machine
end

