-- ==== Sys2Proof/Machine/Ops.lean ====
section
/-! DEFINITION. The named operations over the memories and the registers: one read and one write of each memory,
the core's accesses with their bounds (20_memory.md R76), the error entry `raise` (60_exceptions.md R214), the
successful end `finish` (R215), command acceptance (43_commands.md R191), the pixel output (41_decoder.md R134) and
the packer (42_encoder.md R161). -/

namespace Sys2Proof.Machine

/-! ### Memories -/

/-- The value written at address `a`, if one is listed. -/
def Memory.read {α : Type} : Memory α → Nat → Option α
  | [], _ => none
  | (b, v) :: m, a => if a = b then some v else Memory.read m a

/-- Write `v` at address `a`, keeping the addresses strictly rising. -/
def Memory.write {α : Type} : Memory α → Nat → α → Memory α
  | [], a, v => [(a, v)]
  | (b, w) :: m, a, v =>
    if a < b then (a, v) :: (b, w) :: m
    else if a = b then (a, v) :: m
    else (b, w) :: Memory.write m a v

/-- Write the values of a list at consecutive addresses from `a` up. -/
def Memory.writeList {α : Type} : Memory α → Nat → List α → Memory α
  | m, _, [] => m
  | m, a, v :: vs => Memory.writeList (Memory.write m a v) (a + 1) vs

/-- Entries `0 .. n-1` take the values `f`; the others stay. -/
def Memory.redraw {α : Type} (m : Memory α) (n : Nat) (f : Nat → α) : Memory α :=
  (List.range n).map (fun i => (i, f i)) ++ m.filter (fun c => decide (n ≤ c.1))

/-- The canonical form: addresses strictly rising (so no address twice). An unlisted address holds no written
value, so no entry can equal it (log 3). -/
abbrev Memory.wf {α : Type} (m : Memory α) : Prop := m.Pairwise (fun c d => c.1 < d.1)

/-- What byte `a` of `BYTE_IN` reads as (R61; unwritten: a free value, R77). -/
def byteInAt (s : State) (a : Nat) : Byte := (Memory.read s.byteIn a).getD (Config.freshByteIn s.epoch a)

/-- What byte `a` of `BYTE_OUT` reads as (R64; unwritten: a free value, R77). -/
def byteOutAt (s : State) (a : Nat) : Byte := (Memory.read s.byteOut a).getD (Config.freshByteOut s.epoch a)

/-- What entry `i` of `PIX` reads as (R62, R63; unwritten: a free value, R77). -/
def pixAt (s : State) (i : Nat) : Pixel := (Memory.read s.pix i).getD (unpackPixel (Config.freshPix s.epoch i))

/-! ### Sequencing -/

/-- Go on with `k` from the next state; a stop stays a stop. -/
def andThen : Result → (State → Result) → Result
  | .next s, k => k s
  | .fault r, _ => .fault r
  | .refused r, _ => .refused r

/-! ### The core's accesses -/

/-- `IN[a .. a+n)` (R11), inside `BYTE_IN` (R76). -/
def fetchIn (a n : Nat) (s : State) : Option (List Byte) :=
  if a + n ≤ s.cfg.inCapacity.toNat then some ((List.range n).map (fun i => byteInAt s (a + i))) else none

/-- `put(p)` for each pixel of a list: `MemWrite(PIX, cur, 1, p); cur <- cur + 1` (R134), inside `PIX` (R76). -/
def putPixels (ps : List Pixel) (s : State) : Result :=
  if s.cur + ps.length ≤ s.cfg.pixCapacity.toNat then
    .next { s with pix := Memory.writeList s.pix s.cur ps, cur := s.cur + ps.length }
  else .fault .coreMemoryAddress

/-- `emit(b0, b1, ..., bk)`: for each byte `MemWrite(OUT, opos, 1, b); opos <- opos + 1` (R161), inside `BYTE_OUT`
(R76). -/
def emitBytes (bs : List Byte) (s : State) : Result :=
  if s.opos + bs.length ≤ s.cfg.outCapacity.toNat then
    .next { s with byteOut := Memory.writeList s.byteOut s.opos bs, opos := s.opos + bs.length }
  else .fault .coreMemoryAddress

/-- `p <- MemRead(PIX, cur, 1)` (R165), inside `PIX` (R76). -/
def loadPixel (s : State) : Option Pixel :=
  if s.cur < s.cfg.pixCapacity.toNat then some (pixAt s s.cur) else none

/-! ### The ends of a command -/

/-- Whether an error in this phase records a position (R213, R214: `phase in {D_CHUNK, D_TAIL}`). -/
def recordsPosition (s : State) : Bool := s.phase == .dChunk || s.phase == .dTail

/-- `PIX` after a failure in D_CHUNK or D_TAIL: the entries `0 .. min(N, PIX_CAPACITY)-1` hold any value (R146),
free values drawn anew for each failure (log 4); the others stay. -/
def lostPix (s : State) : Memory Pixel :=
  Memory.redraw s.pix (min s.latN s.cfg.pixCapacity.toNat) (fun i => unpackPixel (Config.lostPix s.draws i))

/-- `raise Error(code)` (R214): THE error entry of the block, shared by every error. It ends the command; what it
records of the position and what is left in `PIX` depend on the phase (R213, R146). -/
def raise (code : ErrorCode) (s : State) : State :=
  { s with
    errCode := code
    errPos := if recordsPosition s then BitVec.ofNat 32 s.ipos else 0
    errPix := if recordsPosition s then BitVec.ofNat 32 s.cur else 0
    pixCount := 0
    outLen := 0
    done := true
    phase := .idle
    pix := if recordsPosition s then lostPix s else s.pix
    draws := if recordsPosition s then s.draws + 1 else s.draws }

/-- `finish()` (R215): the successful end of a command. There is no return from an error (R219). -/
def finish (s : State) : State := { s with done := true, phase := .idle }

/-! ### Starting a command -/

/-- `accept(v)`: command acceptance (R191), into phase `ph`. -/
def accept (ph : Phase) (s : State) : State :=
  { s with
    done := false
    errCode := .none
    errPos := 0
    errPix := 0
    pixCount := 0
    outLen := 0
    len := s.inLen
    ipos := 0
    opos := 0
    cur := 0
    phase := ph }

/-- `illegal(v)`: the illegal command (R193). -/
def rejectCommand (s : State) : State :=
  { s with
    errPos := 0
    errPix := 0
    pixCount := 0
    outLen := 0
    errCode := .illegalCommand
    done := true }

/-- A `CMD` write does `f` when idle and is ignored while a command runs (R192). -/
def whenIdle (f : State → State) (s : State) : Result := if busy s then .next s else .next (f s)

/-! ### The steps' shared parts -/

/-- `HDR_WIDTH`, `HDR_HEIGHT` and `HDR_FMT` take a header that passed (R110, R117). -/
def setHeaderRegs (w h : Word) (ch cs : Byte) (s : State) : State :=
  { s with hdrWidth := w, hdrHeight := h, hdrFmt := hdrFmtOf ch cs }

/-- `W, H, alpha, cs <- ...` (R131, R162). -/
def setLatches (w h : Word) (al : Bool) (c : Byte) (s : State) : State :=
  { s with latW := w, latH := h, alpha := al, cs := c }

/-- `N <- W * H`, the exact product (R131, R163). -/
def setPixelTotal (s : State) : State := { s with latN := s.latW.toNat * s.latH.toNat }

/-- `px <- OPAQUE_BLACK` and every cache slot `ZERO_PIXEL` (R35, R36): the start of a pass. -/
def startPass (s : State) : State :=
  { s with px := opaqueBlack, cache := Vector.replicate 64 zeroPixel }

/-- The end of a chunk: `ipos <- ipos + k`, and `if cur == N: phase <- D_TAIL` (R132). -/
def endChunk (k : Nat) (s : State) : State :=
  { s with ipos := s.ipos + k, phase := if s.cur = s.latN then .dTail else s.phase }

/-- RGB, RGBA, DIFF and LUMA: `px <- p; cache[hash(px)] <- px; put(px); ipos <- ipos + k` (R135, R136, R138,
R139). -/
def newPixelChunk (p : Pixel) (k : Nat) (s : State) : Result :=
  andThen (putPixels [p] { s with px := p, cache := cachePut s.cache p }) (fun t => .next (endChunk k t))

/-- A chunk is executed in phase D_CHUNK only (R196). -/
def inChunkPhase (s : State) (o : Result) : Result :=
  if s.phase = .dChunk then o else .refused .notEnabled

/-- The header checks after length and magic, in the order of R110: the first that fails gives its error. -/
def headerError (p : Params) (w h : Word) (ch cs : Byte) : ErrorCode :=
  if badChannels ch then .unsupportedChannels
  else if badColorspace cs then .unsupportedColorspace
  else if badDimension p w || badDimension p h then .invalidDimension
  else .none

/-- `run <- k`. -/
def setRun (k : BitVec 6) (s : State) : State := { s with run := k }

end Sys2Proof.Machine
end

