-- ==== Sys2Proof/Machine/Chunks.lean ====
section
/-! DEFINITION. The chunk meanings, executed by D_CHUNK steps (41_decoder.md R135 to R141). -/

namespace Sys2Proof.Machine

/-- RGB: `px <- (r, g, b, px.a)`, keep alpha; cached; one pixel; 4 bytes (R135). -/
def execRgb (r g b : Byte) (s : State) : Result :=
  inChunkPhase s (newPixelChunk (rgbPixel s.px r g b) 4 s)

/-- RGBA: `px <- (r, g, b, a)`; cached; one pixel; 5 bytes (R136), whatever the header's channel count (R147). -/
def execRgba (r g b a : Byte) (s : State) : Result :=
  inChunkPhase s (newPixelChunk ⟨r, g, b, a⟩ 5 s)

/-- INDEX: `px <- cache[k]`; the cache is not written; one pixel; 1 byte (R137). -/
def execIndex (k : Fin 64) (s : State) : Result :=
  inChunkPhase s (andThen (putPixels [s.cache[k]] { s with px := s.cache[k] }) (fun t => .next (endChunk 1 t)))

/-- DIFF: the deltas wrap per channel; cached; one pixel; 1 byte (R138). -/
def execDiff (dr dg db : Int) (s : State) : Result :=
  inChunkPhase s (newPixelChunk (diffPixel s.px dr dg db) 1 s)

/-- LUMA: the green delta biases the others; cached; one pixel; 2 bytes (R139). -/
def execLuma (dg drDg dbDg : Int) (s : State) : Result :=
  inChunkPhase s (newPixelChunk (lumaPixel s.px dg drDg dbDg) 2 s)

/-- RUN: RUN_OVERFLOW exactly when `cur + n > N`, before any pixel of it is written (R141); else `n` copies of
`px`, neither `px` nor the cache changed; 1 byte (R140). -/
def execRun (n : Nat) (s : State) : Result :=
  inChunkPhase s
    (if s.latN < s.cur + n then .next (raise .runOverflow s)
     else andThen (putPixels (List.replicate n s.px) s) (fun t => .next (endChunk 1 t)))

end Sys2Proof.Machine
end

