-- ==== Sys2Proof/Machine/Commands.lean ====
section
/-! DEFINITION. The host commands: a write of the CMD register (43_commands.md R191 to R197). While a command runs
every one of them is ignored (R192). -/

namespace Sys2Proof.Machine

/-- CMD_PARSE: acceptance into P_HDR (R191, R194). -/
def execCmdParse (s : State) : Result := whenIdle (accept .pHdr) s

/-- CMD_DECODE: acceptance into D_HDR (R191, R195). -/
def execCmdDecode (s : State) : Result := whenIdle (accept .dHdr) s

/-- CMD_ENCODE: acceptance into E_HDR (R191, R197). -/
def execCmdEncode (s : State) : Result := whenIdle (accept .eHdr) s

/-- CMD_ILLEGAL: ILLEGAL_COMMAND at once, whatever the value (R193). -/
def execCmdIllegal (_v : Word) (s : State) : Result := whenIdle rejectCommand s

end Sys2Proof.Machine
end

