-- ==== Sys2Proof/Machine/Header.lean ====
section
/-! DEFINITION. The header and the end marker, as the decoder's steps execute them (40_header.md, 41_decoder.md). -/

namespace Sys2Proof.Machine

/-- The rest of P_HDR once the header is read (R118): its error, or the header registers and `finish()`. -/
def parseOnly (w h : Word) (ch c : Byte) (s : State) : Result :=
  match headerError s.cfg w h ch c with
  | .none => .next (finish (setHeaderRegs w h ch c s))
  | e => .next (raise e s)

/-- The rest of D_HDR once the header is read (R131): its error; else the header registers and the latches, then
OUT_OF_MEMORY when `N > PIX_CAPACITY`, else the start of the pass at byte 14. -/
def startDecode (w h : Word) (ch c : Byte) (s : State) : Result :=
  match headerError s.cfg w h ch c with
  | .none =>
    let t := setPixelTotal (setLatches w h (ch == 4) c (setHeaderRegs w h ch c s))
    if t.cfg.pixCapacity.toNat < t.latN then .next (raise .outOfMemory t)
    else .next { startPass t with ipos := 14, cur := 0, phase := .dChunk }
  | e => .next (raise e s)

/-- HEADER: executed by P_HDR (R118) and D_HDR (R131); no other step reads one (R196). -/
def execHeader (w h : Word) (ch c : Byte) (s : State) : Result :=
  match s.phase with
  | .pHdr => parseOnly w h ch c s
  | .dHdr => startDecode w h ch c s
  | .idle => .refused .notEnabled
  | .dChunk => .refused .notEnabled
  | .dTail => .refused .notEnabled
  | .eHdr => .refused .notEnabled
  | .ePix => .refused .notEnabled
  | .eEnd => .refused .notEnabled

/-- END: at a tag position before the last pixel it is UNEXPECTED_EOF (R133); after the last pixel it is
TRAILING_DATA when more than 8 bytes remain, else the successful end with `PIX_COUNT <- N` (R144). -/
def execEndMarker (s : State) : Result :=
  match s.phase with
  | .dChunk => .next (raise .unexpectedEof s)
  | .dTail =>
    if 8 < s.len.toNat - s.ipos then .next (raise .trailingData s)
    else .next (finish { s with pixCount := BitVec.ofNat 32 s.latN })
  | .idle => .refused .notEnabled
  | .pHdr => .refused .notEnabled
  | .dHdr => .refused .notEnabled
  | .eHdr => .refused .notEnabled
  | .ePix => .refused .notEnabled
  | .eEnd => .refused .notEnabled

end Sys2Proof.Machine
end

