-- ==== Sys2Proof/Machine/HostPort.lean ====
section
/-! DEFINITION. The host's actions and the reset input (43_commands.md R190, R198 to R201; 70_reset_and_hazards.md
R240, R241). -/

namespace Sys2Proof.Machine

/-- The register at a word-aligned offset of the window (10_state.md, the table before R21); every offset it does not
name is reserved (R34). -/
def regNamed (off : Nat) : Reg :=
  if off = 0x00 then .id
  else if off = 0x04 then .ctrl
  else if off = 0x08 then .cmd
  else if off = 0x0C then .status
  else if off = 0x10 then .inLen
  else if off = 0x14 then .errPos
  else if off = 0x18 then .errPix
  else if off = 0x20 then .imgWidth
  else if off = 0x24 then .imgHeight
  else if off = 0x28 then .imgFmt
  else if off = 0x30 then .hdrWidth
  else if off = 0x34 then .hdrHeight
  else if off = 0x38 then .hdrFmt
  else if off = 0x40 then .pixCount
  else if off = 0x44 then .outLen
  else if off = 0x50 then .capIn
  else if off = 0x54 then .capPix
  else if off = 0x58 then .capOut
  else if off = 0x5C then .capMaxdim
  else .reserved

/-- The register a host access at a byte offset reaches; none for an offset the host interface does not admit, one
that is not a multiple of 4 or lies outside the window (R67, R201 (a)). -/
def regAt (off : Nat) : Option Reg := if off % 4 ≠ 0 ∨ 0xFC < off then none else some (regNamed off)

/-- What a host read of a register returns (R198, R21 to R34). -/
def regRead (s : State) : Reg → Word
  | .id => 0x716F6966
  | .ctrl => s.ctrl
  | .cmd => 0
  | .status => statusWord s
  | .inLen => s.inLen
  | .errPos => s.errPos
  | .errPix => s.errPix
  | .imgWidth => s.imgWidth
  | .imgHeight => s.imgHeight
  | .imgFmt => s.imgFmt
  | .hdrWidth => s.hdrWidth
  | .hdrHeight => s.hdrHeight
  | .hdrFmt => s.hdrFmt
  | .pixCount => s.pixCount
  | .outLen => s.outLen
  | .capIn => s.cfg.inCapacity
  | .capPix => s.cfg.pixCapacity
  | .capOut => s.cfg.outCapacity
  | .capMaxdim => s.cfg.maxDimension
  | .reserved => 0

/-- `min(v, IN_CAPACITY)` (R25). -/
def clampLen (p : Params) (v : Word) : Word := if p.inCapacity.toNat < v.toNat then p.inCapacity else v

/-- What a host write of a register does (the table of R199); `CMD` runs the command it requests (R191 to R193). -/
def regWrite (r : Reg) (v : Word) (s : State) : Result :=
  match r with
  | .ctrl => .next { s with ctrl := v &&& 1 }
  | .cmd => exec (decodeCommand v) s
  | .status => .next { s with done := s.done && !v.getLsbD 1 }
  | .inLen => if busy s then .next s else .next { s with inLen := clampLen s.cfg v }
  | .imgWidth => if busy s then .next s else .next { s with imgWidth := v }
  | .imgHeight => if busy s then .next s else .next { s with imgHeight := v }
  | .imgFmt => if busy s then .next s else .next { s with imgFmt := v &&& 0xFF01 }
  | .id => .next s
  | .errPos => .next s
  | .errPix => .next s
  | .hdrWidth => .next s
  | .hdrHeight => .next s
  | .hdrFmt => .next s
  | .pixCount => .next s
  | .outLen => .next s
  | .capIn => .next s
  | .capPix => .next s
  | .capOut => .next s
  | .capMaxdim => .next s
  | .reserved => .next s

/-- A host memory access: no move while BUSY (R72, R201 (b)) or outside the capacity (R70, R201 (c)). -/
def hostMemory (a : Nat) (cap : Word) (s t : State) : Result :=
  if busy s then .fault .hostMemoryWhileBusy
  else if a < cap.toNat then .next t
  else .fault .hostMemoryAddress

/-- One host action (R190). A read has no side effect but that its value is seen (R69, R198; log 6). -/
def hostStep (act : HostAction) (s : State) : Result :=
  match act with
  | .readReg off =>
    match regAt off with
    | none => .fault .hostRegisterAddress
    | some r => .next { s with hostData := regRead s r }
  | .writeReg off v =>
    match regAt off with
    | none => .fault .hostRegisterAddress
    | some r => regWrite r v s
  | .readIn a => hostMemory a s.cfg.inCapacity s { s with hostData := (byteInAt s a).setWidth 32 }
  | .writeIn a b => hostMemory a s.cfg.inCapacity s { s with byteIn := Memory.write s.byteIn a b }
  | .readOut a => hostMemory a s.cfg.outCapacity s { s with hostData := (byteOutAt s a).setWidth 32 }
  | .writeOut a b => hostMemory a s.cfg.outCapacity s { s with byteOut := Memory.write s.byteOut a b }
  | .readPix i => hostMemory i s.cfg.pixCapacity s { s with hostData := packPixel (pixAt s i) }
  | .writePix i v => hostMemory i s.cfg.pixCapacity s { s with pix := Memory.write s.pix i (unpackPixel v) }

/-! ### Host programs (30_encoding.md R98), as turns -/

/-- `FILL IN, a, b0 b1 ...`: byte writes to `BYTE_IN` from address `a`. -/
def fillIn (a : Nat) : List Byte → List Turn
  | [] => []
  | b :: bs => .host (.writeIn a b) :: fillIn (a + 1) bs

/-- `FILL PIX, i, (r,g,b,a) ...`: entry writes to `PIX` from index `i`. -/
def fillPix (i : Nat) : List Pixel → List Turn
  | [] => []
  | p :: ps => .host (.writePix i (packPixel p)) :: fillPix (i + 1) ps

/-- `WR REG, v`, the register by its offset. -/
def wr (off : Nat) (v : Word) : List Turn := [.host (.writeReg off v)]

/-- `RD REG`. -/
def rd (off : Nat) : List Turn := [.host (.readReg off)]

/-- `WAIT`, as `k` turns of the core: the core moves until the host reads `BUSY = 0` (log 5). A core turn in IDLE
does nothing, so any `k` at least the command's step count (R204) is the whole wait. -/
def waitTurns (k : Nat) : List Turn := List.replicate k .core

/-! ### Reset -/

/-- The reset input (R240, R241): the state after reset with the same parameters, at any time. What the memories
hold is drawn anew (R77, R241); the moves still to come and what the host saw are the host's, not the block's
(log 12). -/
def resetStep (s : State) : State :=
  { State.resetWith s.cfg with
    turns := s.turns
    hostData := s.hostData
    epoch := s.epoch + 1
    draws := s.draws }

end Sys2Proof.Machine
end

