-- ==== Sys2Proof/Machine/Encoder.lean ====
section
/-! DEFINITION. The encoder's steps (42_encoder.md R160 to R176). What they emit is the bytes of the chunk, header
or end marker as Decode.lean's encoder writes it. -/

namespace Sys2Proof.Machine

/-- `emit(...)` of an instruction's bytes (R161). -/
def emitInstr (i : Instr) (s : State) : Result := emitBytes (streamBytes i) s

/-- The checks of R162 on the latched image, in their order. -/
def imageError (s : State) : ErrorCode :=
  if badDimension s.cfg s.latW || badDimension s.cfg s.latH then .invalidDimension
  else if badColorspace s.cs then .unsupportedColorspace
  else .none

/-- `N > PIX_CAPACITY or 14 + 5*N + 8 > OUT_CAPACITY` (R163). -/
def imageTooBig (s : State) : Bool :=
  decide (s.cfg.pixCapacity.toNat < s.latN) || decide (s.cfg.outCapacity.toNat < 14 + 5 * s.latN + 8)

/-- The channel byte the serializer writes: `alpha ? 4 : 3` (R119). -/
def channelByte (al : Bool) : Byte := if al then 4 else 3

/-- The image registers as E_HDR latches them (the first two lines of R162). -/
def latchImage (s : State) : State := setLatches s.imgWidth s.imgHeight (imgHasAlpha s) (imgColorspace s) s

/-- The rest of E_HDR once R162 has passed: R163, then R164. -/
def startEncode (s : State) : Result :=
  let t := setPixelTotal s
  if imageTooBig t then .next (raise .outOfMemory t)
  else andThen (emitInstr (.header t.latW t.latH (channelByte t.alpha) t.cs) t) (fun u =>
    .next { startPass u with run := 0, cur := 0, phase := .ePix })

/-- Step E_HDR, in the order of the pseudocode of R162, R163, R164: `W`, `H`, `alpha` and `cs` are latched before
R162's checks, `N` after them, before R163's; so an error of R162 leaves `N`, and each failure leaves the latches
written so far (log 10). -/
def stepEHdr (s : State) : Result :=
  match imageError (latchImage s) with
  | .none => startEncode (latchImage s)
  | e => .next (raise e (latchImage s))

/-- The pixel the encoder reads: alpha is 255 when the image has none (R165). -/
def encoderPixel (al : Bool) (p : Pixel) : Pixel := if al then p else { p with a := 255 }

/-- Priority 1, a pixel equal to `px` (R166): count it, and emit the run when it reaches 62 or the image ends. -/
def extendRun (last : Bool) (s : State) : Result :=
  if s.run + 1 = 62 ∨ last = true then
    andThen (emitInstr (.run (s.run + 1).toNat) s) (fun t => .next (setRun 0 t))
  else .next (setRun (s.run + 1) s)

/-- The run that a differing pixel ended, if any, is emitted first (R167). -/
def flushRun (s : State) : Result :=
  if s.run = 0 then .next s
  else andThen (emitInstr (.run s.run.toNat) s) (fun t => .next (setRun 0 t))

/-- A pixel that differs from `px`: flush, emit its chunk (R167 to R173), then `cache[k] <- p; px <- p` (R174). -/
def encodePixel (p : Pixel) (s : State) : Result :=
  andThen (flushRun s) (fun t =>
    andThen (emitInstr (chooseChunk t.cache t.px p) t) (fun u =>
      .next { u with cache := cachePut u.cache p, px := p }))

/-- `cur <- cur + 1; if cur == N: phase <- E_END` (R165, R175). -/
def advancePixel (s : State) : State :=
  { s with cur := s.cur + 1, phase := if s.cur + 1 = s.latN then .eEnd else s.phase }

/-- Step E_PIX (R165 to R175): one pixel. -/
def stepEPix (s : State) : Result :=
  match loadPixel s with
  | none => .fault .coreMemoryAddress
  | some q =>
    let p := encoderPixel s.alpha q
    andThen (if p = s.px then extendRun (decide (s.cur + 1 = s.latN)) s else encodePixel p s)
      (fun t => .next (advancePixel t))

/-- Step E_END (R176): the end marker, `OUT_LEN <- opos`, `finish()`. -/
def stepEEnd (s : State) : Result :=
  andThen (emitInstr .endMarker s) (fun t => .next (finish { t with outLen := BitVec.ofNat 32 t.opos }))

end Sys2Proof.Machine
end

