-- ==== Sys2Proof/Machine/Sequencer.lean ====
section
/-! DEFINITION. The core's step: the step rule of the current phase (43_commands.md R196). The decoder's steps fetch
an instruction of the stream and run it. -/

namespace Sys2Proof.Machine

/-- P_HDR and D_HDR up to the header's own checks (R110): fewer than 14 bytes, then the magic, then the header. -/
def stepHeader (s : State) : Result :=
  if s.len.toNat < 14 then .next (raise .unexpectedEof s)
  else match fetchIn 0 14 s with
    | none => .fault .coreMemoryAddress
    | some bs =>
      match decode (.atHeader bs) with
      | .ok (i, _) => exec i s
      | .error .badMagic => .next (raise .badMagic s)
      | .error _ => .next (raise .unexpectedEof s)

/-- D_CHUNK (R132): the room check on `len - ipos`, "the bytes from the tag to the end of the stream", then the end marker or chunk in the 8 bytes from `ipos`. -/
def stepChunk (s : State) : Result :=
  if s.len.toNat - s.ipos < 8 then .next (raise .unexpectedEof s)
  else match fetchIn s.ipos 8 s with
    | none => .fault .coreMemoryAddress
    | some bs =>
      match decode (.atTag bs) with
      | .ok (i, _) => exec i s
      | .error _ => .next (raise .unexpectedEof s)

/-- D_TAIL (R144): fewer than 8 bytes, then the marker, then what follows it. -/
def stepTail (s : State) : Result :=
  if s.len.toNat - s.ipos < 8 then .next (raise .unexpectedEof s)
  else match fetchIn s.ipos 8 s with
    | none => .fault .coreMemoryAddress
    | some bs => if bs = endMarkerBytes then exec .endMarker s else .next (raise .badEndMarker s)

/-- One core step (R196). In IDLE none is enabled and the state is held (R190, R227). -/
def coreStep (s : State) : Result :=
  match s.phase with
  | .idle => .next s
  | .pHdr => stepHeader s
  | .dHdr => stepHeader s
  | .dChunk => stepChunk s
  | .dTail => stepTail s
  | .eHdr => stepEHdr s
  | .ePix => stepEPix s
  | .eEnd => stepEEnd s

end Sys2Proof.Machine
end

