-- ==== Sys2Proof/Machine/Step.lean ====
section
/-! DEFINITION. The step of the machine: the next turn's move (43_commands.md R190); and how one instruction is
placed where the next step takes it. -/

namespace Sys2Proof.Machine

/-- One move: the first turn's, or the core's when no turn is listed (R203; log 5). -/
def step (s : State) : Host.Outcome State Fault Refusal :=
  match s.turns with
  | [] => coreStep s
  | .core :: ts => coreStep { s with turns := ts }
  | .host act :: ts => hostStep act { s with turns := ts }
  | .reset :: ts => .next (resetStep { s with turns := ts })

/-- `s` with one instruction of the opcode table where the next step takes it (log 11): a command as the host's
next move; a header at byte 0 in D_HDR; the end marker at `ipos`, the last 8 bytes of the stream, in D_TAIL; a chunk
at `ipos` in D_CHUNK with room for the longest run. The core's turn comes next. -/
def State.withFetchWord (s : State) (nbits w : Nat) : State :=
  match tableFetch nbits w with
  | .atCmd v => { s with turns := .host (.writeReg 0x08 v) :: s.turns }
  | .atHeader bs =>
    { s with
      turns := .core :: s.turns
      phase := .dHdr
      byteIn := Memory.writeList s.byteIn 0 bs
      len := BitVec.ofNat 32 bs.length }
  | .atTag bs =>
    let t := { s with
      turns := .core :: s.turns
      byteIn := Memory.writeList s.byteIn s.ipos bs }
    if bs.take 8 = endMarkerBytes then
      { t with phase := .dTail, len := BitVec.ofNat 32 (s.ipos + 8), latN := s.cur }
    else
      { t with phase := .dChunk, len := BitVec.ofNat 32 (s.ipos + bs.length), latN := s.cur + 62 }

end Sys2Proof.Machine
end

