-- ==== Sys2Proof/Safety.lean ====
section
/-! DEFINITION. The terms claims are stated in: the ends of a command (43_commands.md R205), the parts of the state
an instruction leaves alone (frames), and the invariant of the block (20_memory.md R76, 10_state.md R39 and R45,
43_commands.md R198). -/

namespace Sys2Proof.Machine

/-- "A command ends at the core step after which `phase = IDLE` and `STATUS.DONE = 1`." (R205) -/
def commandEnded (s : State) : Prop := s.phase = .idle ∧ s.done = true

/-- The machine after `k` moves, stopping at the first fault or refusal. -/
def runs : Nat → State → Result
  | 0, s => .next s
  | k + 1, s => andThen (step s) (runs k)

/-- The state after `k` moves, the first at which the command is over if it is over there: after no fewer moves, but
for the state one starts in, is the phase IDLE. -/
def Reaches (k : Nat) (s t : State) : Prop :=
  runs k s = .next t ∧ ∀ j u, 0 < j → j < k → runs j s = .next u → u.phase ≠ .idle

/-- What a host may do while a command runs, in any order and number between two core steps (R190, R201): read and
write registers. The other turns are the core's. -/
def RegisterTurns (ts : List Turn) : Prop :=
  ∀ t ∈ ts, t = .core ∨ ∃ off, regAt off ≠ none ∧
    (t = .host (.readReg off) ∨ ∃ v, t = .host (.writeReg off v))

/-- How many of the next `k` moves are the core's, the turns being `ts`; with no turn left the core moves (R203). -/
def coreMoves : Nat → List Turn → Nat
  | 0, _ => 0
  | k + 1, [] => coreMoves k [] + 1
  | k + 1, .core :: ts => coreMoves k ts + 1
  | k + 1, .host _ :: ts => coreMoves k ts
  | k + 1, .reset :: ts => coreMoves k ts

/-! ### Frames -/

/-- The parameters (R5). -/
def SameParams (s t : State) : Prop := t.cfg = s.cfg

/-- The registers only the host writes (R199). -/
def SameHostRegs (s t : State) : Prop :=
  t.ctrl = s.ctrl ∧ t.inLen = s.inLen ∧ t.imgWidth = s.imgWidth ∧ t.imgHeight = s.imgHeight ∧ t.imgFmt = s.imgFmt

/-- `HDR_WIDTH`, `HDR_HEIGHT`, `HDR_FMT`. -/
def SameHeaderRegs (s t : State) : Prop :=
  t.hdrWidth = s.hdrWidth ∧ t.hdrHeight = s.hdrHeight ∧ t.hdrFmt = s.hdrFmt

/-- `STATUS.DONE`, `STATUS.ERR_CODE`, `ERR_POS`, `ERR_PIX`, `PIX_COUNT`, `OUT_LEN`. -/
def SameResultRegs (s t : State) : Prop :=
  t.done = s.done ∧ t.errCode = s.errCode ∧ t.errPos = s.errPos ∧ t.errPix = s.errPix ∧
    t.pixCount = s.pixCount ∧ t.outLen = s.outLen

/-- `W`, `H`, `N`, `alpha`, `cs`, `len` (R40). -/
def SameLatches (s t : State) : Prop :=
  t.latW = s.latW ∧ t.latH = s.latH ∧ t.latN = s.latN ∧ t.alpha = s.alpha ∧ t.cs = s.cs ∧ t.len = s.len

/-- `px` and the 64 cache slots (R35, R36). -/
def SamePixelState (s t : State) : Prop := t.px = s.px ∧ t.cache = s.cache

/-- `ipos`, `opos`, `cur` (R39). -/
def SameCursors (s t : State) : Prop := t.ipos = s.ipos ∧ t.opos = s.opos ∧ t.cur = s.cur

/-- Every byte of `BYTE_IN` reads as before. -/
def SameByteIn (s t : State) : Prop := ∀ a, byteInAt t a = byteInAt s a

/-- Every byte of `BYTE_OUT` reads as before. -/
def SameByteOut (s t : State) : Prop := ∀ a, byteOutAt t a = byteOutAt s a

/-- Every entry of `PIX` reads as before. -/
def SamePix (s t : State) : Prop := ∀ i, pixAt t i = pixAt s i

/-- The model's own fields. -/
def SameModelFields (s t : State) : Prop :=
  t.turns = s.turns ∧ t.hostData = s.hostData ∧ t.epoch = s.epoch ∧ t.draws = s.draws

/-- What no chunk that runs to its end touches: everything but `px`, the cache, `PIX`, `cur`, `ipos` and `phase`. -/
def ChunkFrame (s t : State) : Prop :=
  SameParams s t ∧ SameHostRegs s t ∧ SameHeaderRegs s t ∧ SameResultRegs s t ∧ SameLatches s t ∧
    t.opos = s.opos ∧ t.run = s.run ∧ SameModelFields s t ∧ SameByteIn s t ∧ SameByteOut s t

/-- RGB, RGBA, DIFF and LUMA: the chunks that make a new pixel and cache it (R142). -/
def makesPixel : Instr → Bool
  | .rgb _ _ _ => true
  | .rgba _ _ _ _ => true
  | .index _ => false
  | .diff _ _ _ => true
  | .luma _ _ _ => true
  | .run _ => false
  | .endMarker => false
  | .header _ _ _ _ => false
  | .cmdParse => false
  | .cmdDecode => false
  | .cmdEncode => false
  | .cmdIllegal _ => false

/-- The pixel such a chunk makes from `px` (R135, R136, R138, R139); the others leave `px`. -/
def madePixel (px : Pixel) : Instr → Pixel
  | .rgb r g b => rgbPixel px r g b
  | .rgba r g b a => ⟨r, g, b, a⟩
  | .index _ => px
  | .diff dr dg db => diffPixel px dr dg db
  | .luma dg drDg dbDg => lumaPixel px dg drDg dbDg
  | .run _ => px
  | .endMarker => px
  | .header _ _ _ _ => px
  | .cmdParse => px
  | .cmdDecode => px
  | .cmdEncode => px
  | .cmdIllegal _ => px

/-! ### The invariant -/

/-- The canonical form of the three memories, and no cell outside its memory (R61, R62, R64). -/
def MemoriesOk (s : State) : Prop :=
  Memory.wf s.byteIn ∧ Memory.wf s.pix ∧ Memory.wf s.byteOut ∧
    (∀ c ∈ s.byteIn, c.1 < s.cfg.inCapacity.toNat) ∧ (∀ c ∈ s.pix, c.1 < s.cfg.pixCapacity.toNat) ∧
    (∀ c ∈ s.byteOut, c.1 < s.cfg.outCapacity.toNat)

/-- The reserved bits of the window read 0 (R22, R27, R29), `HDR_FMT.HAS_ALPHA` is "1 exactly when `CHANNELS = 4`"
(R29), and `IN_LEN` is at most `IN_CAPACITY` (R25). -/
def WindowOk (s : State) : Prop :=
  s.ctrl &&& 0xFFFFFFFE = 0 ∧ s.imgFmt &&& 0xFFFF00FE = 0 ∧ s.hdrFmt &&& 0xFFFE0000 = 0 ∧
    (s.hdrFmt.getLsbD 16 = true ↔ s.hdrFmt.extractLsb' 0 8 = 4) ∧ s.inLen.toNat ≤ s.cfg.inCapacity.toNat

/-- While a command runs the outcome registers read 0 (R198); after one that failed there is no result, and after
one that did not fail there is no position (R30, R31, R32). -/
def OutcomeOk (s : State) : Prop :=
  (s.phase ≠ .idle → s.done = false ∧ s.errCode = .none ∧ s.pixCount = 0 ∧ s.outLen = 0) ∧
    (s.errCode ≠ .none → s.pixCount = 0 ∧ s.outLen = 0) ∧
    (s.errCode = .none → s.errPos = 0 ∧ s.errPix = 0)

/-- A DECODE between its header and its end: the cursors inside their memories (R39, R76). -/
def DecodeOk (s : State) : Prop :=
  s.len.toNat ≤ s.cfg.inCapacity.toNat ∧ 14 ≤ s.ipos ∧ s.ipos ≤ s.len.toNat ∧
    s.latN = s.latW.toNat * s.latH.toNat ∧ s.latN ≤ s.cfg.pixCapacity.toNat

/-- An ENCODE between its header and its end: `run` in 0..61 (R41) and the bytes written, with the one a pending
run will take, at most 5 for each pixel read (R163, R178). -/
def EncodeOk (s : State) : Prop :=
  s.latN = s.latW.toNat * s.latH.toNat ∧ s.latN ≤ s.cfg.pixCapacity.toNat ∧
    22 + 5 * s.latN ≤ s.cfg.outCapacity.toNat ∧ s.run.toNat ≤ 61 ∧
    s.opos + (if s.run = 0 then 0 else 1) ≤ 14 + 5 * s.cur

/-- What holds between steps in each phase (R39, R41, R76, R132, R144, R165, R176). -/
def PhaseOk (s : State) : Prop :=
  match s.phase with
  | .idle => True
  | .pHdr => s.len.toNat ≤ s.cfg.inCapacity.toNat
  | .dHdr => s.len.toNat ≤ s.cfg.inCapacity.toNat
  | .dChunk => DecodeOk s ∧ s.cur < s.latN
  | .dTail => DecodeOk s ∧ s.cur = s.latN
  | .eHdr => s.opos = 0
  | .ePix => EncodeOk s ∧ s.cur < s.latN
  | .eEnd => EncodeOk s ∧ s.cur = s.latN ∧ s.run = 0

/-- The invariant of the block. -/
def Inv (s : State) : Prop := MemoriesOk s ∧ WindowOk s ∧ OutcomeOk s ∧ PhaseOk s

/-- Every cache slot holds `ZERO_PIXEL` or a pixel whose hash is the slot (R143). -/
def CacheOk (s : State) : Prop := ∀ k : Fin 64, s.cache[k] = zeroPixel ∨ pixelHash s.cache[k] = k

end Sys2Proof.Machine
end

