-- ==== Sys2Proof/Certificates/Slice0/Obligations.lean ====
section
/-! DEFINITION. The statements for the provers, from the numbered rules of spec/. A statement whose conclusion is
`exec i s = .next …` or `step s = .next …` is that instruction's or step's completion statement. -/

open Sys2Proof Sys2Proof.Machine

/-! ### Encoding (30_encoding.md) -/

/-- Words written out from the encodings of R81, R85 to R90, R92 and R95, with the operands the spec's examples give
them (R118; R135, R136, R138, R139, R141; R193). -/
def Obligations.SpecWordsDecode : Prop :=
  decode (.atTag [0xFE, 0x0A, 0x14, 0x1E]) = .ok (.rgb 10 20 30, []) ∧
  decode (.atTag [0xFF, 0x01, 0x02, 0x03, 0x04]) = .ok (.rgba 1 2 3 4, []) ∧
  decode (.atTag [0x09]) = .ok (.index 9, []) ∧
  decode (.atTag [0x71]) = .ok (.diff 1 (-2) (-1), []) ∧
  decode (.atTag [0x80, 0x0F]) = .ok (.luma (-32) (-8) 7, []) ∧
  decode (.atTag [0xC2]) = .ok (.run 3, []) ∧
  decode (.atTag [0, 0, 0, 0, 0, 0, 0, 1]) = .ok (.endMarker, []) ∧
  decode (.atHeader [0x71, 0x6F, 0x69, 0x66, 0, 0, 0, 2, 0, 0, 0, 3, 4, 0]) = .ok (.header 2 3 4 0, []) ∧
  decode (.atCmd 1) = .ok (.cmdParse, []) ∧ decode (.atCmd 2) = .ok (.cmdDecode, []) ∧
  decode (.atCmd 3) = .ok (.cmdEncode, []) ∧ decode (.atCmd 7) = .ok (.cmdIllegal 7, [])

/-- Decoding what the encoder writes gives the instruction back, for every well-formed instruction, with every operand
at every value its encoding admits; and in the stream a chunk decodes to itself whatever follows, the one exception
being INDEX 0 where the end marker stands (R92, R94). -/
def Obligations.DecodeOfEncode : Prop :=
  (∀ i : Instr, i.wellFormed = true → decode (encode i) = .ok (i, [])) ∧
  (∀ (i : Instr) (rest : List Byte), i.wellFormed = true → i.isChunk = true →
    ¬ (i = .index 0 ∧ rest.take 7 = [0, 0, 0, 0, 0, 0, 1]) →
    decode (.atTag (streamBytes i ++ rest)) = .ok (i, rest))

/-- R94 and R93: "The tag space is total: each of the 256 tag values selects exactly one chunk kind": 8 bytes at a
tag position always decode, to the end marker or a well-formed chunk whose bytes are the ones read, and "A decoder
tells a chunk's length from its tag alone". -/
def Obligations.TagSpaceIsTotal : Prop :=
  ∀ (t : Byte) (more : List Byte), 7 ≤ more.length → ∃ i rest, decode (.atTag (t :: more)) = .ok (i, rest) ∧
    i.wellFormed = true ∧ (i = .endMarker ∨ i.isChunk = true) ∧ t :: more = streamBytes i ++ rest ∧
    (i ≠ .endMarker → more.length + 1 = rest.length +
      (if t = 0xFE then 4 else if t = 0xFF then 5 else if t.extractLsb' 6 2 = 0b10 then 2 else 1))

/-- R82: the big-endian assembly of the header's width (from offset 4) and height (from offset 8), and their
serialization. -/
def Obligations.HeaderFieldsBigEndian : Prop :=
  (∀ b0 b1 b2 b3 : Byte, (be32 b0 b1 b2 b3).toNat =
    b0.toNat * 2 ^ 24 + b1.toNat * 2 ^ 16 + b2.toNat * 2 ^ 8 + b3.toNat) ∧
  (∀ w0 w1 w2 w3 h0 h1 h2 h3 ch c : Byte,
    decode (.atHeader [0x71, 0x6F, 0x69, 0x66, w0, w1, w2, w3, h0, h1, h2, h3, ch, c]) =
      .ok (.header (be32 w0 w1 w2 w3) (be32 h0 h1 h2 h3) ch c, [])) ∧
  (∀ (w h : Word) (ch c : Byte), streamBytes (.header w h ch c) = [0x71, 0x6F, 0x69, 0x66,
    w.extractLsb' 24 8, w.extractLsb' 16 8, w.extractLsb' 8 8, w.extractLsb' 0 8,
    h.extractLsb' 24 8, h.extractLsb' 16 8, h.extractLsb' 8 8, h.extractLsb' 0 8, ch, c]) ∧
  (∀ b0 b1 b2 b3 : Byte, be32Bytes (be32 b0 b1 b2 b3) = [b0, b1, b2, b3]) ∧
  be32 0 1 2 3 = 66051

/-! ### Pixel arithmetic (00_scope.md, 10_state.md, 20_memory.md) -/

/-- R38: the width of the hash sum does not matter; the examples. -/
def Obligations.HashWidthIsFree : Prop :=
  (∀ (p : Pixel) (k : Nat), 6 ≤ k →
    (pixelHash p).val = (3 * p.r.toNat + 5 * p.g.toNat + 7 * p.b.toNat + 11 * p.a.toNat) % 2 ^ k % 64 ∧
    3 * p.r.toNat + 5 * p.g.toNat + 7 * p.b.toNat + 11 * p.a.toNat ≤ 6630) ∧
  pixelHash ⟨0, 0, 0, 0⟩ = 0 ∧ pixelHash ⟨0, 0, 0, 255⟩ = 53 ∧ pixelHash ⟨255, 255, 255, 255⟩ = 38

/-- R63's packing of a `PIX` entry: the channels' places in the word, and nothing lost either way. -/
def Obligations.PixelPacking : Prop :=
  (∀ p : Pixel, (packPixel p).extractLsb' 24 8 = p.r ∧ (packPixel p).extractLsb' 16 8 = p.g ∧
    (packPixel p).extractLsb' 8 8 = p.b ∧ (packPixel p).extractLsb' 0 8 = p.a ∧ unpackPixel (packPixel p) = p) ∧
  (∀ w : Word, packPixel (unpackPixel w) = w)

/-- R169: the residual is the wrapped signed difference, in -128..127, and adding it back modulo 256 gives the
channel (R8). -/
def Obligations.DeltaIsWrappedDifference : Prop :=
  ∀ p q : Byte, -128 ≤ channelDelta p q ∧ channelDelta p q ≤ 127 ∧
    (channelDelta p q - ((p.toNat : Int) - (q.toNat : Int))) % 256 = 0 ∧
    addDelta q (channelDelta p q) = p

/-! ### Reset (70_reset_and_hazards.md) -/

/-- R240: every register of the window after reset, the phase and the interrupt output, for every value of the
parameters. What R240 leaves unspecified is not mentioned. -/
def Obligations.ResetWindow : Prop :=
  ∀ p : Params, let s := State.resetWith p
    regRead s .id = 0x716F6966 ∧ regRead s .capIn = p.inCapacity ∧ regRead s .capPix = p.pixCapacity ∧
    regRead s .capOut = p.outCapacity ∧ regRead s .capMaxdim = p.maxDimension ∧
    (∀ r : Reg, r ∈ [Reg.ctrl, .cmd, .status, .inLen, .imgWidth, .imgHeight, .imgFmt, .hdrWidth, .hdrHeight, .hdrFmt,
      .pixCount, .outLen, .errPos, .errPix, .reserved] → regRead s r = 0) ∧
    s.phase = .idle ∧ irq s = false

/-- R241: a reset at any time, during a command too, gives the reset state's registers and reports nothing; the
parameters stay. That a reset is a turn of its own, and that the coming turns stay, is the model's choice (log 5 and
log 12). -/
def Obligations.ResetAbandonsCommand : Prop :=
  ∀ (s : State) (ts : List Turn), s.turns = .reset :: ts → ∃ t, step s = .next t ∧
    t.cfg = s.cfg ∧ t.phase = .idle ∧ t.done = false ∧ t.errCode = .none ∧ irq t = false ∧
    (∀ r : Reg, regRead t r = regRead (State.resetWith s.cfg) r) ∧ t.turns = ts

/-! ### A step runs the decoded instruction (43_commands.md R196) -/

/-- A step is the core's step when the core's move is next (no turn listed, or the core's turn: log 5); a header step
of the core runs the header at byte 0, a chunk step the instruction at the tag position, and the tail step the end marker
there; and a host write of `CMD` runs the command it requests. -/
def Obligations.StepRunsDecoded : Prop :=
  (∀ s : State, s.turns = [] → step s = coreStep s) ∧
  (∀ (s : State) (ts : List Turn), s.turns = .core :: ts → step s = coreStep { s with turns := ts }) ∧
  (∀ (s : State) (bs rest : List Byte) (i : Instr),
    ((s.phase = .pHdr ∨ s.phase = .dHdr) → 14 ≤ s.len.toNat → fetchIn 0 14 s = some bs →
      decode (.atHeader bs) = .ok (i, rest) → coreStep s = exec i s) ∧
    (s.phase = .dChunk → 8 ≤ s.len.toNat - s.ipos → fetchIn s.ipos 8 s = some bs →
      decode (.atTag bs) = .ok (i, rest) → coreStep s = exec i s) ∧
    (s.phase = .dTail → 8 ≤ s.len.toNat - s.ipos → fetchIn s.ipos 8 s = some bs →
      bs = streamBytes .endMarker → coreStep s = exec .endMarker s)) ∧
  (∀ (s : State) (v : Word) (ts : List Turn), s.turns = .host (.writeReg 0x08 v) :: ts →
    step s = exec (decodeCommand v) { s with turns := ts })

/-- R132's room check and R133: with fewer than 8 bytes left a D_CHUNK step is UNEXPECTED_EOF at the tag; so is the end
marker at a tag position before the last pixel; eight other bytes of which the first is 0 are INDEX 0. A step that raises
changes neither `px`, the cache, a cursor nor an entry of `PIX` at or above `N` (R146). -/
def Obligations.ChunkStepRejects : Prop :=
  ∀ s : State, s.phase = .dChunk →
    ((s.len.toNat - s.ipos < 8 ∨
        8 ≤ s.len.toNat - s.ipos ∧ fetchIn s.ipos 8 s = some [0, 0, 0, 0, 0, 0, 0, 1]) →
      ∃ t, coreStep s = .next t ∧ t.errCode = .unexpectedEof ∧ t.errPos = BitVec.ofNat 32 s.ipos ∧
        t.errPix = BitVec.ofNat 32 s.cur ∧ commandEnded t ∧ t.px = s.px ∧ t.cache = s.cache ∧ SameCursors s t ∧
        ∀ i, s.latN ≤ i → pixAt t i = pixAt s i) ∧
    (∀ bs : List Byte, 8 ≤ s.len.toNat - s.ipos → fetchIn s.ipos 8 s = some (0 :: bs) →
      bs ≠ [0, 0, 0, 0, 0, 0, 1] → coreStep s = exec (.index 0) s)

/-- R144: the three tests of the tail in their order, and the successful end; the step is "entered when `cur = N`",
which every step keeps (EveryStepKeepsInvariant). A failure leaves the entries of `PIX` at and above `N` (R146). -/
def Obligations.TailChecks : Prop :=
  ∀ s : State, s.phase = .dTail → s.cur = s.latN →
    let failsWith := fun e : ErrorCode => ∃ t, coreStep s = .next t ∧ t.errCode = e ∧
      t.errPos = BitVec.ofNat 32 s.ipos ∧ t.errPix = BitVec.ofNat 32 s.latN ∧ commandEnded t ∧
      ∀ i, s.latN ≤ i → pixAt t i = pixAt s i
    (s.len.toNat - s.ipos < 8 → failsWith .unexpectedEof) ∧
    (∀ bs, 8 ≤ s.len.toNat - s.ipos → fetchIn s.ipos 8 s = some bs →
      (bs ≠ [0, 0, 0, 0, 0, 0, 0, 1] → failsWith .badEndMarker) ∧
      (bs = [0, 0, 0, 0, 0, 0, 0, 1] → 8 < s.len.toNat - s.ipos → failsWith .trailingData) ∧
      (bs = [0, 0, 0, 0, 0, 0, 0, 1] → s.len.toNat - s.ipos = 8 →
        coreStep s = .next { s with pixCount := BitVec.ofNat 32 s.latN, done := true, phase := .idle }))

/-! ### The header (40_header.md) -/

/-- R112 and R113: fewer than 14 bytes is UNEXPECTED_EOF before any byte is compared; with 14 bytes a wrong magic is
BAD_MAGIC, whatever the other fields hold; with the right magic the header is executed. -/
def Obligations.HeaderLengthAndMagic : Prop :=
  ∀ s : State, (s.phase = .pHdr ∨ s.phase = .dHdr) →
    (s.len.toNat < 14 → ∃ t, coreStep s = .next t ∧ t.errCode = .unexpectedEof ∧ t.errPos = 0 ∧ t.errPix = 0 ∧
      commandEnded t ∧ SameHeaderRegs s t) ∧
    (14 ≤ s.len.toNat → 14 ≤ s.cfg.inCapacity.toNat →
      ([byteInAt s 0, byteInAt s 1, byteInAt s 2, byteInAt s 3] ≠ [0x71, 0x6F, 0x69, 0x66] →
        ∃ t, coreStep s = .next t ∧ t.errCode = .badMagic ∧ t.errPos = 0 ∧ t.errPix = 0 ∧ commandEnded t ∧
          SameHeaderRegs s t) ∧
      ([byteInAt s 0, byteInAt s 1, byteInAt s 2, byteInAt s 3] = [0x71, 0x6F, 0x69, 0x66] →
        coreStep s = exec (.header (be32 (byteInAt s 4) (byteInAt s 5) (byteInAt s 6) (byteInAt s 7))
          (be32 (byteInAt s 8) (byteInAt s 9) (byteInAt s 10) (byteInAt s 11)) (byteInAt s 12) (byteInAt s 13)) s))

/-- R114, R115, R116 in the order of R110: channels, then colorspace, then dimensions; a failing header leaves the
header registers, `PIX` and the pixel state as they were. -/
def Obligations.HeaderChecksInOrder : Prop :=
  ∀ (s : State) (w h : Word) (ch c : Byte), (s.phase = .pHdr ∨ s.phase = .dHdr) →
    ∀ e : ErrorCode,
      (e = .unsupportedChannels ∧ ch ≠ 3 ∧ ch ≠ 4 ∨
       e = .unsupportedColorspace ∧ (ch = 3 ∨ ch = 4) ∧ c ≠ 0 ∧ c ≠ 1 ∨
       e = .invalidDimension ∧ (ch = 3 ∨ ch = 4) ∧ (c = 0 ∨ c = 1) ∧
         (w = 0 ∨ s.cfg.maxDimension.toNat < w.toNat ∨ h = 0 ∨ s.cfg.maxDimension.toNat < h.toNat)) →
      ∃ t, exec (.header w h ch c) s = .next t ∧ t.errCode = e ∧ t.errPos = 0 ∧ t.errPix = 0 ∧ commandEnded t ∧
        SameHeaderRegs s t ∧ SamePix s t ∧ SamePixelState s t

/-- R118: PARSE_HEADER of a valid header writes the header registers and finishes; nothing else changes. -/
def Obligations.ParseHeaderCompletes : Prop :=
  ∀ (s : State) (w h : Word) (ch c : Byte), s.phase = .pHdr → (ch = 3 ∨ ch = 4) → (c = 0 ∨ c = 1) →
    1 ≤ w.toNat → w.toNat ≤ s.cfg.maxDimension.toNat → 1 ≤ h.toNat → h.toNat ≤ s.cfg.maxDimension.toNat →
    exec (.header w h ch c) s =
      .next { s with hdrWidth := w, hdrHeight := h, hdrFmt := hdrFmtOf ch c, done := true, phase := .idle }

/-- R131: D_HDR of a valid header whose image fits writes the header registers, the latches and the initial state of
the pass; nothing else changes. -/
def Obligations.DecodeHeaderCompletes : Prop :=
  ∀ (s : State) (w h : Word) (ch c : Byte), s.phase = .dHdr → (ch = 3 ∨ ch = 4) → (c = 0 ∨ c = 1) →
    1 ≤ w.toNat → w.toNat ≤ s.cfg.maxDimension.toNat → 1 ≤ h.toNat → h.toNat ≤ s.cfg.maxDimension.toNat →
    w.toNat * h.toNat ≤ s.cfg.pixCapacity.toNat →
    exec (.header w h ch c) s =
      .next { s with
        hdrWidth := w, hdrHeight := h, hdrFmt := hdrFmtOf ch c, latW := w, latH := h, alpha := decide (ch = 4),
        cs := c, latN := w.toNat * h.toNat, px := ⟨0, 0, 0, 255⟩,
        cache := Vector.replicate 64 ⟨0, 0, 0, 0⟩, ipos := 14, cur := 0, phase := .dChunk }

/-- R131: an image of more pixels than `PIX` holds is OUT_OF_MEMORY, with the header registers already written (R117)
and `PIX` untouched. -/
def Obligations.DecodeOutOfMemory : Prop :=
  ∀ (s : State) (w h : Word) (ch c : Byte), s.phase = .dHdr → (ch = 3 ∨ ch = 4) → (c = 0 ∨ c = 1) →
    1 ≤ w.toNat → w.toNat ≤ s.cfg.maxDimension.toNat → 1 ≤ h.toNat → h.toNat ≤ s.cfg.maxDimension.toNat →
    s.cfg.pixCapacity.toNat < w.toNat * h.toNat →
    ∃ t, exec (.header w h ch c) s = .next t ∧ t.errCode = .outOfMemory ∧ t.errPos = 0 ∧ t.errPix = 0 ∧
      commandEnded t ∧ t.hdrWidth = w ∧ t.hdrHeight = h ∧ t.hdrFmt = hdrFmtOf ch c ∧ SamePix s t

/-- R120: the header the serializer writes parses back, and `HDR_FMT.HAS_ALPHA = alpha`; R29: the fields of `HDR_FMT`
as a header writes it. -/
def Obligations.HeaderRoundTrip : Prop :=
  (∀ (p : Params) (w h : Word) (al : Bool) (c : Byte), 1 ≤ w.toNat → w.toNat ≤ p.maxDimension.toNat →
    1 ≤ h.toNat → h.toNat ≤ p.maxDimension.toNat → (c = 0 ∨ c = 1) →
    decode (.atHeader (streamBytes (.header w h (channelByte al) c))) = .ok (.header w h (channelByte al) c, []) ∧
    headerError p w h (channelByte al) c = .none ∧
    ((hdrFmtOf (channelByte al) c).getLsbD 16 = al)) ∧
  (∀ ch c : Byte, (hdrFmtOf ch c).extractLsb' 0 8 = ch ∧ (hdrFmtOf ch c).extractLsb' 8 8 = c ∧
    ((hdrFmtOf ch c).getLsbD 16 = true ↔ ch = 4) ∧ (hdrFmtOf ch c).extractLsb' 17 15 = 0)

/-! ### The chunks (41_decoder.md) -/

/-- R135 and R136: RGB keeps the alpha of `px`, RGBA sets it; both cache the new pixel, write it to `PIX[cur]` and
advance; nothing else changes. -/
def Obligations.LiteralResults : Prop :=
  ∀ (s : State) (r g b a : Byte),
    (∀ rest, decode (.atTag (0xFE :: r :: g :: b :: rest)) = .ok (.rgb r g b, rest)) ∧
    (∀ rest, decode (.atTag (0xFF :: r :: g :: b :: a :: rest)) = .ok (.rgba r g b a, rest)) ∧
    (s.phase = .dChunk → s.cur < s.cfg.pixCapacity.toNat →
      (∃ t, exec (.rgb r g b) s = .next t ∧
        t.px = ⟨r, g, b, s.px.a⟩ ∧ (∀ k : Fin 64, t.cache[k] = if k = pixelHash t.px then t.px else s.cache[k]) ∧
        pixAt t s.cur = t.px ∧ (∀ i, i ≠ s.cur → pixAt t i = pixAt s i) ∧ t.cur = s.cur + 1 ∧
        t.ipos = s.ipos + 4 ∧ (t.phase = if t.cur = s.latN then .dTail else .dChunk) ∧ ChunkFrame s t) ∧
      (∃ t, exec (.rgba r g b a) s = .next t ∧
        t.px = ⟨r, g, b, a⟩ ∧ (∀ k : Fin 64, t.cache[k] = if k = pixelHash t.px then t.px else s.cache[k]) ∧
        pixAt t s.cur = t.px ∧ (∀ i, i ≠ s.cur → pixAt t i = pixAt s i) ∧ t.cur = s.cur + 1 ∧
        t.ipos = s.ipos + 5 ∧ (t.phase = if t.cur = s.latN then .dTail else .dChunk) ∧ ChunkFrame s t))

/-- R137: INDEX sets `px` to the cached pixel and writes it; no cache slot is written. -/
def Obligations.IndexResult : Prop :=
  (∀ (t : Byte) (rest : List Byte), t.extractLsb' 6 2 = 0b00 →
    (t :: rest).take 8 ≠ [0, 0, 0, 0, 0, 0, 0, 1] →
    ∃ k : Fin 64, k.val = (t.extractLsb' 0 6).toNat ∧ decode (.atTag (t :: rest)) = .ok (.index k, rest)) ∧
  (∀ (s : State) (k : Fin 64), s.phase = .dChunk → s.cur < s.cfg.pixCapacity.toNat →
    ∃ t, exec (.index k) s = .next t ∧ t.px = s.cache[k] ∧ t.cache = s.cache ∧
      pixAt t s.cur = t.px ∧ (∀ i, i ≠ s.cur → pixAt t i = pixAt s i) ∧ t.cur = s.cur + 1 ∧
      t.ipos = s.ipos + 1 ∧ (t.phase = if t.cur = s.latN then .dTail else .dChunk) ∧ ChunkFrame s t)

/-- R138: DIFF, its three fields, and each colour channel modulo 256. -/
def Obligations.DiffResult : Prop :=
  (∀ (t : Byte) (rest : List Byte), t.extractLsb' 6 2 = 0b01 → decode (.atTag (t :: rest)) =
    .ok (.diff ((t.extractLsb' 4 2).toNat - 2) ((t.extractLsb' 2 2).toNat - 2) ((t.extractLsb' 0 2).toNat - 2),
      rest)) ∧
  (∀ (s : State) (dr dg db : Int), s.phase = .dChunk → s.cur < s.cfg.pixCapacity.toNat →
    ∃ t, exec (.diff dr dg db) s = .next t ∧
      (t.px.r.toNat : Int) = (s.px.r.toNat + dr) % 256 ∧ (t.px.g.toNat : Int) = (s.px.g.toNat + dg) % 256 ∧
      (t.px.b.toNat : Int) = (s.px.b.toNat + db) % 256 ∧ t.px.a = s.px.a ∧
      (∀ k : Fin 64, t.cache[k] = if k = pixelHash t.px then t.px else s.cache[k]) ∧
      pixAt t s.cur = t.px ∧ (∀ i, i ≠ s.cur → pixAt t i = pixAt s i) ∧ t.cur = s.cur + 1 ∧
      t.ipos = s.ipos + 1 ∧ (t.phase = if t.cur = s.latN then .dTail else .dChunk) ∧ ChunkFrame s t)

/-- R139: LUMA, its three fields, with `dr = dr_dg + dg` and `db = db_dg + dg`. -/
def Obligations.LumaResult : Prop :=
  (∀ (t u : Byte) (rest : List Byte), t.extractLsb' 6 2 = 0b10 → decode (.atTag (t :: u :: rest)) =
    .ok (.luma ((t.extractLsb' 0 6).toNat - 32) ((u.extractLsb' 4 4).toNat - 8) ((u.extractLsb' 0 4).toNat - 8),
      rest)) ∧
  (∀ (s : State) (dg drDg dbDg : Int), s.phase = .dChunk → s.cur < s.cfg.pixCapacity.toNat →
    ∃ t, exec (.luma dg drDg dbDg) s = .next t ∧
      (t.px.r.toNat : Int) = (s.px.r.toNat + (drDg + dg)) % 256 ∧
      (t.px.g.toNat : Int) = (s.px.g.toNat + dg) % 256 ∧
      (t.px.b.toNat : Int) = (s.px.b.toNat + (dbDg + dg)) % 256 ∧ t.px.a = s.px.a ∧
      (∀ k : Fin 64, t.cache[k] = if k = pixelHash t.px then t.px else s.cache[k]) ∧
      pixAt t s.cur = t.px ∧ (∀ i, i ≠ s.cur → pixAt t i = pixAt s i) ∧ t.cur = s.cur + 1 ∧
      t.ipos = s.ipos + 2 ∧ (t.phase = if t.cur = s.latN then .dTail else .dChunk) ∧ ChunkFrame s t)

/-- R140 and R141: RUN writes `n` copies of `px` and changes neither `px` nor the cache; it is RUN_OVERFLOW exactly when
`cur + n > N`, with the position of the tag, before any pixel of it is written (what a failure then leaves in `PIX` below
`N` is R146's). -/
def Obligations.RunResult : Prop :=
  (∀ (t : Byte) (rest : List Byte), t.extractLsb' 6 2 = 0b11 → t ≠ 0xFE → t ≠ 0xFF →
    decode (.atTag (t :: rest)) = .ok (.run ((t.extractLsb' 0 6).toNat + 1), rest)) ∧
  (∀ (s : State) (n : Nat), s.phase = .dChunk → s.latN ≤ s.cfg.pixCapacity.toNat →
    (s.cur + n ≤ s.latN → ∃ t, exec (.run n) s = .next t ∧ t.px = s.px ∧ t.cache = s.cache ∧
      (∀ i, s.cur ≤ i → i < s.cur + n → pixAt t i = s.px) ∧
      (∀ i, i < s.cur ∨ s.cur + n ≤ i → pixAt t i = pixAt s i) ∧ t.cur = s.cur + n ∧ t.ipos = s.ipos + 1 ∧
      (t.phase = if t.cur = s.latN then .dTail else .dChunk) ∧ ChunkFrame s t) ∧
    (s.latN < s.cur + n → ∃ t, exec (.run n) s = .next t ∧ t.errCode = .runOverflow ∧
      t.errPos = BitVec.ofNat 32 s.ipos ∧ t.errPix = BitVec.ofNat 32 s.cur ∧ t.pixCount = 0 ∧ commandEnded t ∧
      t.px = s.px ∧ t.cache = s.cache ∧ t.cur = s.cur ∧ t.ipos = s.ipos ∧
      ∀ i, s.latN ≤ i → pixAt t i = pixAt s i))

/-- R142: after every chunk that does not raise, `px` is the last pixel written to `PIX`, and what each kind of chunk
makes it. -/
def Obligations.CurrentPixelIsLastWritten : Prop :=
  ∀ (i : Instr) (s t : State), i.isChunk = true → i.wellFormed = true → exec i s = .next t → t.phase ≠ .idle →
    s.cur < t.cur ∧ pixAt t (t.cur - 1) = t.px ∧
    (makesPixel i = true → t.px = madePixel s.px i ∧ t.cache[pixelHash t.px] = t.px) ∧
    (∀ k, i = .index k → t.px = s.cache[k]) ∧
    (∀ n, i = .run n → t.px = s.px ∧ ∀ j, s.cur ≤ j → j < t.cur → pixAt t j = s.px)

/-- The frame of RGB, RGBA, DIFF and LUMA (R135, R136, R138, R139), wherever they answer a next state: they write `px`,
the cache slot of the new pixel, `PIX[cur]`, `cur`, `ipos` and `phase`. -/
def Obligations.PixelChunkFrame : Prop :=
  ∀ (i : Instr) (s t : State), makesPixel i = true → exec i s = .next t →
    ChunkFrame s t ∧ (∀ k : Fin 64, k ≠ pixelHash (madePixel s.px i) → t.cache[k] = s.cache[k]) ∧
    (∀ a, a ≠ s.cur → pixAt t a = pixAt s a)

/-- The frame of INDEX and of a RUN that fits (R137, R140), wherever they answer a next state: they write `px` (INDEX
only), the entries of `PIX` from `cur` to the new `cur`, `cur`, `ipos` and `phase`; never the cache. -/
def Obligations.IndexAndRunFrame : Prop :=
  ∀ (i : Instr) (s t : State), ((∃ k, i = .index k) ∨ ∃ n, i = .run n ∧ s.cur + n ≤ s.latN) →
    exec i s = .next t →
    ChunkFrame s t ∧ t.cache = s.cache ∧ (∀ n, i = .run n → t.px = s.px) ∧
    (∀ a, a < s.cur ∨ t.cur ≤ a → pixAt t a = pixAt s a)

/-- The frame of HEADER (R110, R131): it writes no memory, never the host's registers, `len`, `opos`, `run`; in P_HDR
neither the pixel state nor the cursors nor the latches; and it writes all three header registers or none (R117). -/
def Obligations.HeaderFrame : Prop :=
  ∀ (s t : State) (w h : Word) (ch c : Byte), exec (.header w h ch c) s = .next t →
    SameParams s t ∧ SameHostRegs s t ∧ t.len = s.len ∧ t.opos = s.opos ∧ t.run = s.run ∧ SameModelFields s t ∧
    SameByteIn s t ∧ SameByteOut s t ∧ SamePix s t ∧
    (s.phase = .pHdr → SamePixelState s t ∧ SameCursors s t ∧ SameLatches s t) ∧
    (t.hdrWidth = s.hdrWidth ∧ t.hdrHeight = s.hdrHeight ∧ t.hdrFmt = s.hdrFmt ∨
      t.hdrWidth = w ∧ t.hdrHeight = h ∧ t.hdrFmt = hdrFmtOf ch c)

/-- END (R133, R144): in D_TAIL with exactly 8 bytes left it completes, `PIX_COUNT <- N; finish()` and nothing else;
and its frame in every phase that runs it: it writes the outcome registers and the phase, and after an error no entry
of `PIX` at or above `N`. -/
def Obligations.EndMarkerResultAndFrame : Prop :=
  (∀ s : State, s.phase = .dTail → s.len.toNat - s.ipos = 8 →
    exec .endMarker s = .next { s with pixCount := BitVec.ofNat 32 s.latN, done := true, phase := .idle }) ∧
  (∀ s t : State, exec .endMarker s = .next t →
    SameParams s t ∧ SameHostRegs s t ∧ SameHeaderRegs s t ∧ SameLatches s t ∧ SamePixelState s t ∧
    SameCursors s t ∧ t.run = s.run ∧ t.turns = s.turns ∧ t.hostData = s.hostData ∧ t.epoch = s.epoch ∧
    SameByteIn s t ∧ SameByteOut s t ∧ (∀ i, s.latN ≤ i → pixAt t i = pixAt s i))

/-! ### Commands (43_commands.md) -/

/-- R191: a command written while idle is accepted, atomically as the rule says; nothing else changes. -/
def Obligations.CommandAccepted : Prop :=
  ∀ (s : State) (v : Word) (i : Instr) (ph : Phase), s.phase = .idle →
    (v = 1 ∧ i = .cmdParse ∧ ph = .pHdr ∨ v = 2 ∧ i = .cmdDecode ∧ ph = .dHdr ∨
      v = 3 ∧ i = .cmdEncode ∧ ph = .eHdr) →
    decodeCommand v = i ∧
    exec i s = .next { s with
      done := false, errCode := .none, errPos := 0, errPix := 0, pixCount := 0, outLen := 0, len := s.inLen,
      ipos := 0, opos := 0, cur := 0, phase := ph }

/-- R192: a `CMD` write while a command runs changes no state, whatever its value. -/
def Obligations.CommandIgnoredWhileBusy : Prop :=
  ∀ (s : State) (v : Word), s.phase ≠ .idle → exec (decodeCommand v) s = .next s

/-- R193: an illegal command written while idle ends at once with ILLEGAL_COMMAND; nothing else changes. -/
def Obligations.IllegalCommandRecorded : Prop :=
  ∀ (s : State) (v : Word), s.phase = .idle → v ≠ 1 → v ≠ 2 → v ≠ 3 →
    decodeCommand v = .cmdIllegal v ∧
    exec (.cmdIllegal v) s = .next { s with
      errPos := 0, errPix := 0, pixCount := 0, outLen := 0, errCode := .illegalCommand, done := true }

/-! ### Errors and the interrupt (60_exceptions.md) -/

/-- R214: what `raise Error(code)` writes, and the registers it leaves; R146: after a failure in D_CHUNK or D_TAIL the
entries of `PIX` at and above `N` read as before, after any other failure all of them. -/
def Obligations.RaiseRecordsError : Prop :=
  ∀ (e : ErrorCode) (s : State), let t := raise e s
    t.errCode = e ∧ t.pixCount = 0 ∧ t.outLen = 0 ∧ t.done = true ∧ t.phase = .idle ∧
    ((s.phase = .dChunk ∨ s.phase = .dTail) →
      t.errPos = BitVec.ofNat 32 s.ipos ∧ t.errPix = BitVec.ofNat 32 s.cur ∧
      ∀ i, s.latN ≤ i → pixAt t i = pixAt s i) ∧
    (s.phase ≠ .dChunk → s.phase ≠ .dTail → t.errPos = 0 ∧ t.errPix = 0 ∧ SamePix s t) ∧
    SameParams s t ∧ SameHostRegs s t ∧ SameHeaderRegs s t ∧ SameLatches s t ∧ SamePixelState s t ∧
    SameCursors s t ∧ t.run = s.run ∧ SameByteIn s t ∧ SameByteOut s t

/-- R24: the bits of `STATUS`. -/
def Obligations.StatusWordBits : Prop :=
  ∀ s : State, ((statusWord s).getLsbD 0 = true ↔ s.phase ≠ .idle) ∧ (statusWord s).getLsbD 1 = s.done ∧
    ((statusWord s).getLsbD 2 = true ↔ s.errCode ≠ .none) ∧ (statusWord s).extractLsb' 3 5 = 0 ∧
    (statusWord s).extractLsb' 8 4 = s.errCode.number ∧ (statusWord s).extractLsb' 12 20 = 0

/-- R220 and R221: `irq` is `DONE AND IRQ_EN`; it follows the end of every command; `DONE` stays set while masked, and
setting `IRQ_EN` then raises `irq`; it falls with acceptance, with the host's write-1-to-clear, with `IRQ_EN = 0` and with
reset. -/
def Obligations.InterruptFollowsDone : Prop :=
  (∀ s : State, irq s = (s.done && s.ctrl.getLsbD 0)) ∧
  (∀ (e : ErrorCode) (s : State), irq (raise e s) = s.ctrl.getLsbD 0) ∧
  (∀ s : State, irq (finish s) = s.ctrl.getLsbD 0 ∧ irq (rejectCommand s) = s.ctrl.getLsbD 0) ∧
  (∀ (ph : Phase) (s : State), irq (accept ph s) = false) ∧
  (∀ (s : State) (v : Word),
    (v.getLsbD 1 = true → ∃ t, hostStep (.writeReg 0x0C v) s = .next t ∧ irq t = false) ∧
    (v.getLsbD 0 = false → ∃ t, hostStep (.writeReg 0x04 v) s = .next t ∧ irq t = false ∧ t.done = s.done) ∧
    (v.getLsbD 0 = true → s.done = true → ∃ t, hostStep (.writeReg 0x04 v) s = .next t ∧ irq t = true)) ∧
  (∀ s : State, irq (resetStep s) = false)

/-! ### The host port (43_commands.md R198 to R201, 10_state.md) -/

/-- R199, the table, by the offsets of 10_state.md: what each register write does, idle or busy (`CMD` is R191 to R193);
and R200: a write of `STATUS` with bit 1 = 1 clears `DONE` and nothing else, with bit 1 = 0 it has no effect. -/
def Obligations.RegisterWriteTable : Prop :=
  ∀ (s : State) (v : Word),
    (∀ off : Nat, off ∈ [0x00, 0x30, 0x34, 0x38, 0x40, 0x44, 0x14, 0x18, 0x50, 0x54, 0x58, 0x5C] →
      hostStep (.writeReg off v) s = .next s) ∧
    (∀ off : Nat, off % 4 = 0 → off ≤ 0xFC → off ∉ [0x00, 0x04, 0x08, 0x0C, 0x10, 0x14, 0x18, 0x20, 0x24, 0x28, 0x30,
      0x34, 0x38, 0x40, 0x44, 0x50, 0x54, 0x58, 0x5C] → hostStep (.writeReg off v) s = .next s) ∧
    hostStep (.writeReg 0x04 v) s = .next { s with ctrl := v &&& 1 } ∧
    hostStep (.writeReg 0x08 v) s = exec (decodeCommand v) s ∧
    (v.getLsbD 1 = true → hostStep (.writeReg 0x0C v) s = .next { s with done := false }) ∧
    (v.getLsbD 1 = false → hostStep (.writeReg 0x0C v) s = .next s) ∧
    (s.phase = .idle →
      (v.toNat ≤ s.cfg.inCapacity.toNat → hostStep (.writeReg 0x10 v) s = .next { s with inLen := v }) ∧
      (s.cfg.inCapacity.toNat < v.toNat →
        hostStep (.writeReg 0x10 v) s = .next { s with inLen := s.cfg.inCapacity }) ∧
      hostStep (.writeReg 0x20 v) s = .next { s with imgWidth := v } ∧
      hostStep (.writeReg 0x24 v) s = .next { s with imgHeight := v } ∧
      ∃ t, hostStep (.writeReg 0x28 v) s = .next t ∧ t = { s with imgFmt := t.imgFmt } ∧
        t.imgFmt.getLsbD 0 = v.getLsbD 0 ∧ t.imgFmt.extractLsb' 8 8 = v.extractLsb' 8 8 ∧
        t.imgFmt.extractLsb' 1 7 = 0 ∧ t.imgFmt.extractLsb' 16 16 = 0) ∧
    (s.phase ≠ .idle → ∀ off : Nat, off ∈ [0x10, 0x20, 0x24, 0x28] → hostStep (.writeReg off v) s = .next s)

/-- R34: an aligned offset of the window the table does not name reads 0 and ignores writes. That the value read
stands in `hostData` is the model's choice (log 6). -/
def Obligations.ReservedOffsets : Prop :=
  ∀ (s : State) (off : Nat) (v : Word), off % 4 = 0 → off ≤ 0xFC →
    off ∉ [0x00, 0x04, 0x08, 0x0C, 0x10, 0x14, 0x18, 0x20, 0x24, 0x28, 0x30, 0x34, 0x38, 0x40, 0x44, 0x50, 0x54, 0x58,
      0x5C] →
    hostStep (.readReg off) s = .next { s with hostData := 0 } ∧ hostStep (.writeReg off v) s = .next s

/-- R198, by the offsets of 10_state.md (R21 to R33): a host read returns the field that stands at its offset and
changes nothing but the model's record of it (log 6); while a command runs (in a state that meets the invariant)
`STATUS` reads BUSY alone and the results read 0. -/
def Obligations.RegisterReads : Prop :=
  (∀ (s : State) (off : Nat) (r : Reg) (v : Word),
    (off, r, v) ∈ [(0x00, Reg.id, 0x716F6966), (0x04, .ctrl, s.ctrl), (0x08, .cmd, 0), (0x0C, .status, statusWord s),
      (0x10, .inLen, s.inLen), (0x14, .errPos, s.errPos), (0x18, .errPix, s.errPix), (0x20, .imgWidth, s.imgWidth),
      (0x24, .imgHeight, s.imgHeight), (0x28, .imgFmt, s.imgFmt), (0x30, .hdrWidth, s.hdrWidth),
      (0x34, .hdrHeight, s.hdrHeight), (0x38, .hdrFmt, s.hdrFmt), (0x40, .pixCount, s.pixCount),
      (0x44, .outLen, s.outLen), (0x50, .capIn, s.cfg.inCapacity), (0x54, .capPix, s.cfg.pixCapacity),
      (0x58, .capOut, s.cfg.outCapacity), (0x5C, .capMaxdim, s.cfg.maxDimension)] →
    regAt off = some r ∧ regRead s r = v ∧ hostStep (.readReg off) s = .next { s with hostData := v }) ∧
  (∀ (s : State) (off : Nat) (r : Reg), regAt off = some r →
    hostStep (.readReg off) s = .next { s with hostData := regRead s r }) ∧
  (∀ s : State, Inv s → s.phase ≠ .idle → regRead s .status = 1 ∧ regRead s .pixCount = 0 ∧
    regRead s .outLen = 0 ∧ regRead s .errPos = 0 ∧ regRead s .errPix = 0)

/-- R61, R62, R64, R69: the host's memory accesses while idle and inside the capacity read what was written and leave
every other place, every register and the datapath alone. That the value read stands, zero-extended, in `hostData` is the
model's choice (log 6). -/
def Obligations.HostMemoryAccesses : Prop :=
  (∀ (s : State) (a : Nat) (b : Byte), s.phase = .idle → a < s.cfg.inCapacity.toNat →
    (∃ t, hostStep (.writeIn a b) s = .next t ∧ t = { s with byteIn := t.byteIn } ∧ byteInAt t a = b ∧
      (∀ c, c ≠ a → byteInAt t c = byteInAt s c) ∧ SameByteOut s t ∧ SamePix s t) ∧
    hostStep (.readIn a) s = .next { s with hostData := (byteInAt s a).setWidth 32 }) ∧
  (∀ (s : State) (a : Nat) (b : Byte), s.phase = .idle → a < s.cfg.outCapacity.toNat →
    (∃ t, hostStep (.writeOut a b) s = .next t ∧ t = { s with byteOut := t.byteOut } ∧ byteOutAt t a = b ∧
      (∀ c, c ≠ a → byteOutAt t c = byteOutAt s c) ∧ SameByteIn s t ∧ SamePix s t) ∧
    hostStep (.readOut a) s = .next { s with hostData := (byteOutAt s a).setWidth 32 }) ∧
  (∀ (s : State) (i : Nat) (v : Word), s.phase = .idle → i < s.cfg.pixCapacity.toNat →
    (∃ t, hostStep (.writePix i v) s = .next t ∧ t = { s with pix := t.pix } ∧ pixAt t i = unpackPixel v ∧
      (∀ c, c ≠ i → pixAt t c = pixAt s c) ∧ SameByteIn s t ∧ SameByteOut s t) ∧
    hostStep (.readPix i) s = .next { s with hostData := packPixel (pixAt s i) })

/-- R67, R70, R72, R201: a host that breaks a duty has no move. That such a run stops, with a fault that names the duty,
is the model's choice (log 7). -/
def Obligations.BrokenHostDutiesStop : Prop :=
  (∀ (s : State) (off : Nat) (v : Word), (off % 4 ≠ 0 ∨ 0xFC < off) →
    hostStep (.readReg off) s = .fault .hostRegisterAddress ∧
    hostStep (.writeReg off v) s = .fault .hostRegisterAddress) ∧
  (∀ (s : State) (a : Nat) (b : Byte) (v : Word), s.phase ≠ .idle → ∀ act : HostAction,
    act ∈ [HostAction.readIn a, .writeIn a b, .readOut a, .writeOut a b, .readPix a, .writePix a v] →
    hostStep act s = .fault .hostMemoryWhileBusy) ∧
  (∀ (s : State) (a : Nat) (b : Byte) (v : Word), s.phase = .idle →
    (s.cfg.inCapacity.toNat ≤ a → hostStep (.readIn a) s = .fault .hostMemoryAddress ∧
      hostStep (.writeIn a b) s = .fault .hostMemoryAddress) ∧
    (s.cfg.outCapacity.toNat ≤ a → hostStep (.readOut a) s = .fault .hostMemoryAddress ∧
      hostStep (.writeOut a b) s = .fault .hostMemoryAddress) ∧
    (s.cfg.pixCapacity.toNat ≤ a → hostStep (.readPix a) s = .fault .hostMemoryAddress ∧
      hostStep (.writePix a v) s = .fault .hostMemoryAddress))

/-! ### The encoder (42_encoder.md) -/

/-- R162, R163, R216: E_HDR's checks in their order; a failure writes no byte of `BYTE_OUT`. -/
def Obligations.EncodeChecksInOrder : Prop :=
  ∀ s : State, s.phase = .eHdr →
    ∀ (e : ErrorCode) (dimBad csBad tooBig : Prop),
      (dimBad ↔ s.imgWidth = 0 ∨ s.cfg.maxDimension.toNat < s.imgWidth.toNat ∨
        s.imgHeight = 0 ∨ s.cfg.maxDimension.toNat < s.imgHeight.toNat) →
      (csBad ↔ s.imgFmt.extractLsb' 8 8 ≠ 0 ∧ s.imgFmt.extractLsb' 8 8 ≠ 1) →
      (tooBig ↔ s.cfg.pixCapacity.toNat < s.imgWidth.toNat * s.imgHeight.toNat ∨
        s.cfg.outCapacity.toNat < 14 + 5 * (s.imgWidth.toNat * s.imgHeight.toNat) + 8) →
      (e = .invalidDimension ∧ dimBad ∨ e = .unsupportedColorspace ∧ ¬ dimBad ∧ csBad ∨
        e = .outOfMemory ∧ ¬ dimBad ∧ ¬ csBad ∧ tooBig) →
      ∃ t, coreStep s = .next t ∧ t.errCode = e ∧ t.errPos = 0 ∧ t.errPix = 0 ∧ commandEnded t ∧ t.outLen = 0 ∧
        SameByteIn s t ∧ SameByteOut s t ∧ SamePix s t

/-- R164 and R119: E_HDR of a valid image writes the 14 header bytes and the initial state of the pass. -/
def Obligations.EncodeHeaderStep : Prop :=
  ∀ s : State, s.phase = .eHdr → s.opos = 0 →
    1 ≤ s.imgWidth.toNat → s.imgWidth.toNat ≤ s.cfg.maxDimension.toNat →
    1 ≤ s.imgHeight.toNat → s.imgHeight.toNat ≤ s.cfg.maxDimension.toNat →
    (s.imgFmt.extractLsb' 8 8 = 0 ∨ s.imgFmt.extractLsb' 8 8 = 1) →
    s.imgWidth.toNat * s.imgHeight.toNat ≤ s.cfg.pixCapacity.toNat →
    22 + 5 * (s.imgWidth.toNat * s.imgHeight.toNat) ≤ s.cfg.outCapacity.toNat →
    ∃ t, coreStep s = .next t ∧
      (List.range 14).map (byteOutAt t) = [0x71, 0x6F, 0x69, 0x66] ++ be32Bytes s.imgWidth ++
        be32Bytes s.imgHeight ++ [if s.imgFmt.getLsbD 0 then 4 else 3, s.imgFmt.extractLsb' 8 8] ∧
      (∀ a, 14 ≤ a → byteOutAt t a = byteOutAt s a) ∧ t.opos = 14 ∧
      t.latW = s.imgWidth ∧ t.latH = s.imgHeight ∧ t.latN = s.imgWidth.toNat * s.imgHeight.toNat ∧
      t.alpha = s.imgFmt.getLsbD 0 ∧ t.cs = s.imgFmt.extractLsb' 8 8 ∧
      t.px = ⟨0, 0, 0, 255⟩ ∧ (∀ k : Fin 64, t.cache[k] = ⟨0, 0, 0, 0⟩) ∧ t.run = 0 ∧ t.cur = 0 ∧
      t.phase = .ePix ∧ SameByteIn s t ∧ SamePix s t ∧ SameHostRegs s t ∧ SameHeaderRegs s t

/-- R165 and R166: a pixel equal to `px` (alpha read as 255 when the image has none) extends the run, and emits it
exactly when it reaches 62 or the image ends; neither `px` nor the cache changes. -/
def Obligations.RunExtendsOrEmits : Prop :=
  ∀ s : State, s.phase = .ePix → s.cur < s.latN → s.latN ≤ s.cfg.pixCapacity.toNat →
    s.run.toNat ≤ 61 →
    (if s.alpha then pixAt s s.cur else { pixAt s s.cur with a := 255 }) = s.px →
    (s.run.toNat + 1 ≠ 62 → s.cur + 1 ≠ s.latN →
      coreStep s = .next { s with run := s.run + 1, cur := s.cur + 1 }) ∧
    ((s.run.toNat + 1 = 62 ∨ s.cur + 1 = s.latN) → s.opos < s.cfg.outCapacity.toNat →
      coreStep s = .next { s with
        byteOut := Memory.write s.byteOut s.opos (0xC0 ||| s.run.setWidth 8), opos := s.opos + 1, run := 0,
        cur := s.cur + 1, phase := if s.cur + 1 = s.latN then .eEnd else .ePix })

/-- R167 to R175: a pixel that differs from `px` first flushes a pending run, then emits its chunk, then updates the
cache and `px`. -/
def Obligations.NonRunPixelEmits : Prop :=
  ∀ (s : State) (p : Pixel), s.phase = .ePix → s.cur < s.latN →
    s.latN ≤ s.cfg.pixCapacity.toNat →
    p = (if s.alpha then pixAt s s.cur else { pixAt s s.cur with a := 255 }) → p ≠ s.px →
    ∀ bytes : List Byte,
      bytes = (if s.run = 0 then [] else [0xC0 ||| (s.run - 1).setWidth 8]) ++
        streamBytes (chooseChunk s.cache s.px p) →
      s.opos + bytes.length ≤ s.cfg.outCapacity.toNat →
      coreStep s = .next { s with
        byteOut := Memory.writeList s.byteOut s.opos bytes, opos := s.opos + bytes.length, run := 0,
        cache := cachePut s.cache p, px := p, cur := s.cur + 1,
        phase := if s.cur + 1 = s.latN then .eEnd else .ePix }

/-- R168 to R173: the priority list, with the residuals of R169. -/
def Obligations.ChunkPriority : Prop :=
  ∀ (cache : Vector Pixel 64) (px p : Pixel) (dr dg db : Int),
    dr = channelDelta p.r px.r → dg = channelDelta p.g px.g → db = channelDelta p.b px.b →
    (cache[pixelHash p] = p → chooseChunk cache px p = .index (pixelHash p)) ∧
    (cache[pixelHash p] ≠ p → p.a ≠ px.a → chooseChunk cache px p = .rgba p.r p.g p.b p.a) ∧
    (cache[pixelHash p] ≠ p → p.a = px.a →
      ((-2 ≤ dr ∧ dr ≤ 1 ∧ -2 ≤ dg ∧ dg ≤ 1 ∧ -2 ≤ db ∧ db ≤ 1) →
        chooseChunk cache px p = .diff dr dg db) ∧
      (¬ (-2 ≤ dr ∧ dr ≤ 1 ∧ -2 ≤ dg ∧ dg ≤ 1 ∧ -2 ≤ db ∧ db ≤ 1) →
        ((-32 ≤ dg ∧ dg ≤ 31 ∧ -8 ≤ dr - dg ∧ dr - dg ≤ 7 ∧ -8 ≤ db - dg ∧ db - dg ≤ 7) →
          chooseChunk cache px p = .luma dg (dr - dg) (db - dg)) ∧
        (¬ (-32 ≤ dg ∧ dg ≤ 31 ∧ -8 ≤ dr - dg ∧ dr - dg ≤ 7 ∧ -8 ≤ db - dg ∧ db - dg ≤ 7) →
          chooseChunk cache px p = .rgb p.r p.g p.b)))

/-- R176: E_END emits the marker, sets `OUT_LEN` and finishes. -/
def Obligations.EncodeEndStep : Prop :=
  ∀ s : State, s.phase = .eEnd → s.opos + 8 ≤ s.cfg.outCapacity.toNat →
    coreStep s = .next { s with
      byteOut := Memory.writeList s.byteOut s.opos [0, 0, 0, 0, 0, 0, 0, 1], opos := s.opos + 8,
      outLen := BitVec.ofNat 32 (s.opos + 8), done := true, phase := .idle }

/-- R179 and R180: for a pixel that differs from `px` the encoder chooses a legal chunk of at most 5 bytes, and the
decoder, holding the same `px` and cache, gets that very pixel from it: from the slot, and then the encoder's cache write
(R174) changes nothing, or by making it. -/
def Obligations.ChosenChunkReconstructs : Prop :=
  ∀ (cache : Vector Pixel 64) (px p : Pixel), p ≠ px →
    (chooseChunk cache px p).wellFormed = true ∧ (chooseChunk cache px p).isChunk = true ∧
    (streamBytes (chooseChunk cache px p)).length ≤ 5 ∧
    ((∃ k, chooseChunk cache px p = .index k ∧ cache[k] = p ∧ cachePut cache p = cache) ∨
      (makesPixel (chooseChunk cache px p) = true ∧ madePixel px (chooseChunk cache px p) = p))

/-! ### The whole machine -/

/-- The invariant holds after reset, whatever the parameters; and `State.reset` is the reset state for legal parameters
(the model's choice of them: log 1; of the datapath values: log 2). -/
def Obligations.InvariantAtReset : Prop :=
  (∀ p : Params, Inv (State.resetWith p)) ∧ ∃ p : Params, p.legal = true ∧ State.reset = State.resetWith p

/-- Every move keeps the invariant: the memories stay canonical and inside their capacities, reserved bits stay 0,
the outcome registers read 0 while a command runs, and the cursors stay inside their memories (R39, R41, R76, R178,
R198). -/
def Obligations.EveryStepKeepsInvariant : Prop := ∀ s t : State, Inv s → step s = .next t → Inv t

/-- R76, R212: in a state that meets the invariant a core step of a running command is never stuck. That in IDLE, where
R190 and R196 enable no core step, a core turn answers by holding the state is the model's choice (log 5); that a reset is
a turn, which always answers, is too (log 12). -/
def Obligations.CoreIsNeverStuck : Prop :=
  ∀ s : State, Inv s → (∀ act ts, s.turns ≠ .host act :: ts) → ∃ t, step s = .next t

/-- No step ever refuses an instruction, in any state; and a step never changes a parameter. -/
def Obligations.NoStepRefuses : Prop :=
  ∀ s : State, (∀ r, step s ≠ .refused r) ∧ ∀ t, step s = .next t → t.cfg = s.cfg

/-- R143: that every cache slot holds `ZERO_PIXEL` or a pixel whose hash is its slot is kept by every move. For the reset
turn (log 12) this rests on the model's choice of a zero cache there (log 2); R44 and R240 leave the cache unspecified. -/
def Obligations.EveryStepKeepsCacheLaw : Prop := ∀ s t : State, CacheOk s → step s = .next t → CacheOk t

/-- R196, the sequencer: the phase after a core step, from a state with the pixels still to come the row says (whichever
turn the step is taken on, StepRunsDecoded; that in IDLE the state is held is the model's choice, log 5). -/
def Obligations.SequencerTransitions : Prop :=
  ∀ s t : State, coreStep s = .next t →
    (s.phase = .idle → t = s) ∧
    (s.phase = .pHdr → t.phase = .idle) ∧
    (s.phase = .dHdr → t.phase = .idle ∨ t.phase = .dChunk) ∧
    (s.phase = .dChunk → s.cur < s.latN →
      t.phase = .idle ∨ t.phase = .dChunk ∧ t.cur < t.latN ∨ t.phase = .dTail ∧ t.cur = t.latN) ∧
    (s.phase = .dTail → t.phase = .idle) ∧
    (s.phase = .eHdr → t.phase = .idle ∨ t.phase = .ePix) ∧
    (s.phase = .ePix → s.cur < s.latN → t.errCode = s.errCode ∧
      (t.phase = .ePix ∧ t.cur < t.latN ∨ t.phase = .eEnd ∧ t.cur = t.latN)) ∧
    (s.phase = .eEnd → t.phase = .idle ∧ t.errCode = s.errCode) ∧
    (s.phase ≠ .idle → t.phase = .idle → t.done = true)

/-- R196: "Only acceptance (rule R191) leaves IDLE." Of all moves, only a host write of 1, 2 or 3 to `CMD` does. -/
def Obligations.OnlyAcceptanceLeavesIdle : Prop :=
  ∀ s t : State, step s = .next t → s.phase = .idle → t.phase ≠ .idle →
    ∃ v ts, s.turns = .host (.writeReg 0x08 v) :: ts ∧ (v = 1 ∨ v = 2 ∨ v = 3)

/-- R61, R62, R64, R75: a core step writes no byte of `BYTE_IN`, and `PIX` only in DECODE, and `BYTE_OUT` only in
ENCODE; nor the registers the host writes, nor the turns to come. -/
def Obligations.CoreWritesOnlyItsMemory : Prop :=
  ∀ s t : State, coreStep s = .next t →
    SameByteIn s t ∧
    (s.phase ≠ .dChunk → s.phase ≠ .dTail → SamePix s t) ∧
    (s.phase ≠ .eHdr → s.phase ≠ .ePix → s.phase ≠ .eEnd → SameByteOut s t) ∧
    SameHostRegs s t ∧ SameParams s t ∧ t.turns = s.turns

/-- R199: no host action but a reset changes what a running command works on. -/
def Obligations.HostCannotDisturbCommand : Prop :=
  ∀ (s t : State) (act : HostAction), s.phase ≠ .idle → hostStep act s = .next t →
    t = { s with ctrl := t.ctrl, done := t.done, hostData := t.hostData } ∧ (t.done = true → s.done = true)

/-- R204, for every interleaving with the host's register accesses (R190, R203; the turns are log 5's): a DECODE ends
within `N + 2` core steps, `N` being the header's width times height; an end without error has produced `N` pixels. -/
def Obligations.DecodeEndsWithinBound : Prop :=
  ∀ (s : State) (n : Nat), s.phase = .dHdr → RegisterTurns s.turns → s.len.toNat ≤ s.cfg.inCapacity.toNat →
    n = (be32 (byteInAt s 4) (byteInAt s 5) (byteInAt s 6) (byteInAt s 7)).toNat *
        (be32 (byteInAt s 8) (byteInAt s 9) (byteInAt s 10) (byteInAt s 11)).toNat →
    ∃ k t, 1 ≤ k ∧ coreMoves k s.turns ≤ n + 2 ∧ Reaches k s t ∧ commandEnded t ∧
      (t.errCode = .none → t.pixCount = BitVec.ofNat 32 n)

/-- R160, R178, R204, for every interleaving with the host's register accesses (R190, R203; the turns are log 5's): an
ENCODE of a valid image ends without error after exactly `N + 2` core steps, with `23 <= OUT_LEN <= 22 + 5*N`. -/
def Obligations.EncodeEndsExactly : Prop :=
  ∀ (s : State) (n : Nat), s.phase = .eHdr → RegisterTurns s.turns → s.opos = 0 → s.errCode = .none →
    n = s.imgWidth.toNat * s.imgHeight.toNat →
    1 ≤ s.imgWidth.toNat → s.imgWidth.toNat ≤ s.cfg.maxDimension.toNat →
    1 ≤ s.imgHeight.toNat → s.imgHeight.toNat ≤ s.cfg.maxDimension.toNat →
    (s.imgFmt.extractLsb' 8 8 = 0 ∨ s.imgFmt.extractLsb' 8 8 = 1) →
    n ≤ s.cfg.pixCapacity.toNat → 22 + 5 * n ≤ s.cfg.outCapacity.toNat →
    (∃ k t, coreMoves k s.turns = n + 2 ∧ Reaches k s t ∧ commandEnded t ∧ t.errCode = .none ∧
      23 ≤ t.outLen.toNat ∧ t.outLen.toNat ≤ 14 + 5 * n + 8) ∧
    ∀ k t, coreMoves k s.turns < n + 2 → runs k s = .next t → t.phase ≠ .idle

/-- R151, for every interleaving with the host's register accesses (R190, R203; the turns are log 5's): a DECODE's
result is a function of `len`, `BYTE_IN[0..len)`, `MAX_DIMENSION` and `PIX_CAPACITY` alone. Two idle states that agree on
these, whatever else they hold from earlier commands and whatever register accesses come between the core's steps, give,
from the host's write of 2 to `CMD` up to and with the command's end, after the same number of core steps the same phase
and outcome registers, the same header registers where the header was written (where it was not, each keeps its own,
R117), and at a successful end the same pixels. -/
def Obligations.DecodeIsDeterministic : Prop :=
  ∀ (s u : State) (ts us : List Turn), s.phase = .idle → u.phase = .idle →
    s.turns = .host (.writeReg 0x08 2) :: ts → u.turns = .host (.writeReg 0x08 2) :: us →
    RegisterTurns ts → RegisterTurns us →
    u.cfg.maxDimension = s.cfg.maxDimension → u.cfg.pixCapacity = s.cfg.pixCapacity → u.inLen = s.inLen →
    s.inLen.toNat ≤ s.cfg.inCapacity.toNat → u.inLen.toNat ≤ u.cfg.inCapacity.toNat →
    (∀ a, a < s.inLen.toNat → byteInAt u a = byteInAt s a) →
    ∀ (k : Nat) (t : State), Reaches (k + 1) s t →
      ∃ j v, coreMoves j us = coreMoves k ts ∧ Reaches (j + 1) u v ∧ v.phase = t.phase ∧
        SameResultRegs t v ∧ (SameHeaderRegs t v ∨ SameHeaderRegs s t ∧ SameHeaderRegs u v) ∧
        (t.phase = .idle → t.errCode = .none → ∀ i, i < t.pixCount.toNat → pixAt v i = pixAt t i)

/-- R182, for every interleaving with the host's register accesses (R190, R203; the turns are log 5's): an ENCODE's
result is a function of `IMG_WIDTH`, `IMG_HEIGHT`, `IMG_FMT`, `PIX[0..N)` and the parameters. Two idle states that agree
on these, whatever else they hold from earlier commands and whatever register accesses come between the core's steps,
give, from the host's write of 3 to `CMD` up to and with the command's end, after the same number of core steps the same
phase and outcome registers and the same bytes below `OUT_LEN`. -/
def Obligations.EncodeIsDeterministic : Prop :=
  ∀ (s u : State) (ts us : List Turn), s.phase = .idle → u.phase = .idle →
    s.turns = .host (.writeReg 0x08 3) :: ts → u.turns = .host (.writeReg 0x08 3) :: us →
    RegisterTurns ts → RegisterTurns us →
    u.cfg = s.cfg → u.imgWidth = s.imgWidth → u.imgHeight = s.imgHeight → u.imgFmt = s.imgFmt →
    (∀ i, i < s.imgWidth.toNat * s.imgHeight.toNat → pixAt u i = pixAt s i) →
    ∀ (k : Nat) (t : State), Reaches (k + 1) s t →
      ∃ j v, coreMoves j us = coreMoves k ts ∧ Reaches (j + 1) u v ∧ v.phase = t.phase ∧
        SameResultRegs t v ∧ (∀ a, a < t.outLen.toNat → byteOutAt v a = byteOutAt t a)

/-- R181, the round-trip law, for every interleaving with the host's register accesses (R190, R203; the turns are
log 5's): for every valid image that the capacities admit, ENCODE succeeds; and from any state in which the bytes it wrote
stand in `BYTE_IN` and the host writes 2 to `CMD`, DECODE succeeds and gives the image back, alpha forced to 255 when the
image has none (R165). -/
def Obligations.RoundTripLaw : Prop :=
  ∀ (s : State) (ts : List Turn) (n : Nat), s.phase = .idle → s.turns = .host (.writeReg 0x08 3) :: ts →
    RegisterTurns ts → n = s.imgWidth.toNat * s.imgHeight.toNat →
    1 ≤ s.imgWidth.toNat → s.imgWidth.toNat ≤ s.cfg.maxDimension.toNat →
    1 ≤ s.imgHeight.toNat → s.imgHeight.toNat ≤ s.cfg.maxDimension.toNat →
    (s.imgFmt.extractLsb' 8 8 = 0 ∨ s.imgFmt.extractLsb' 8 8 = 1) →
    n ≤ s.cfg.pixCapacity.toNat → 22 + 5 * n ≤ s.cfg.outCapacity.toNat →
    ∃ k t, coreMoves k ts = n + 2 ∧ Reaches (k + 1) s t ∧ commandEnded t ∧ t.errCode = .none ∧
      ∀ (u : State) (us : List Turn), u.phase = .idle → u.turns = .host (.writeReg 0x08 2) :: us →
        RegisterTurns us → u.cfg = s.cfg → u.inLen = t.outLen → t.outLen.toNat ≤ s.cfg.inCapacity.toNat →
        (∀ a, a < t.outLen.toNat → byteInAt u a = byteOutAt t a) →
        ∃ j v, Reaches (j + 1) u v ∧ commandEnded v ∧ v.errCode = .none ∧ v.pixCount = BitVec.ofNat 32 n ∧
          v.hdrWidth = s.imgWidth ∧ v.hdrHeight = s.imgHeight ∧
          v.hdrFmt.extractLsb' 0 8 = (if s.imgFmt.getLsbD 0 then 4 else 3) ∧
          v.hdrFmt.extractLsb' 8 8 = s.imgFmt.extractLsb' 8 8 ∧ v.hdrFmt.getLsbD 16 = s.imgFmt.getLsbD 0 ∧
          ∀ i, i < n → pixAt v i =
            if s.imgFmt.getLsbD 0 then pixAt s i else { pixAt s i with a := 255 }
end

