-- ==== Sys2Proof/Laws/Decode.lean ====
section
/-! SUPPORT. What the decoder reads from each kind of tag: one equation for each, so that no proof unfolds it. -/

namespace Sys2Proof

/-- Bytes that do not start with 0 are no end marker. -/
theorem take_ne_endMarker {t : Byte} (rest : List Byte) (h : t ≠ 0) : (t :: rest).take 8 ≠ endMarkerBytes := by
  simp only [List.take_succ_cons, endMarkerBytes, ne_eq, List.cons.injEq]
  exact fun e => h e.1

/-- A byte whose two high bits are not 00 is not 0. -/
theorem ne_zero_of_high {t : Byte} {k : BitVec 2} (h : t.extractLsb' 6 2 = k) (hk : k ≠ 0) : t ≠ 0 := by
  rintro rfl; exact hk (h.symm.trans (by decide))

theorem decodeChunk_end {bs : List Byte} (h : bs.take 8 = endMarkerBytes) :
    decodeChunk bs = .ok (.endMarker, bs.drop 8) := by unfold decodeChunk; rw [if_pos h]

theorem decodeChunk_rgb (r g b : Byte) (rest : List Byte) :
    decodeChunk (0xFE :: r :: g :: b :: rest) = .ok (.rgb r g b, rest) := by
  unfold decodeChunk; rw [if_neg (take_ne_endMarker _ (by decide))]; rfl

theorem decodeChunk_rgba (r g b a : Byte) (rest : List Byte) :
    decodeChunk (0xFF :: r :: g :: b :: a :: rest) = .ok (.rgba r g b a, rest) := by
  unfold decodeChunk; rw [if_neg (take_ne_endMarker _ (by decide))]; rfl

theorem decodeChunk_index {t : Byte} {rest : List Byte} (hm : (t :: rest).take 8 ≠ endMarkerBytes)
    (h : t.extractLsb' 6 2 = 0b00) : decodeChunk (t :: rest) = .ok (indexOf t, rest) := by
  have h1 : t ≠ 0xFE := by rintro rfl; revert h; decide
  have h2 : t ≠ 0xFF := by rintro rfl; revert h; decide
  unfold decodeChunk; rw [if_neg hm]
  exact (if_neg h1).trans ((if_neg h2).trans (if_pos h))

theorem decodeChunk_diff {t : Byte} (rest : List Byte) (h : t.extractLsb' 6 2 = 0b01) :
    decodeChunk (t :: rest) = .ok (diffOf t, rest) := by
  have h1 : t ≠ 0xFE := by rintro rfl; revert h; decide
  have h2 : t ≠ 0xFF := by rintro rfl; revert h; decide
  have h3 : t.extractLsb' 6 2 ≠ 0b00 := by rw [h]; decide
  unfold decodeChunk; rw [if_neg (take_ne_endMarker _ (ne_zero_of_high h (by decide)))]
  exact (if_neg h1).trans ((if_neg h2).trans ((if_neg h3).trans (if_pos h)))

theorem decodeChunk_luma {t : Byte} (u : Byte) (rest : List Byte) (h : t.extractLsb' 6 2 = 0b10) :
    decodeChunk (t :: u :: rest) = .ok (lumaOf t u, rest) := by
  have h1 : t ≠ 0xFE := by rintro rfl; revert h; decide
  have h2 : t ≠ 0xFF := by rintro rfl; revert h; decide
  have h3 : t.extractLsb' 6 2 ≠ 0b00 := by rw [h]; decide
  have h4 : t.extractLsb' 6 2 ≠ 0b01 := by rw [h]; decide
  unfold decodeChunk; rw [if_neg (take_ne_endMarker _ (ne_zero_of_high h (by decide)))]
  exact (if_neg h1).trans ((if_neg h2).trans ((if_neg h3).trans ((if_neg h4).trans (if_pos h))))

theorem decodeChunk_run {t : Byte} (rest : List Byte) (h : t.extractLsb' 6 2 = 0b11) (h1 : t ≠ 0xFE)
    (h2 : t ≠ 0xFF) : decodeChunk (t :: rest) = .ok (runOf t, rest) := by
  have h3 : t.extractLsb' 6 2 ≠ 0b00 := by rw [h]; decide
  have h4 : t.extractLsb' 6 2 ≠ 0b01 := by rw [h]; decide
  have h5 : t.extractLsb' 6 2 ≠ 0b10 := by rw [h]; decide
  unfold decodeChunk; rw [if_neg (take_ne_endMarker _ (ne_zero_of_high h (by decide)))]
  exact (if_neg h1).trans ((if_neg h2).trans ((if_neg h3).trans ((if_neg h4).trans (if_neg h5))))

theorem inRange_iff {lo hi v : Int} : inRange lo hi v = true ↔ lo ≤ v ∧ v ≤ hi := by simp [inRange]

end Sys2Proof
end

