-- ==== Sys2Proof/Laws/State.lean ====
section
/-! SUPPORT. One lemma for each field under each named update of State, and for each memory read the update leaves
alone: later proofs cite these and unfold no record update. -/

namespace Sys2Proof.Machine

/-! ### raise: the error entry (R214) -/

section

variable (e : ErrorCode) (s : State)

@[simp] theorem raise_cfg : (raise e s).cfg = s.cfg := rfl
@[simp] theorem raise_ctrl : (raise e s).ctrl = s.ctrl := rfl
@[simp] theorem raise_done : (raise e s).done = true := rfl
@[simp] theorem raise_errCode : (raise e s).errCode = e := rfl
@[simp] theorem raise_inLen : (raise e s).inLen = s.inLen := rfl
@[simp] theorem raise_errPos : (raise e s).errPos = if recordsPosition s then BitVec.ofNat 32 s.ipos else 0 := rfl
@[simp] theorem raise_errPix : (raise e s).errPix = if recordsPosition s then BitVec.ofNat 32 s.cur else 0 := rfl
@[simp] theorem raise_imgWidth : (raise e s).imgWidth = s.imgWidth := rfl
@[simp] theorem raise_imgHeight : (raise e s).imgHeight = s.imgHeight := rfl
@[simp] theorem raise_imgFmt : (raise e s).imgFmt = s.imgFmt := rfl
@[simp] theorem raise_hdrWidth : (raise e s).hdrWidth = s.hdrWidth := rfl
@[simp] theorem raise_hdrHeight : (raise e s).hdrHeight = s.hdrHeight := rfl
@[simp] theorem raise_hdrFmt : (raise e s).hdrFmt = s.hdrFmt := rfl
@[simp] theorem raise_pixCount : (raise e s).pixCount = 0 := rfl
@[simp] theorem raise_outLen : (raise e s).outLen = 0 := rfl
@[simp] theorem raise_phase : (raise e s).phase = .idle := rfl
@[simp] theorem raise_px : (raise e s).px = s.px := rfl
@[simp] theorem raise_cache : (raise e s).cache = s.cache := rfl
@[simp] theorem raise_ipos : (raise e s).ipos = s.ipos := rfl
@[simp] theorem raise_opos : (raise e s).opos = s.opos := rfl
@[simp] theorem raise_cur : (raise e s).cur = s.cur := rfl
@[simp] theorem raise_run : (raise e s).run = s.run := rfl
@[simp] theorem raise_latW : (raise e s).latW = s.latW := rfl
@[simp] theorem raise_latH : (raise e s).latH = s.latH := rfl
@[simp] theorem raise_latN : (raise e s).latN = s.latN := rfl
@[simp] theorem raise_alpha : (raise e s).alpha = s.alpha := rfl
@[simp] theorem raise_cs : (raise e s).cs = s.cs := rfl
@[simp] theorem raise_len : (raise e s).len = s.len := rfl
@[simp] theorem raise_byteIn : (raise e s).byteIn = s.byteIn := rfl
@[simp] theorem raise_pix : (raise e s).pix = if recordsPosition s then lostPix s else s.pix := rfl
@[simp] theorem raise_byteOut : (raise e s).byteOut = s.byteOut := rfl
@[simp] theorem raise_turns : (raise e s).turns = s.turns := rfl
@[simp] theorem raise_hostData : (raise e s).hostData = s.hostData := rfl
@[simp] theorem raise_epoch : (raise e s).epoch = s.epoch := rfl
@[simp] theorem raise_draws : (raise e s).draws = if recordsPosition s then s.draws + 1 else s.draws := rfl
@[simp] theorem byteInAt_raise (a : Nat) : byteInAt (raise e s) a = byteInAt s a := rfl
@[simp] theorem byteOutAt_raise (a : Nat) : byteOutAt (raise e s) a = byteOutAt s a := rfl

end

/-! ### finish: the successful end (R215) -/

section

variable (s : State)

@[simp] theorem finish_cfg : (finish s).cfg = s.cfg := rfl
@[simp] theorem finish_ctrl : (finish s).ctrl = s.ctrl := rfl
@[simp] theorem finish_done : (finish s).done = true := rfl
@[simp] theorem finish_errCode : (finish s).errCode = s.errCode := rfl
@[simp] theorem finish_inLen : (finish s).inLen = s.inLen := rfl
@[simp] theorem finish_errPos : (finish s).errPos = s.errPos := rfl
@[simp] theorem finish_errPix : (finish s).errPix = s.errPix := rfl
@[simp] theorem finish_imgWidth : (finish s).imgWidth = s.imgWidth := rfl
@[simp] theorem finish_imgHeight : (finish s).imgHeight = s.imgHeight := rfl
@[simp] theorem finish_imgFmt : (finish s).imgFmt = s.imgFmt := rfl
@[simp] theorem finish_hdrWidth : (finish s).hdrWidth = s.hdrWidth := rfl
@[simp] theorem finish_hdrHeight : (finish s).hdrHeight = s.hdrHeight := rfl
@[simp] theorem finish_hdrFmt : (finish s).hdrFmt = s.hdrFmt := rfl
@[simp] theorem finish_pixCount : (finish s).pixCount = s.pixCount := rfl
@[simp] theorem finish_outLen : (finish s).outLen = s.outLen := rfl
@[simp] theorem finish_phase : (finish s).phase = .idle := rfl
@[simp] theorem finish_px : (finish s).px = s.px := rfl
@[simp] theorem finish_cache : (finish s).cache = s.cache := rfl
@[simp] theorem finish_ipos : (finish s).ipos = s.ipos := rfl
@[simp] theorem finish_opos : (finish s).opos = s.opos := rfl
@[simp] theorem finish_cur : (finish s).cur = s.cur := rfl
@[simp] theorem finish_run : (finish s).run = s.run := rfl
@[simp] theorem finish_latW : (finish s).latW = s.latW := rfl
@[simp] theorem finish_latH : (finish s).latH = s.latH := rfl
@[simp] theorem finish_latN : (finish s).latN = s.latN := rfl
@[simp] theorem finish_alpha : (finish s).alpha = s.alpha := rfl
@[simp] theorem finish_cs : (finish s).cs = s.cs := rfl
@[simp] theorem finish_len : (finish s).len = s.len := rfl
@[simp] theorem finish_byteIn : (finish s).byteIn = s.byteIn := rfl
@[simp] theorem finish_pix : (finish s).pix = s.pix := rfl
@[simp] theorem finish_byteOut : (finish s).byteOut = s.byteOut := rfl
@[simp] theorem finish_turns : (finish s).turns = s.turns := rfl
@[simp] theorem finish_hostData : (finish s).hostData = s.hostData := rfl
@[simp] theorem finish_epoch : (finish s).epoch = s.epoch := rfl
@[simp] theorem finish_draws : (finish s).draws = s.draws := rfl
@[simp] theorem byteInAt_finish (a : Nat) : byteInAt (finish s) a = byteInAt s a := rfl
@[simp] theorem byteOutAt_finish (a : Nat) : byteOutAt (finish s) a = byteOutAt s a := rfl
@[simp] theorem pixAt_finish (i : Nat) : pixAt (finish s) i = pixAt s i := rfl

end

/-! ### accept: command acceptance (R191) -/

section

variable (ph : Phase) (s : State)

@[simp] theorem accept_cfg : (accept ph s).cfg = s.cfg := rfl
@[simp] theorem accept_ctrl : (accept ph s).ctrl = s.ctrl := rfl
@[simp] theorem accept_done : (accept ph s).done = false := rfl
@[simp] theorem accept_errCode : (accept ph s).errCode = .none := rfl
@[simp] theorem accept_inLen : (accept ph s).inLen = s.inLen := rfl
@[simp] theorem accept_errPos : (accept ph s).errPos = 0 := rfl
@[simp] theorem accept_errPix : (accept ph s).errPix = 0 := rfl
@[simp] theorem accept_imgWidth : (accept ph s).imgWidth = s.imgWidth := rfl
@[simp] theorem accept_imgHeight : (accept ph s).imgHeight = s.imgHeight := rfl
@[simp] theorem accept_imgFmt : (accept ph s).imgFmt = s.imgFmt := rfl
@[simp] theorem accept_hdrWidth : (accept ph s).hdrWidth = s.hdrWidth := rfl
@[simp] theorem accept_hdrHeight : (accept ph s).hdrHeight = s.hdrHeight := rfl
@[simp] theorem accept_hdrFmt : (accept ph s).hdrFmt = s.hdrFmt := rfl
@[simp] theorem accept_pixCount : (accept ph s).pixCount = 0 := rfl
@[simp] theorem accept_outLen : (accept ph s).outLen = 0 := rfl
@[simp] theorem accept_phase : (accept ph s).phase = ph := rfl
@[simp] theorem accept_px : (accept ph s).px = s.px := rfl
@[simp] theorem accept_cache : (accept ph s).cache = s.cache := rfl
@[simp] theorem accept_ipos : (accept ph s).ipos = 0 := rfl
@[simp] theorem accept_opos : (accept ph s).opos = 0 := rfl
@[simp] theorem accept_cur : (accept ph s).cur = 0 := rfl
@[simp] theorem accept_run : (accept ph s).run = s.run := rfl
@[simp] theorem accept_latW : (accept ph s).latW = s.latW := rfl
@[simp] theorem accept_latH : (accept ph s).latH = s.latH := rfl
@[simp] theorem accept_latN : (accept ph s).latN = s.latN := rfl
@[simp] theorem accept_alpha : (accept ph s).alpha = s.alpha := rfl
@[simp] theorem accept_cs : (accept ph s).cs = s.cs := rfl
@[simp] theorem accept_len : (accept ph s).len = s.inLen := rfl
@[simp] theorem accept_byteIn : (accept ph s).byteIn = s.byteIn := rfl
@[simp] theorem accept_pix : (accept ph s).pix = s.pix := rfl
@[simp] theorem accept_byteOut : (accept ph s).byteOut = s.byteOut := rfl
@[simp] theorem accept_turns : (accept ph s).turns = s.turns := rfl
@[simp] theorem accept_hostData : (accept ph s).hostData = s.hostData := rfl
@[simp] theorem accept_epoch : (accept ph s).epoch = s.epoch := rfl
@[simp] theorem accept_draws : (accept ph s).draws = s.draws := rfl
@[simp] theorem byteInAt_accept (a : Nat) : byteInAt (accept ph s) a = byteInAt s a := rfl
@[simp] theorem byteOutAt_accept (a : Nat) : byteOutAt (accept ph s) a = byteOutAt s a := rfl
@[simp] theorem pixAt_accept (i : Nat) : pixAt (accept ph s) i = pixAt s i := rfl

end

/-! ### rejectCommand: the illegal command (R193) -/

section

variable (s : State)

@[simp] theorem rejectCommand_cfg : (rejectCommand s).cfg = s.cfg := rfl
@[simp] theorem rejectCommand_ctrl : (rejectCommand s).ctrl = s.ctrl := rfl
@[simp] theorem rejectCommand_done : (rejectCommand s).done = true := rfl
@[simp] theorem rejectCommand_errCode : (rejectCommand s).errCode = .illegalCommand := rfl
@[simp] theorem rejectCommand_inLen : (rejectCommand s).inLen = s.inLen := rfl
@[simp] theorem rejectCommand_errPos : (rejectCommand s).errPos = 0 := rfl
@[simp] theorem rejectCommand_errPix : (rejectCommand s).errPix = 0 := rfl
@[simp] theorem rejectCommand_imgWidth : (rejectCommand s).imgWidth = s.imgWidth := rfl
@[simp] theorem rejectCommand_imgHeight : (rejectCommand s).imgHeight = s.imgHeight := rfl
@[simp] theorem rejectCommand_imgFmt : (rejectCommand s).imgFmt = s.imgFmt := rfl
@[simp] theorem rejectCommand_hdrWidth : (rejectCommand s).hdrWidth = s.hdrWidth := rfl
@[simp] theorem rejectCommand_hdrHeight : (rejectCommand s).hdrHeight = s.hdrHeight := rfl
@[simp] theorem rejectCommand_hdrFmt : (rejectCommand s).hdrFmt = s.hdrFmt := rfl
@[simp] theorem rejectCommand_pixCount : (rejectCommand s).pixCount = 0 := rfl
@[simp] theorem rejectCommand_outLen : (rejectCommand s).outLen = 0 := rfl
@[simp] theorem rejectCommand_phase : (rejectCommand s).phase = s.phase := rfl
@[simp] theorem rejectCommand_px : (rejectCommand s).px = s.px := rfl
@[simp] theorem rejectCommand_cache : (rejectCommand s).cache = s.cache := rfl
@[simp] theorem rejectCommand_ipos : (rejectCommand s).ipos = s.ipos := rfl
@[simp] theorem rejectCommand_opos : (rejectCommand s).opos = s.opos := rfl
@[simp] theorem rejectCommand_cur : (rejectCommand s).cur = s.cur := rfl
@[simp] theorem rejectCommand_run : (rejectCommand s).run = s.run := rfl
@[simp] theorem rejectCommand_latW : (rejectCommand s).latW = s.latW := rfl
@[simp] theorem rejectCommand_latH : (rejectCommand s).latH = s.latH := rfl
@[simp] theorem rejectCommand_latN : (rejectCommand s).latN = s.latN := rfl
@[simp] theorem rejectCommand_alpha : (rejectCommand s).alpha = s.alpha := rfl
@[simp] theorem rejectCommand_cs : (rejectCommand s).cs = s.cs := rfl
@[simp] theorem rejectCommand_len : (rejectCommand s).len = s.len := rfl
@[simp] theorem rejectCommand_byteIn : (rejectCommand s).byteIn = s.byteIn := rfl
@[simp] theorem rejectCommand_pix : (rejectCommand s).pix = s.pix := rfl
@[simp] theorem rejectCommand_byteOut : (rejectCommand s).byteOut = s.byteOut := rfl
@[simp] theorem rejectCommand_turns : (rejectCommand s).turns = s.turns := rfl
@[simp] theorem rejectCommand_hostData : (rejectCommand s).hostData = s.hostData := rfl
@[simp] theorem rejectCommand_epoch : (rejectCommand s).epoch = s.epoch := rfl
@[simp] theorem rejectCommand_draws : (rejectCommand s).draws = s.draws := rfl
@[simp] theorem byteInAt_rejectCommand (a : Nat) : byteInAt (rejectCommand s) a = byteInAt s a := rfl
@[simp] theorem byteOutAt_rejectCommand (a : Nat) : byteOutAt (rejectCommand s) a = byteOutAt s a := rfl
@[simp] theorem pixAt_rejectCommand (i : Nat) : pixAt (rejectCommand s) i = pixAt s i := rfl

end

/-! ### setHeaderRegs: the header registers (R117) -/

section

variable (w h : Word) (ch c : Byte) (s : State)

@[simp] theorem setHeaderRegs_cfg : (setHeaderRegs w h ch c s).cfg = s.cfg := rfl
@[simp] theorem setHeaderRegs_ctrl : (setHeaderRegs w h ch c s).ctrl = s.ctrl := rfl
@[simp] theorem setHeaderRegs_done : (setHeaderRegs w h ch c s).done = s.done := rfl
@[simp] theorem setHeaderRegs_errCode : (setHeaderRegs w h ch c s).errCode = s.errCode := rfl
@[simp] theorem setHeaderRegs_inLen : (setHeaderRegs w h ch c s).inLen = s.inLen := rfl
@[simp] theorem setHeaderRegs_errPos : (setHeaderRegs w h ch c s).errPos = s.errPos := rfl
@[simp] theorem setHeaderRegs_errPix : (setHeaderRegs w h ch c s).errPix = s.errPix := rfl
@[simp] theorem setHeaderRegs_imgWidth : (setHeaderRegs w h ch c s).imgWidth = s.imgWidth := rfl
@[simp] theorem setHeaderRegs_imgHeight : (setHeaderRegs w h ch c s).imgHeight = s.imgHeight := rfl
@[simp] theorem setHeaderRegs_imgFmt : (setHeaderRegs w h ch c s).imgFmt = s.imgFmt := rfl
@[simp] theorem setHeaderRegs_hdrWidth : (setHeaderRegs w h ch c s).hdrWidth = w := rfl
@[simp] theorem setHeaderRegs_hdrHeight : (setHeaderRegs w h ch c s).hdrHeight = h := rfl
@[simp] theorem setHeaderRegs_hdrFmt : (setHeaderRegs w h ch c s).hdrFmt = hdrFmtOf ch c := rfl
@[simp] theorem setHeaderRegs_pixCount : (setHeaderRegs w h ch c s).pixCount = s.pixCount := rfl
@[simp] theorem setHeaderRegs_outLen : (setHeaderRegs w h ch c s).outLen = s.outLen := rfl
@[simp] theorem setHeaderRegs_phase : (setHeaderRegs w h ch c s).phase = s.phase := rfl
@[simp] theorem setHeaderRegs_px : (setHeaderRegs w h ch c s).px = s.px := rfl
@[simp] theorem setHeaderRegs_cache : (setHeaderRegs w h ch c s).cache = s.cache := rfl
@[simp] theorem setHeaderRegs_ipos : (setHeaderRegs w h ch c s).ipos = s.ipos := rfl
@[simp] theorem setHeaderRegs_opos : (setHeaderRegs w h ch c s).opos = s.opos := rfl
@[simp] theorem setHeaderRegs_cur : (setHeaderRegs w h ch c s).cur = s.cur := rfl
@[simp] theorem setHeaderRegs_run : (setHeaderRegs w h ch c s).run = s.run := rfl
@[simp] theorem setHeaderRegs_latW : (setHeaderRegs w h ch c s).latW = s.latW := rfl
@[simp] theorem setHeaderRegs_latH : (setHeaderRegs w h ch c s).latH = s.latH := rfl
@[simp] theorem setHeaderRegs_latN : (setHeaderRegs w h ch c s).latN = s.latN := rfl
@[simp] theorem setHeaderRegs_alpha : (setHeaderRegs w h ch c s).alpha = s.alpha := rfl
@[simp] theorem setHeaderRegs_cs : (setHeaderRegs w h ch c s).cs = s.cs := rfl
@[simp] theorem setHeaderRegs_len : (setHeaderRegs w h ch c s).len = s.len := rfl
@[simp] theorem setHeaderRegs_byteIn : (setHeaderRegs w h ch c s).byteIn = s.byteIn := rfl
@[simp] theorem setHeaderRegs_pix : (setHeaderRegs w h ch c s).pix = s.pix := rfl
@[simp] theorem setHeaderRegs_byteOut : (setHeaderRegs w h ch c s).byteOut = s.byteOut := rfl
@[simp] theorem setHeaderRegs_turns : (setHeaderRegs w h ch c s).turns = s.turns := rfl
@[simp] theorem setHeaderRegs_hostData : (setHeaderRegs w h ch c s).hostData = s.hostData := rfl
@[simp] theorem setHeaderRegs_epoch : (setHeaderRegs w h ch c s).epoch = s.epoch := rfl
@[simp] theorem setHeaderRegs_draws : (setHeaderRegs w h ch c s).draws = s.draws := rfl
@[simp] theorem byteInAt_setHeaderRegs (a : Nat) : byteInAt (setHeaderRegs w h ch c s) a = byteInAt s a := rfl
@[simp] theorem byteOutAt_setHeaderRegs (a : Nat) : byteOutAt (setHeaderRegs w h ch c s) a = byteOutAt s a := rfl
@[simp] theorem pixAt_setHeaderRegs (i : Nat) : pixAt (setHeaderRegs w h ch c s) i = pixAt s i := rfl

end

/-! ### setLatches: the command latches (R40) -/

section

variable (w h : Word) (al : Bool) (c : Byte) (s : State)

@[simp] theorem setLatches_cfg : (setLatches w h al c s).cfg = s.cfg := rfl
@[simp] theorem setLatches_ctrl : (setLatches w h al c s).ctrl = s.ctrl := rfl
@[simp] theorem setLatches_done : (setLatches w h al c s).done = s.done := rfl
@[simp] theorem setLatches_errCode : (setLatches w h al c s).errCode = s.errCode := rfl
@[simp] theorem setLatches_inLen : (setLatches w h al c s).inLen = s.inLen := rfl
@[simp] theorem setLatches_errPos : (setLatches w h al c s).errPos = s.errPos := rfl
@[simp] theorem setLatches_errPix : (setLatches w h al c s).errPix = s.errPix := rfl
@[simp] theorem setLatches_imgWidth : (setLatches w h al c s).imgWidth = s.imgWidth := rfl
@[simp] theorem setLatches_imgHeight : (setLatches w h al c s).imgHeight = s.imgHeight := rfl
@[simp] theorem setLatches_imgFmt : (setLatches w h al c s).imgFmt = s.imgFmt := rfl
@[simp] theorem setLatches_hdrWidth : (setLatches w h al c s).hdrWidth = s.hdrWidth := rfl
@[simp] theorem setLatches_hdrHeight : (setLatches w h al c s).hdrHeight = s.hdrHeight := rfl
@[simp] theorem setLatches_hdrFmt : (setLatches w h al c s).hdrFmt = s.hdrFmt := rfl
@[simp] theorem setLatches_pixCount : (setLatches w h al c s).pixCount = s.pixCount := rfl
@[simp] theorem setLatches_outLen : (setLatches w h al c s).outLen = s.outLen := rfl
@[simp] theorem setLatches_phase : (setLatches w h al c s).phase = s.phase := rfl
@[simp] theorem setLatches_px : (setLatches w h al c s).px = s.px := rfl
@[simp] theorem setLatches_cache : (setLatches w h al c s).cache = s.cache := rfl
@[simp] theorem setLatches_ipos : (setLatches w h al c s).ipos = s.ipos := rfl
@[simp] theorem setLatches_opos : (setLatches w h al c s).opos = s.opos := rfl
@[simp] theorem setLatches_cur : (setLatches w h al c s).cur = s.cur := rfl
@[simp] theorem setLatches_run : (setLatches w h al c s).run = s.run := rfl
@[simp] theorem setLatches_latW : (setLatches w h al c s).latW = w := rfl
@[simp] theorem setLatches_latH : (setLatches w h al c s).latH = h := rfl
@[simp] theorem setLatches_latN : (setLatches w h al c s).latN = s.latN := rfl
@[simp] theorem setLatches_alpha : (setLatches w h al c s).alpha = al := rfl
@[simp] theorem setLatches_cs : (setLatches w h al c s).cs = c := rfl
@[simp] theorem setLatches_len : (setLatches w h al c s).len = s.len := rfl
@[simp] theorem setLatches_byteIn : (setLatches w h al c s).byteIn = s.byteIn := rfl
@[simp] theorem setLatches_pix : (setLatches w h al c s).pix = s.pix := rfl
@[simp] theorem setLatches_byteOut : (setLatches w h al c s).byteOut = s.byteOut := rfl
@[simp] theorem setLatches_turns : (setLatches w h al c s).turns = s.turns := rfl
@[simp] theorem setLatches_hostData : (setLatches w h al c s).hostData = s.hostData := rfl
@[simp] theorem setLatches_epoch : (setLatches w h al c s).epoch = s.epoch := rfl
@[simp] theorem setLatches_draws : (setLatches w h al c s).draws = s.draws := rfl
@[simp] theorem byteInAt_setLatches (a : Nat) : byteInAt (setLatches w h al c s) a = byteInAt s a := rfl
@[simp] theorem byteOutAt_setLatches (a : Nat) : byteOutAt (setLatches w h al c s) a = byteOutAt s a := rfl
@[simp] theorem pixAt_setLatches (i : Nat) : pixAt (setLatches w h al c s) i = pixAt s i := rfl

end

/-! ### latchImage: the latched image of E_HDR (R162) -/

section

variable (s : State)

@[simp] theorem latchImage_cfg : (latchImage s).cfg = s.cfg := rfl
@[simp] theorem latchImage_ctrl : (latchImage s).ctrl = s.ctrl := rfl
@[simp] theorem latchImage_done : (latchImage s).done = s.done := rfl
@[simp] theorem latchImage_errCode : (latchImage s).errCode = s.errCode := rfl
@[simp] theorem latchImage_inLen : (latchImage s).inLen = s.inLen := rfl
@[simp] theorem latchImage_errPos : (latchImage s).errPos = s.errPos := rfl
@[simp] theorem latchImage_errPix : (latchImage s).errPix = s.errPix := rfl
@[simp] theorem latchImage_imgWidth : (latchImage s).imgWidth = s.imgWidth := rfl
@[simp] theorem latchImage_imgHeight : (latchImage s).imgHeight = s.imgHeight := rfl
@[simp] theorem latchImage_imgFmt : (latchImage s).imgFmt = s.imgFmt := rfl
@[simp] theorem latchImage_hdrWidth : (latchImage s).hdrWidth = s.hdrWidth := rfl
@[simp] theorem latchImage_hdrHeight : (latchImage s).hdrHeight = s.hdrHeight := rfl
@[simp] theorem latchImage_hdrFmt : (latchImage s).hdrFmt = s.hdrFmt := rfl
@[simp] theorem latchImage_pixCount : (latchImage s).pixCount = s.pixCount := rfl
@[simp] theorem latchImage_outLen : (latchImage s).outLen = s.outLen := rfl
@[simp] theorem latchImage_phase : (latchImage s).phase = s.phase := rfl
@[simp] theorem latchImage_px : (latchImage s).px = s.px := rfl
@[simp] theorem latchImage_cache : (latchImage s).cache = s.cache := rfl
@[simp] theorem latchImage_ipos : (latchImage s).ipos = s.ipos := rfl
@[simp] theorem latchImage_opos : (latchImage s).opos = s.opos := rfl
@[simp] theorem latchImage_cur : (latchImage s).cur = s.cur := rfl
@[simp] theorem latchImage_run : (latchImage s).run = s.run := rfl
@[simp] theorem latchImage_latW : (latchImage s).latW = s.imgWidth := rfl
@[simp] theorem latchImage_latH : (latchImage s).latH = s.imgHeight := rfl
@[simp] theorem latchImage_latN : (latchImage s).latN = s.latN := rfl
@[simp] theorem latchImage_alpha : (latchImage s).alpha = imgHasAlpha s := rfl
@[simp] theorem latchImage_cs : (latchImage s).cs = imgColorspace s := rfl
@[simp] theorem latchImage_len : (latchImage s).len = s.len := rfl
@[simp] theorem latchImage_byteIn : (latchImage s).byteIn = s.byteIn := rfl
@[simp] theorem latchImage_pix : (latchImage s).pix = s.pix := rfl
@[simp] theorem latchImage_byteOut : (latchImage s).byteOut = s.byteOut := rfl
@[simp] theorem latchImage_turns : (latchImage s).turns = s.turns := rfl
@[simp] theorem latchImage_hostData : (latchImage s).hostData = s.hostData := rfl
@[simp] theorem latchImage_epoch : (latchImage s).epoch = s.epoch := rfl
@[simp] theorem latchImage_draws : (latchImage s).draws = s.draws := rfl
@[simp] theorem byteInAt_latchImage (a : Nat) : byteInAt (latchImage s) a = byteInAt s a := rfl
@[simp] theorem byteOutAt_latchImage (a : Nat) : byteOutAt (latchImage s) a = byteOutAt s a := rfl
@[simp] theorem pixAt_latchImage (i : Nat) : pixAt (latchImage s) i = pixAt s i := rfl

end

/-! ### setPixelTotal: the latch N (R40) -/

section

variable (s : State)

@[simp] theorem setPixelTotal_cfg : (setPixelTotal s).cfg = s.cfg := rfl
@[simp] theorem setPixelTotal_ctrl : (setPixelTotal s).ctrl = s.ctrl := rfl
@[simp] theorem setPixelTotal_done : (setPixelTotal s).done = s.done := rfl
@[simp] theorem setPixelTotal_errCode : (setPixelTotal s).errCode = s.errCode := rfl
@[simp] theorem setPixelTotal_inLen : (setPixelTotal s).inLen = s.inLen := rfl
@[simp] theorem setPixelTotal_errPos : (setPixelTotal s).errPos = s.errPos := rfl
@[simp] theorem setPixelTotal_errPix : (setPixelTotal s).errPix = s.errPix := rfl
@[simp] theorem setPixelTotal_imgWidth : (setPixelTotal s).imgWidth = s.imgWidth := rfl
@[simp] theorem setPixelTotal_imgHeight : (setPixelTotal s).imgHeight = s.imgHeight := rfl
@[simp] theorem setPixelTotal_imgFmt : (setPixelTotal s).imgFmt = s.imgFmt := rfl
@[simp] theorem setPixelTotal_hdrWidth : (setPixelTotal s).hdrWidth = s.hdrWidth := rfl
@[simp] theorem setPixelTotal_hdrHeight : (setPixelTotal s).hdrHeight = s.hdrHeight := rfl
@[simp] theorem setPixelTotal_hdrFmt : (setPixelTotal s).hdrFmt = s.hdrFmt := rfl
@[simp] theorem setPixelTotal_pixCount : (setPixelTotal s).pixCount = s.pixCount := rfl
@[simp] theorem setPixelTotal_outLen : (setPixelTotal s).outLen = s.outLen := rfl
@[simp] theorem setPixelTotal_phase : (setPixelTotal s).phase = s.phase := rfl
@[simp] theorem setPixelTotal_px : (setPixelTotal s).px = s.px := rfl
@[simp] theorem setPixelTotal_cache : (setPixelTotal s).cache = s.cache := rfl
@[simp] theorem setPixelTotal_ipos : (setPixelTotal s).ipos = s.ipos := rfl
@[simp] theorem setPixelTotal_opos : (setPixelTotal s).opos = s.opos := rfl
@[simp] theorem setPixelTotal_cur : (setPixelTotal s).cur = s.cur := rfl
@[simp] theorem setPixelTotal_run : (setPixelTotal s).run = s.run := rfl
@[simp] theorem setPixelTotal_latW : (setPixelTotal s).latW = s.latW := rfl
@[simp] theorem setPixelTotal_latH : (setPixelTotal s).latH = s.latH := rfl
@[simp] theorem setPixelTotal_latN : (setPixelTotal s).latN = s.latW.toNat * s.latH.toNat := rfl
@[simp] theorem setPixelTotal_alpha : (setPixelTotal s).alpha = s.alpha := rfl
@[simp] theorem setPixelTotal_cs : (setPixelTotal s).cs = s.cs := rfl
@[simp] theorem setPixelTotal_len : (setPixelTotal s).len = s.len := rfl
@[simp] theorem setPixelTotal_byteIn : (setPixelTotal s).byteIn = s.byteIn := rfl
@[simp] theorem setPixelTotal_pix : (setPixelTotal s).pix = s.pix := rfl
@[simp] theorem setPixelTotal_byteOut : (setPixelTotal s).byteOut = s.byteOut := rfl
@[simp] theorem setPixelTotal_turns : (setPixelTotal s).turns = s.turns := rfl
@[simp] theorem setPixelTotal_hostData : (setPixelTotal s).hostData = s.hostData := rfl
@[simp] theorem setPixelTotal_epoch : (setPixelTotal s).epoch = s.epoch := rfl
@[simp] theorem setPixelTotal_draws : (setPixelTotal s).draws = s.draws := rfl
@[simp] theorem byteInAt_setPixelTotal (a : Nat) : byteInAt (setPixelTotal s) a = byteInAt s a := rfl
@[simp] theorem byteOutAt_setPixelTotal (a : Nat) : byteOutAt (setPixelTotal s) a = byteOutAt s a := rfl
@[simp] theorem pixAt_setPixelTotal (i : Nat) : pixAt (setPixelTotal s) i = pixAt s i := rfl

end

/-! ### startPass: the start of a pass (R35, R36) -/

section

variable (s : State)

@[simp] theorem startPass_cfg : (startPass s).cfg = s.cfg := rfl
@[simp] theorem startPass_ctrl : (startPass s).ctrl = s.ctrl := rfl
@[simp] theorem startPass_done : (startPass s).done = s.done := rfl
@[simp] theorem startPass_errCode : (startPass s).errCode = s.errCode := rfl
@[simp] theorem startPass_inLen : (startPass s).inLen = s.inLen := rfl
@[simp] theorem startPass_errPos : (startPass s).errPos = s.errPos := rfl
@[simp] theorem startPass_errPix : (startPass s).errPix = s.errPix := rfl
@[simp] theorem startPass_imgWidth : (startPass s).imgWidth = s.imgWidth := rfl
@[simp] theorem startPass_imgHeight : (startPass s).imgHeight = s.imgHeight := rfl
@[simp] theorem startPass_imgFmt : (startPass s).imgFmt = s.imgFmt := rfl
@[simp] theorem startPass_hdrWidth : (startPass s).hdrWidth = s.hdrWidth := rfl
@[simp] theorem startPass_hdrHeight : (startPass s).hdrHeight = s.hdrHeight := rfl
@[simp] theorem startPass_hdrFmt : (startPass s).hdrFmt = s.hdrFmt := rfl
@[simp] theorem startPass_pixCount : (startPass s).pixCount = s.pixCount := rfl
@[simp] theorem startPass_outLen : (startPass s).outLen = s.outLen := rfl
@[simp] theorem startPass_phase : (startPass s).phase = s.phase := rfl
@[simp] theorem startPass_px : (startPass s).px = opaqueBlack := rfl
@[simp] theorem startPass_cache : (startPass s).cache = Vector.replicate 64 zeroPixel := rfl
@[simp] theorem startPass_ipos : (startPass s).ipos = s.ipos := rfl
@[simp] theorem startPass_opos : (startPass s).opos = s.opos := rfl
@[simp] theorem startPass_cur : (startPass s).cur = s.cur := rfl
@[simp] theorem startPass_run : (startPass s).run = s.run := rfl
@[simp] theorem startPass_latW : (startPass s).latW = s.latW := rfl
@[simp] theorem startPass_latH : (startPass s).latH = s.latH := rfl
@[simp] theorem startPass_latN : (startPass s).latN = s.latN := rfl
@[simp] theorem startPass_alpha : (startPass s).alpha = s.alpha := rfl
@[simp] theorem startPass_cs : (startPass s).cs = s.cs := rfl
@[simp] theorem startPass_len : (startPass s).len = s.len := rfl
@[simp] theorem startPass_byteIn : (startPass s).byteIn = s.byteIn := rfl
@[simp] theorem startPass_pix : (startPass s).pix = s.pix := rfl
@[simp] theorem startPass_byteOut : (startPass s).byteOut = s.byteOut := rfl
@[simp] theorem startPass_turns : (startPass s).turns = s.turns := rfl
@[simp] theorem startPass_hostData : (startPass s).hostData = s.hostData := rfl
@[simp] theorem startPass_epoch : (startPass s).epoch = s.epoch := rfl
@[simp] theorem startPass_draws : (startPass s).draws = s.draws := rfl
@[simp] theorem byteInAt_startPass (a : Nat) : byteInAt (startPass s) a = byteInAt s a := rfl
@[simp] theorem byteOutAt_startPass (a : Nat) : byteOutAt (startPass s) a = byteOutAt s a := rfl
@[simp] theorem pixAt_startPass (i : Nat) : pixAt (startPass s) i = pixAt s i := rfl

end

/-! ### endChunk: the end of a chunk (R132) -/

section

variable (k : Nat) (s : State)

@[simp] theorem endChunk_cfg : (endChunk k s).cfg = s.cfg := rfl
@[simp] theorem endChunk_ctrl : (endChunk k s).ctrl = s.ctrl := rfl
@[simp] theorem endChunk_done : (endChunk k s).done = s.done := rfl
@[simp] theorem endChunk_errCode : (endChunk k s).errCode = s.errCode := rfl
@[simp] theorem endChunk_inLen : (endChunk k s).inLen = s.inLen := rfl
@[simp] theorem endChunk_errPos : (endChunk k s).errPos = s.errPos := rfl
@[simp] theorem endChunk_errPix : (endChunk k s).errPix = s.errPix := rfl
@[simp] theorem endChunk_imgWidth : (endChunk k s).imgWidth = s.imgWidth := rfl
@[simp] theorem endChunk_imgHeight : (endChunk k s).imgHeight = s.imgHeight := rfl
@[simp] theorem endChunk_imgFmt : (endChunk k s).imgFmt = s.imgFmt := rfl
@[simp] theorem endChunk_hdrWidth : (endChunk k s).hdrWidth = s.hdrWidth := rfl
@[simp] theorem endChunk_hdrHeight : (endChunk k s).hdrHeight = s.hdrHeight := rfl
@[simp] theorem endChunk_hdrFmt : (endChunk k s).hdrFmt = s.hdrFmt := rfl
@[simp] theorem endChunk_pixCount : (endChunk k s).pixCount = s.pixCount := rfl
@[simp] theorem endChunk_outLen : (endChunk k s).outLen = s.outLen := rfl
@[simp] theorem endChunk_phase : (endChunk k s).phase = if s.cur = s.latN then .dTail else s.phase := rfl
@[simp] theorem endChunk_px : (endChunk k s).px = s.px := rfl
@[simp] theorem endChunk_cache : (endChunk k s).cache = s.cache := rfl
@[simp] theorem endChunk_ipos : (endChunk k s).ipos = s.ipos + k := rfl
@[simp] theorem endChunk_opos : (endChunk k s).opos = s.opos := rfl
@[simp] theorem endChunk_cur : (endChunk k s).cur = s.cur := rfl
@[simp] theorem endChunk_run : (endChunk k s).run = s.run := rfl
@[simp] theorem endChunk_latW : (endChunk k s).latW = s.latW := rfl
@[simp] theorem endChunk_latH : (endChunk k s).latH = s.latH := rfl
@[simp] theorem endChunk_latN : (endChunk k s).latN = s.latN := rfl
@[simp] theorem endChunk_alpha : (endChunk k s).alpha = s.alpha := rfl
@[simp] theorem endChunk_cs : (endChunk k s).cs = s.cs := rfl
@[simp] theorem endChunk_len : (endChunk k s).len = s.len := rfl
@[simp] theorem endChunk_byteIn : (endChunk k s).byteIn = s.byteIn := rfl
@[simp] theorem endChunk_pix : (endChunk k s).pix = s.pix := rfl
@[simp] theorem endChunk_byteOut : (endChunk k s).byteOut = s.byteOut := rfl
@[simp] theorem endChunk_turns : (endChunk k s).turns = s.turns := rfl
@[simp] theorem endChunk_hostData : (endChunk k s).hostData = s.hostData := rfl
@[simp] theorem endChunk_epoch : (endChunk k s).epoch = s.epoch := rfl
@[simp] theorem endChunk_draws : (endChunk k s).draws = s.draws := rfl
@[simp] theorem byteInAt_endChunk (a : Nat) : byteInAt (endChunk k s) a = byteInAt s a := rfl
@[simp] theorem byteOutAt_endChunk (a : Nat) : byteOutAt (endChunk k s) a = byteOutAt s a := rfl
@[simp] theorem pixAt_endChunk (i : Nat) : pixAt (endChunk k s) i = pixAt s i := rfl

end

/-! ### setRun: the run counter (R41) -/

section

variable (k : BitVec 6) (s : State)

@[simp] theorem setRun_cfg : (setRun k s).cfg = s.cfg := rfl
@[simp] theorem setRun_ctrl : (setRun k s).ctrl = s.ctrl := rfl
@[simp] theorem setRun_done : (setRun k s).done = s.done := rfl
@[simp] theorem setRun_errCode : (setRun k s).errCode = s.errCode := rfl
@[simp] theorem setRun_inLen : (setRun k s).inLen = s.inLen := rfl
@[simp] theorem setRun_errPos : (setRun k s).errPos = s.errPos := rfl
@[simp] theorem setRun_errPix : (setRun k s).errPix = s.errPix := rfl
@[simp] theorem setRun_imgWidth : (setRun k s).imgWidth = s.imgWidth := rfl
@[simp] theorem setRun_imgHeight : (setRun k s).imgHeight = s.imgHeight := rfl
@[simp] theorem setRun_imgFmt : (setRun k s).imgFmt = s.imgFmt := rfl
@[simp] theorem setRun_hdrWidth : (setRun k s).hdrWidth = s.hdrWidth := rfl
@[simp] theorem setRun_hdrHeight : (setRun k s).hdrHeight = s.hdrHeight := rfl
@[simp] theorem setRun_hdrFmt : (setRun k s).hdrFmt = s.hdrFmt := rfl
@[simp] theorem setRun_pixCount : (setRun k s).pixCount = s.pixCount := rfl
@[simp] theorem setRun_outLen : (setRun k s).outLen = s.outLen := rfl
@[simp] theorem setRun_phase : (setRun k s).phase = s.phase := rfl
@[simp] theorem setRun_px : (setRun k s).px = s.px := rfl
@[simp] theorem setRun_cache : (setRun k s).cache = s.cache := rfl
@[simp] theorem setRun_ipos : (setRun k s).ipos = s.ipos := rfl
@[simp] theorem setRun_opos : (setRun k s).opos = s.opos := rfl
@[simp] theorem setRun_cur : (setRun k s).cur = s.cur := rfl
@[simp] theorem setRun_run : (setRun k s).run = k := rfl
@[simp] theorem setRun_latW : (setRun k s).latW = s.latW := rfl
@[simp] theorem setRun_latH : (setRun k s).latH = s.latH := rfl
@[simp] theorem setRun_latN : (setRun k s).latN = s.latN := rfl
@[simp] theorem setRun_alpha : (setRun k s).alpha = s.alpha := rfl
@[simp] theorem setRun_cs : (setRun k s).cs = s.cs := rfl
@[simp] theorem setRun_len : (setRun k s).len = s.len := rfl
@[simp] theorem setRun_byteIn : (setRun k s).byteIn = s.byteIn := rfl
@[simp] theorem setRun_pix : (setRun k s).pix = s.pix := rfl
@[simp] theorem setRun_byteOut : (setRun k s).byteOut = s.byteOut := rfl
@[simp] theorem setRun_turns : (setRun k s).turns = s.turns := rfl
@[simp] theorem setRun_hostData : (setRun k s).hostData = s.hostData := rfl
@[simp] theorem setRun_epoch : (setRun k s).epoch = s.epoch := rfl
@[simp] theorem setRun_draws : (setRun k s).draws = s.draws := rfl
@[simp] theorem byteInAt_setRun (a : Nat) : byteInAt (setRun k s) a = byteInAt s a := rfl
@[simp] theorem byteOutAt_setRun (a : Nat) : byteOutAt (setRun k s) a = byteOutAt s a := rfl
@[simp] theorem pixAt_setRun (i : Nat) : pixAt (setRun k s) i = pixAt s i := rfl

end

/-! ### advancePixel: the pixel advance (R175) -/

section

variable (s : State)

@[simp] theorem advancePixel_cfg : (advancePixel s).cfg = s.cfg := rfl
@[simp] theorem advancePixel_ctrl : (advancePixel s).ctrl = s.ctrl := rfl
@[simp] theorem advancePixel_done : (advancePixel s).done = s.done := rfl
@[simp] theorem advancePixel_errCode : (advancePixel s).errCode = s.errCode := rfl
@[simp] theorem advancePixel_inLen : (advancePixel s).inLen = s.inLen := rfl
@[simp] theorem advancePixel_errPos : (advancePixel s).errPos = s.errPos := rfl
@[simp] theorem advancePixel_errPix : (advancePixel s).errPix = s.errPix := rfl
@[simp] theorem advancePixel_imgWidth : (advancePixel s).imgWidth = s.imgWidth := rfl
@[simp] theorem advancePixel_imgHeight : (advancePixel s).imgHeight = s.imgHeight := rfl
@[simp] theorem advancePixel_imgFmt : (advancePixel s).imgFmt = s.imgFmt := rfl
@[simp] theorem advancePixel_hdrWidth : (advancePixel s).hdrWidth = s.hdrWidth := rfl
@[simp] theorem advancePixel_hdrHeight : (advancePixel s).hdrHeight = s.hdrHeight := rfl
@[simp] theorem advancePixel_hdrFmt : (advancePixel s).hdrFmt = s.hdrFmt := rfl
@[simp] theorem advancePixel_pixCount : (advancePixel s).pixCount = s.pixCount := rfl
@[simp] theorem advancePixel_outLen : (advancePixel s).outLen = s.outLen := rfl
@[simp] theorem advancePixel_phase : (advancePixel s).phase = if s.cur + 1 = s.latN then .eEnd else s.phase := rfl
@[simp] theorem advancePixel_px : (advancePixel s).px = s.px := rfl
@[simp] theorem advancePixel_cache : (advancePixel s).cache = s.cache := rfl
@[simp] theorem advancePixel_ipos : (advancePixel s).ipos = s.ipos := rfl
@[simp] theorem advancePixel_opos : (advancePixel s).opos = s.opos := rfl
@[simp] theorem advancePixel_cur : (advancePixel s).cur = s.cur + 1 := rfl
@[simp] theorem advancePixel_run : (advancePixel s).run = s.run := rfl
@[simp] theorem advancePixel_latW : (advancePixel s).latW = s.latW := rfl
@[simp] theorem advancePixel_latH : (advancePixel s).latH = s.latH := rfl
@[simp] theorem advancePixel_latN : (advancePixel s).latN = s.latN := rfl
@[simp] theorem advancePixel_alpha : (advancePixel s).alpha = s.alpha := rfl
@[simp] theorem advancePixel_cs : (advancePixel s).cs = s.cs := rfl
@[simp] theorem advancePixel_len : (advancePixel s).len = s.len := rfl
@[simp] theorem advancePixel_byteIn : (advancePixel s).byteIn = s.byteIn := rfl
@[simp] theorem advancePixel_pix : (advancePixel s).pix = s.pix := rfl
@[simp] theorem advancePixel_byteOut : (advancePixel s).byteOut = s.byteOut := rfl
@[simp] theorem advancePixel_turns : (advancePixel s).turns = s.turns := rfl
@[simp] theorem advancePixel_hostData : (advancePixel s).hostData = s.hostData := rfl
@[simp] theorem advancePixel_epoch : (advancePixel s).epoch = s.epoch := rfl
@[simp] theorem advancePixel_draws : (advancePixel s).draws = s.draws := rfl
@[simp] theorem byteInAt_advancePixel (a : Nat) : byteInAt (advancePixel s) a = byteInAt s a := rfl
@[simp] theorem byteOutAt_advancePixel (a : Nat) : byteOutAt (advancePixel s) a = byteOutAt s a := rfl
@[simp] theorem pixAt_advancePixel (i : Nat) : pixAt (advancePixel s) i = pixAt s i := rfl

end

/-! ### resetStep: the reset input (R240) -/

section

variable (s : State)

@[simp] theorem resetStep_cfg : (resetStep s).cfg = s.cfg := rfl
@[simp] theorem resetStep_ctrl : (resetStep s).ctrl = 0 := rfl
@[simp] theorem resetStep_done : (resetStep s).done = false := rfl
@[simp] theorem resetStep_errCode : (resetStep s).errCode = .none := rfl
@[simp] theorem resetStep_inLen : (resetStep s).inLen = 0 := rfl
@[simp] theorem resetStep_errPos : (resetStep s).errPos = 0 := rfl
@[simp] theorem resetStep_errPix : (resetStep s).errPix = 0 := rfl
@[simp] theorem resetStep_imgWidth : (resetStep s).imgWidth = 0 := rfl
@[simp] theorem resetStep_imgHeight : (resetStep s).imgHeight = 0 := rfl
@[simp] theorem resetStep_imgFmt : (resetStep s).imgFmt = 0 := rfl
@[simp] theorem resetStep_hdrWidth : (resetStep s).hdrWidth = 0 := rfl
@[simp] theorem resetStep_hdrHeight : (resetStep s).hdrHeight = 0 := rfl
@[simp] theorem resetStep_hdrFmt : (resetStep s).hdrFmt = 0 := rfl
@[simp] theorem resetStep_pixCount : (resetStep s).pixCount = 0 := rfl
@[simp] theorem resetStep_outLen : (resetStep s).outLen = 0 := rfl
@[simp] theorem resetStep_phase : (resetStep s).phase = .idle := rfl
@[simp] theorem resetStep_px : (resetStep s).px = zeroPixel := rfl
@[simp] theorem resetStep_cache : (resetStep s).cache = Vector.replicate 64 zeroPixel := rfl
@[simp] theorem resetStep_ipos : (resetStep s).ipos = 0 := rfl
@[simp] theorem resetStep_opos : (resetStep s).opos = 0 := rfl
@[simp] theorem resetStep_cur : (resetStep s).cur = 0 := rfl
@[simp] theorem resetStep_run : (resetStep s).run = 0 := rfl
@[simp] theorem resetStep_latW : (resetStep s).latW = 0 := rfl
@[simp] theorem resetStep_latH : (resetStep s).latH = 0 := rfl
@[simp] theorem resetStep_latN : (resetStep s).latN = 0 := rfl
@[simp] theorem resetStep_alpha : (resetStep s).alpha = false := rfl
@[simp] theorem resetStep_cs : (resetStep s).cs = 0 := rfl
@[simp] theorem resetStep_len : (resetStep s).len = 0 := rfl
@[simp] theorem resetStep_byteIn : (resetStep s).byteIn = [] := rfl
@[simp] theorem resetStep_pix : (resetStep s).pix = [] := rfl
@[simp] theorem resetStep_byteOut : (resetStep s).byteOut = [] := rfl
@[simp] theorem resetStep_turns : (resetStep s).turns = s.turns := rfl
@[simp] theorem resetStep_hostData : (resetStep s).hostData = s.hostData := rfl
@[simp] theorem resetStep_epoch : (resetStep s).epoch = s.epoch + 1 := rfl
@[simp] theorem resetStep_draws : (resetStep s).draws = s.draws := rfl

end

end Sys2Proof.Machine
end

