-- ==== Sys2Proof/Laws/Ops.lean ====
section
/-! SUPPORT. One lemma for each shared operation saying everything it can do: the memories' read-over-write laws and
canonical form, the core's accesses, and the sequencing of outcomes. -/

namespace Sys2Proof.Machine

/-! ### One write -/

section Memory

variable {α : Type} (m : Memory α)

theorem Memory.read_write_same (a : Nat) (v : α) : Memory.read (Memory.write m a v) a = some v := by
  induction m with
  | nil => simp [Memory.write, Memory.read]
  | cons c m ih =>
    obtain ⟨b, w⟩ := c
    unfold Memory.write
    split
    · simp [Memory.read]
    · split
      · simp [Memory.read]
      · simp_all [Memory.read]

theorem Memory.read_write_other {a b : Nat} (v : α) (h : b ≠ a) :
    Memory.read (Memory.write m a v) b = Memory.read m b := by
  induction m with
  | nil => simp [Memory.write, Memory.read, h]
  | cons c m ih =>
    obtain ⟨d, w⟩ := c
    unfold Memory.write
    split
    · simp [Memory.read, h]
    · split
      · subst_vars; simp [Memory.read, h]
      · simp [Memory.read, ih]

theorem Memory.read_write (a b : Nat) (v : α) :
    Memory.read (Memory.write m a v) b = if b = a then some v else Memory.read m b := by
  split
  · subst_vars; exact Memory.read_write_same m _ v
  · exact Memory.read_write_other m v ‹_›

theorem Memory.mem_write {a : Nat} {v : α} {c : Nat × α} (h : c ∈ Memory.write m a v) :
    c = (a, v) ∨ c ∈ m := by
  induction m with
  | nil => simp_all [Memory.write]
  | cons d m ih =>
    obtain ⟨b, w⟩ := d
    unfold Memory.write at h
    split at h
    · simpa using h
    · split at h <;> simp only [List.mem_cons] at h ⊢ <;> tauto

theorem Memory.write_wf (a : Nat) (v : α) (h : Memory.wf m) : Memory.wf (Memory.write m a v) := by
  induction m with
  | nil => simp [Memory.write, Memory.wf]
  | cons d m ih =>
    obtain ⟨b, w⟩ := d
    simp only [Memory.wf, List.pairwise_cons] at h ih ⊢
    unfold Memory.write
    split
    · simp only [List.pairwise_cons, List.mem_cons, forall_eq_or_imp]
      exact ⟨⟨‹_›, fun c hc => lt_trans ‹a < b› (h.1 c hc)⟩, h.1, h.2⟩
    · split
      · subst_vars; exact List.pairwise_cons.2 h
      · refine List.pairwise_cons.2 ⟨fun c hc => ?_, ih h.2⟩
        rcases Memory.mem_write m hc with rfl | hc
        · simp only; omega
        · exact h.1 c hc

/-! ### A list of writes -/

theorem Memory.read_writeList (vs : List α) (a b : Nat) :
    Memory.read (Memory.writeList m a vs) b =
      if a ≤ b ∧ b < a + vs.length then vs[b - a]? else Memory.read m b := by
  induction vs generalizing m a with
  | nil => simp [Memory.writeList]
  | cons v vs ih =>
    simp only [Memory.writeList, ih, Memory.read_write, List.length_cons]
    by_cases h : b = a
    · subst h; simp
    · by_cases hb : a + 1 ≤ b ∧ b < a + 1 + vs.length
      · rw [if_pos hb, if_pos (by omega), show b - a = (b - (a + 1)) + 1 by omega]; simp
      · rw [if_neg hb, if_neg h, if_neg (by omega)]

theorem Memory.writeList_append (vs ws : List α) (a : Nat) :
    Memory.writeList m a (vs ++ ws) = Memory.writeList (Memory.writeList m a vs) (a + vs.length) ws := by
  induction vs generalizing m a with
  | nil => rfl
  | cons v vs ih =>
    simp only [List.cons_append, Memory.writeList, ih, List.length_cons]
    rw [show a + 1 + vs.length = a + (vs.length + 1) by omega]

theorem Memory.mem_writeList {vs : List α} {a : Nat} {c : Nat × α} (h : c ∈ Memory.writeList m a vs) :
    (a ≤ c.1 ∧ c.1 < a + vs.length) ∨ c ∈ m := by
  induction vs generalizing m a with
  | nil => exact .inr h
  | cons v vs ih =>
    simp only [List.length_cons]
    rcases ih _ h with h | h
    · exact .inl (by omega)
    · rcases Memory.mem_write m h with rfl | h
      · exact .inl (by simp)
      · exact .inr h

theorem Memory.writeList_wf (vs : List α) (a : Nat) (h : Memory.wf m) : Memory.wf (Memory.writeList m a vs) := by
  induction vs generalizing m a with
  | nil => exact h
  | cons v vs ih => exact ih _ _ (Memory.write_wf m a v h)

/-! ### Redrawing the first entries -/

theorem Memory.read_append (l : Memory α) (b : Nat) :
    Memory.read (l ++ m) b = (Memory.read l b).or (Memory.read m b) := by
  induction l with
  | nil => simp [Memory.read]
  | cons c l ih => obtain ⟨d, w⟩ := c; simp only [List.cons_append, Memory.read, ih]; split <;> simp

theorem Memory.read_map_range (n b : Nat) (f : Nat → α) :
    Memory.read ((List.range n).map (fun i => (i, f i))) b = if b < n then some (f b) else none := by
  induction n with
  | zero => simp [Memory.read]
  | succ n ih =>
    rw [List.range_succ, List.map_append, Memory.read_append, ih]
    by_cases h : b < n
    · rw [if_pos h, if_pos (by omega)]; rfl
    · by_cases hb : b = n
      · subst hb; simp [Memory.read]
      · rw [if_neg h, if_neg (by omega)]; simp [Memory.read, hb]

theorem Memory.read_filter_ge (n b : Nat) :
    Memory.read (m.filter (fun c => decide (n ≤ c.1))) b = if n ≤ b then Memory.read m b else none := by
  induction m with
  | nil => simp [Memory.read]
  | cons c m ih =>
    obtain ⟨d, w⟩ := c
    by_cases hd : n ≤ d
    · rw [List.filter_cons_of_pos (by simpa using hd)]
      simp only [Memory.read, ih]
      by_cases hb : b = d
      · subst hb; simp [hd]
      · simp [hb]
    · rw [List.filter_cons_of_neg (by simpa using hd), ih]
      by_cases hb : n ≤ b
      · rw [if_pos hb, if_pos hb, Memory.read, if_neg (by omega)]
      · rw [if_neg hb, if_neg hb]

theorem Memory.read_redraw (n b : Nat) (f : Nat → α) :
    Memory.read (Memory.redraw m n f) b = if b < n then some (f b) else Memory.read m b := by
  rw [Memory.redraw, Memory.read_append, Memory.read_map_range, Memory.read_filter_ge]
  by_cases h : b < n
  · simp [h]
  · rw [if_neg h, if_neg h, if_pos (by omega)]; rfl

theorem Memory.mem_redraw {n : Nat} {f : Nat → α} {c : Nat × α} (h : c ∈ Memory.redraw m n f) :
    c.1 < n ∨ c ∈ m := by
  rcases List.mem_append.1 h with h | h
  · obtain ⟨i, hi, rfl⟩ := List.mem_map.1 h; exact .inl (List.mem_range.1 hi)
  · exact .inr (List.mem_of_mem_filter h)

theorem Memory.redraw_wf (n : Nat) (f : Nat → α) (h : Memory.wf m) : Memory.wf (Memory.redraw m n f) := by
  refine List.pairwise_append.2 ⟨?_, h.filter _, fun c hc d hd => ?_⟩
  · exact List.pairwise_map.2 List.pairwise_lt_range
  · obtain ⟨i, hi, rfl⟩ := List.mem_map.1 hc
    have := List.mem_range.1 hi
    have := (List.mem_filter.1 hd).2
    simp only [decide_eq_true_eq] at this
    simp only; omega

end Memory

/-- No memory holds a cell after reset, so each is in canonical form. -/
theorem reset_memories_wf (p : Params) :
    Memory.wf (State.resetWith p).byteIn ∧ Memory.wf (State.resetWith p).pix ∧
      Memory.wf (State.resetWith p).byteOut :=
  ⟨.nil, .nil, .nil⟩

/-! ### Outcomes in sequence -/

@[simp] theorem andThen_next (s : State) (k : State → Result) : andThen (.next s) k = k s := rfl

@[simp] theorem andThen_fault (r : Fault) (k : State → Result) : andThen (.fault r) k = .fault r := rfl

@[simp] theorem andThen_refused (r : Refusal) (k : State → Result) : andThen (.refused r) k = .refused r := rfl

theorem andThen_eq_next {o : Result} {k : State → Result} {t : State} :
    andThen o k = .next t ↔ ∃ s, o = .next s ∧ k s = .next t := by
  cases o <;> simp

/-! ### The core's accesses -/

theorem fetchIn_eq_some {a n : Nat} {s : State} {bs : List Byte} :
    fetchIn a n s = some bs ↔
      a + n ≤ s.cfg.inCapacity.toNat ∧ bs = (List.range n).map (fun i => byteInAt s (a + i)) := by
  unfold fetchIn; split <;> simp_all [eq_comm]

theorem putPixels_eq_next {ps : List Pixel} {s t : State} :
    putPixels ps s = .next t ↔ s.cur + ps.length ≤ s.cfg.pixCapacity.toNat ∧
      t = { s with pix := Memory.writeList s.pix s.cur ps, cur := s.cur + ps.length } := by
  unfold putPixels; split <;> simp_all [eq_comm]

theorem emitBytes_eq_next {bs : List Byte} {s t : State} :
    emitBytes bs s = .next t ↔ s.opos + bs.length ≤ s.cfg.outCapacity.toNat ∧
      t = { s with byteOut := Memory.writeList s.byteOut s.opos bs, opos := s.opos + bs.length } := by
  unfold emitBytes; split <;> simp_all [eq_comm]

theorem loadPixel_eq_some {s : State} {p : Pixel} :
    loadPixel s = some p ↔ s.cur < s.cfg.pixCapacity.toNat ∧ p = pixAt s s.cur := by
  unfold loadPixel; split <;> simp_all [eq_comm]

/-- What a `PIX` entry reads as after a list of pixels is put. -/
theorem pixAt_put (s : State) (ps : List Pixel) (c i : Nat) :
    pixAt { s with pix := Memory.writeList s.pix s.cur ps, cur := c } i =
      if h : s.cur ≤ i ∧ i < s.cur + ps.length then ps[i - s.cur]'(by omega) else pixAt s i := by
  simp only [pixAt, Memory.read_writeList]
  split
  · rw [List.getElem?_eq_getElem (by omega)]; rfl
  · rfl

/-- What a byte of `BYTE_OUT` reads as after a list of bytes is emitted. -/
theorem byteOutAt_emit (s : State) (bs : List Byte) (c i : Nat) :
    byteOutAt { s with byteOut := Memory.writeList s.byteOut s.opos bs, opos := c } i =
      if h : s.opos ≤ i ∧ i < s.opos + bs.length then bs[i - s.opos]'(by omega) else byteOutAt s i := by
  simp only [byteOutAt, Memory.read_writeList]
  split
  · rw [List.getElem?_eq_getElem (by omega)]; rfl
  · rfl

/-- What `PIX` reads as after an error: entries below `min(N, PIX_CAPACITY)` are free values after a failure in
D_CHUNK or D_TAIL, every other entry is as before (R146). -/
theorem pixAt_raise (e : ErrorCode) (s : State) (i : Nat) :
    pixAt (raise e s) i =
      if recordsPosition s = true ∧ i < min s.latN s.cfg.pixCapacity.toNat then
        unpackPixel (Config.lostPix s.draws i)
      else pixAt s i := by
  simp only [pixAt, raise_pix, raise_epoch]
  by_cases h : recordsPosition s = true
  · simp only [h, if_true, lostPix, Memory.read_redraw, true_and]
    split <;> rfl
  · simp [h]

/-! ### The shared parts of the meanings -/

theorem whenIdle_of_idle {f : State → State} {s : State} (h : s.phase = .idle) : whenIdle f s = .next (f s) := by
  simp [whenIdle, busy, h]

theorem whenIdle_of_busy {f : State → State} {s : State} (h : s.phase ≠ .idle) : whenIdle f s = .next s := by
  simp [whenIdle, busy, h]

theorem inChunkPhase_of (s : State) (o : Result) (h : s.phase = .dChunk) : inChunkPhase s o = o := if_pos h

theorem inChunkPhase_eq_next {s t : State} {o : Result} :
    inChunkPhase s o = .next t ↔ s.phase = .dChunk ∧ o = .next t := by
  unfold inChunkPhase; split <;> simp_all

/-- RGB, RGBA, DIFF and LUMA in one equation. -/
theorem newPixelChunk_eq_next {p : Pixel} {k : Nat} {s t : State} :
    newPixelChunk p k s = .next t ↔ s.cur + 1 ≤ s.cfg.pixCapacity.toNat ∧
      t = endChunk k { s with px := p, cache := cachePut s.cache p, pix := Memory.write s.pix s.cur p,
                              cur := s.cur + 1 } := by
  simp only [newPixelChunk, andThen_eq_next, putPixels_eq_next, List.length_singleton]
  constructor
  · rintro ⟨u, ⟨hc, rfl⟩, h⟩
    injection h with h
    exact ⟨hc, h.symm⟩
  · rintro ⟨hc, rfl⟩
    exact ⟨_, ⟨hc, rfl⟩, rfl⟩

/-- The order of the header checks (R110): the first condition that holds names the error. -/
theorem headerError_eq_none {p : Params} {w h : Word} {ch c : Byte} :
    headerError p w h ch c = .none ↔
      badChannels ch = false ∧ badColorspace c = false ∧ badDimension p w = false ∧ badDimension p h = false := by
  unfold headerError
  cases badChannels ch <;> cases badColorspace c <;> cases badDimension p w <;> cases badDimension p h <;> simp

/-- The image checks of R162: none fails. -/
theorem imageError_eq_none {s : State} :
    imageError s = .none ↔
      badDimension s.cfg s.latW = false ∧ badDimension s.cfg s.latH = false ∧ badColorspace s.cs = false := by
  unfold imageError
  cases badDimension s.cfg s.latW <;> cases badDimension s.cfg s.latH <;> cases badColorspace s.cs <;> simp

/-- The capacity check of R163: the worst case fits. -/
theorem imageTooBig_eq_false {s : State} :
    imageTooBig s = false ↔
      s.latN ≤ s.cfg.pixCapacity.toNat ∧ 22 + 5 * s.latN ≤ s.cfg.outCapacity.toNat := by
  rw [imageTooBig, Bool.or_eq_false_iff, decide_eq_false_iff_not, decide_eq_false_iff_not]; omega

/-! ### Operand bounds -/

theorem pixelHash_val (p : Pixel) :
    (pixelHash p).val = (3 * p.r.toNat + 5 * p.g.toNat + 7 * p.b.toNat + 11 * p.a.toNat) % 64 := rfl

theorem cachePut_get (cache : Vector Pixel 64) (p : Pixel) (k : Fin 64) :
    (cachePut cache p)[k] = if pixelHash p = k then p else cache[k] := by
  simp only [cachePut, Fin.getElem_fin, Vector.getElem_set, Fin.ext_iff]

end Sys2Proof.Machine
end

