-- ==== Sys2Proof/Laws/HostPort.lean ====
section
/-! SUPPORT. What the host port's operations can do, and what one move of the machine is. -/

namespace Sys2Proof.Machine

theorem regAt_eq_none {off : Nat} : regAt off = none ↔ off % 4 ≠ 0 ∨ 0xFC < off := by
  unfold regAt; split <;> simp_all

theorem regAt_eq_some {off : Nat} {r : Reg} :
    regAt off = some r ↔ off % 4 = 0 ∧ off ≤ 0xFC ∧ r = regNamed off := by
  unfold regAt; split
  · simp only [reduceCtorEq, false_iff]; omega
  · simp only [Option.some.injEq, @eq_comm _ r]
    exact ⟨fun h => ⟨by omega, by omega, h⟩, fun h => h.2.2⟩

theorem ite_ne {α : Type} {c : Prop} [Decidable c] {a b x : α} (ha : a ≠ x) (hb : b ≠ x) :
    (if c then a else b) ≠ x := by split <;> assumption

theorem regNamed_eq_cmd {off : Nat} : regNamed off = .cmd ↔ off = 0x08 := by
  refine ⟨fun h => ?_, fun h => h ▸ rfl⟩
  by_contra hne
  refine absurd h ?_
  unfold regNamed
  rw [if_neg hne]
  iterate 18 refine ite_ne nofun ?_
  nofun

theorem hostMemory_eq_next {a : Nat} {cap : Word} {s t u : State} :
    hostMemory a cap s t = .next u ↔ s.phase = .idle ∧ a < cap.toNat ∧ u = t := by
  unfold hostMemory busy
  by_cases h : s.phase = .idle
  · by_cases ha : a < cap.toNat <;> simp [h, ha, eq_comm]
  · simp [h]

theorem clampLen_toNat (p : Params) (v : Word) :
    (clampLen p v).toNat = min v.toNat p.inCapacity.toNat := by
  unfold clampLen; split <;> omega

/-! ### One move -/

theorem step_core_of_nil {s : State} (h : s.turns = []) : step s = coreStep s := by simp [step, h]

theorem step_core {s : State} {ts : List Turn} (h : s.turns = .core :: ts) :
    step s = coreStep { s with turns := ts } := by simp [step, h]

theorem step_host {s : State} {act : HostAction} {ts : List Turn} (h : s.turns = .host act :: ts) :
    step s = hostStep act { s with turns := ts } := by simp [step, h]

theorem step_reset {s : State} {ts : List Turn} (h : s.turns = .reset :: ts) :
    step s = .next (resetStep { s with turns := ts }) := by simp [step, h]

/-! ### Several moves -/

@[simp] theorem runs_zero (s : State) : runs 0 s = .next s := rfl

theorem runs_succ (k : Nat) (s : State) : runs (k + 1) s = andThen (step s) (runs k) := rfl

theorem core_run_next {M : Host.Core} {k : Nat} {s t : M.State} (h : M.step s = .next t) :
    M.run (k + 1) s = M.run k t := by rw [Host.Core.run, h]

theorem core_run_fault {M : Host.Core} {k : Nat} {s : M.State} {r : M.Fault} (h : M.step s = .fault r) :
    M.run (k + 1) s = .fault r := by rw [Host.Core.run, h]

theorem core_run_refused {M : Host.Core} {k : Nat} {s : M.State} {r : M.Refusal} (h : M.step s = .refused r) :
    M.run (k + 1) s = .refused r := by rw [Host.Core.run, h]

/-- `runs` is the host's own run of the core. -/
theorem runs_eq_core_run (k : Nat) (s : State) : runs k s = Host.Core.run Sys2Proof.core k s := by
  induction k generalizing s with
  | zero => rfl
  | succ k ih =>
    cases h : step s with
    | next t => rw [runs_succ, h, andThen_next, ih]; exact (core_run_next (M := Sys2Proof.core) h).symm
    | fault r => rw [runs_succ, h]; exact (core_run_fault (M := Sys2Proof.core) h).symm
    | refused r => rw [runs_succ, h]; exact (core_run_refused (M := Sys2Proof.core) h).symm

theorem runs_add (j k : Nat) (s : State) : runs (j + k) s = andThen (runs j s) (runs k) := by
  induction j generalizing s with
  | zero => simp
  | succ j ih =>
    rw [show j + 1 + k = (j + k) + 1 by omega, runs_succ, runs_succ]
    cases step s <;> simp [ih]

end Sys2Proof.Machine
end

