-- ==== Sys2Proof/Laws/PerInstr.lean ====
section
/-! SUPPORT. Laws stated for every instruction, one lemma for each constructor. -/

namespace Sys2Proof.Laws

/-- An instruction takes `Instr.size` bytes in the stream (R81, R92, R93). -/
def StreamSize.Statement (i : Instr) : Prop := (streamBytes i).length = i.size

theorem StreamSize.rgb (r g b : Byte) : StreamSize.Statement (.rgb r g b) := rfl
theorem StreamSize.rgba (r g b a : Byte) : StreamSize.Statement (.rgba r g b a) := rfl
theorem StreamSize.index (k : Fin 64) : StreamSize.Statement (.index k) := rfl
theorem StreamSize.diff (dr dg db : Int) : StreamSize.Statement (.diff dr dg db) := rfl
theorem StreamSize.luma (dg drDg dbDg : Int) : StreamSize.Statement (.luma dg drDg dbDg) := rfl
theorem StreamSize.run (n : Nat) : StreamSize.Statement (.run n) := rfl
theorem StreamSize.endMarker : StreamSize.Statement .endMarker := rfl
theorem StreamSize.header (w h : Word) (ch cs : Byte) : StreamSize.Statement (.header w h ch cs) := rfl
theorem StreamSize.cmdParse : StreamSize.Statement .cmdParse := rfl
theorem StreamSize.cmdDecode : StreamSize.Statement .cmdDecode := rfl
theorem StreamSize.cmdEncode : StreamSize.Statement .cmdEncode := rfl
theorem StreamSize.cmdIllegal (v : Word) : StreamSize.Statement (.cmdIllegal v) := rfl

end Sys2Proof.Laws
end

