-- ==== Sys2Proof/Laws/Step.lean ====
section
/-! SUPPORT. Everything a chunk, a header, an encoder step and a core step can do, said once. -/

namespace Sys2Proof.Machine

/-! ### Chunks -/

theorem isChunk_of_makesPixel {i : Instr} (h : makesPixel i = true) : i.isChunk = true := by
  cases i <;> simp_all [makesPixel, Instr.isChunk]

/-- A chunk that answers a next state: a new pixel cached and put; a cached pixel put; a run put; or a run that
overflows. -/
inductive ChunkMove (i : Instr) (s : State) : State → Prop where
  | made (hi : makesPixel i = true) (hc : s.cur + 1 ≤ s.cfg.pixCapacity.toNat) :
      ChunkMove i s (endChunk i.size { s with
        px := madePixel s.px i, cache := cachePut s.cache (madePixel s.px i),
        pix := Memory.write s.pix s.cur (madePixel s.px i), cur := s.cur + 1 })
  | indexed (k : Fin 64) (hi : i = .index k) (hc : s.cur + 1 ≤ s.cfg.pixCapacity.toNat) :
      ChunkMove i s (endChunk 1 { s with
        px := s.cache[k], pix := Memory.write s.pix s.cur s.cache[k], cur := s.cur + 1 })
  | ran (n : Nat) (hi : i = .run n) (hn : s.cur + n ≤ s.latN) (hc : s.cur + n ≤ s.cfg.pixCapacity.toNat) :
      ChunkMove i s (endChunk 1 { s with
        pix := Memory.writeList s.pix s.cur (List.replicate n s.px), cur := s.cur + n })
  | overflowed (n : Nat) (hi : i = .run n) (hn : s.latN < s.cur + n) : ChunkMove i s (raise .runOverflow s)

theorem exec_chunk_eq_next {i : Instr} {s t : State} (hi : i.isChunk = true) :
    exec i s = .next t ↔ s.phase = .dChunk ∧ ChunkMove i s t := by
  have made : ∀ (o : Result), exec i s = inChunkPhase s o → makesPixel i = true →
      o = newPixelChunk (madePixel s.px i) i.size s → (exec i s = .next t ↔ s.phase = .dChunk ∧ ChunkMove i s t) := by
    intro o h hm ho
    rw [h, inChunkPhase_eq_next, ho, newPixelChunk_eq_next]
    refine and_congr_right fun _ => ⟨fun ⟨hc, e⟩ => e ▸ .made hm hc, fun h => ?_⟩
    cases h with
    | made _ hc => exact ⟨hc, rfl⟩
    | indexed k hi _ => rw [hi] at hm; cases hm
    | ran n hi _ _ => rw [hi] at hm; cases hm
    | overflowed n hi _ => rw [hi] at hm; cases hm
  cases i with
  | rgb r g b => exact made _ rfl rfl rfl
  | rgba r g b a => exact made _ rfl rfl rfl
  | diff dr dg db => exact made _ rfl rfl rfl
  | luma dg drDg dbDg => exact made _ rfl rfl rfl
  | index k =>
    simp only [exec, execIndex, inChunkPhase_eq_next, andThen_eq_next, putPixels_eq_next, List.length_singleton]
    refine and_congr_right fun _ => ⟨?_, fun h => ?_⟩
    · rintro ⟨u, ⟨hc, rfl⟩, h⟩
      injection h with h
      exact h ▸ .indexed k rfl hc
    · cases h with
      | made hm _ => cases hm
      | indexed k' hi hc => cases hi; exact ⟨_, ⟨hc, rfl⟩, rfl⟩
      | ran n hi _ _ => cases hi
      | overflowed n hi _ => cases hi
  | run n =>
    simp only [exec, execRun, inChunkPhase_eq_next]
    refine and_congr_right fun _ => ?_
    by_cases hn : s.latN < s.cur + n
    · rw [if_pos hn]
      refine ⟨fun h => ?_, fun h => ?_⟩
      · injection h with h; exact h ▸ .overflowed n rfl hn
      · cases h with
        | made hm _ => cases hm
        | indexed k' hi hc => cases hi
        | ran m hi hm _ => cases hi; omega
        | overflowed m hi _ => rfl
    · rw [if_neg hn, andThen_eq_next]
      refine ⟨?_, fun h => ?_⟩
      · rintro ⟨u, hu, h⟩
        obtain ⟨hc, rfl⟩ := putPixels_eq_next.1 hu
        injection h with h
        simp only [List.length_replicate] at hc h
        exact h ▸ .ran n rfl (by omega) hc
      · cases h with
        | made hm _ => cases hm
        | indexed k' hi hc => cases hi
        | ran m hi hm hc =>
          cases hi
          exact ⟨_, putPixels_eq_next.2 ⟨by simpa using hc, rfl⟩, by simp⟩
        | overflowed m hi hm => cases hi; omega
  | endMarker => cases hi
  | header w h ch c => cases hi
  | cmdParse => cases hi
  | cmdDecode => cases hi
  | cmdEncode => cases hi
  | cmdIllegal v => cases hi

/-- What a tag position decodes to: the end marker or a chunk. -/
theorem decodeChunk_kind {bs rest : List Byte} {i : Instr} (h : decodeChunk bs = .ok (i, rest)) :
    i = .endMarker ∨ i.isChunk = true := by
  unfold decodeChunk at h
  repeat' split at h
  all_goals first
    | (injection h with h; injection h with h _; subst h; first | exact .inl rfl | exact .inr rfl)
    | cases h

/-! ### Emitting -/

theorem emitBytes_of {bs : List Byte} {s : State} (h : s.opos + bs.length ≤ s.cfg.outCapacity.toNat) :
    emitBytes bs s =
      .next { s with byteOut := Memory.writeList s.byteOut s.opos bs, opos := s.opos + bs.length } :=
  emitBytes_eq_next.2 ⟨h, rfl⟩

theorem loadPixel_of {s : State} (h : s.cur < s.cfg.pixCapacity.toNat) : loadPixel s = some (pixAt s s.cur) :=
  loadPixel_eq_some.2 ⟨h, rfl⟩

theorem fetchIn_of {a n : Nat} {s : State} (h : a + n ≤ s.cfg.inCapacity.toNat) :
    fetchIn a n s = some ((List.range n).map (fun i => byteInAt s (a + i))) :=
  fetchIn_eq_some.2 ⟨h, rfl⟩

/-! ### The core's step -/

/-- Everything a header step can do. -/
inductive HeaderMove (s : State) : State → Prop where
  | failed (e : ErrorCode) (he : e ≠ .none) : HeaderMove s (raise e s)
  | parsed (w h : Word) (ch c : Byte) (hp : s.phase = .pHdr) (hv : headerError s.cfg w h ch c = .none) :
      HeaderMove s (finish (setHeaderRegs w h ch c s))
  | tooBig (w h : Word) (ch c : Byte) (hp : s.phase = .dHdr) (hv : headerError s.cfg w h ch c = .none)
      (hN : s.cfg.pixCapacity.toNat < w.toNat * h.toNat) :
      HeaderMove s (raise .outOfMemory (setPixelTotal (setLatches w h (ch == 4) c (setHeaderRegs w h ch c s))))
  | started (w h : Word) (ch c : Byte) (hp : s.phase = .dHdr) (hv : headerError s.cfg w h ch c = .none)
      (hN : w.toNat * h.toNat ≤ s.cfg.pixCapacity.toNat) :
      HeaderMove s { startPass (setPixelTotal (setLatches w h (ch == 4) c (setHeaderRegs w h ch c s))) with
        ipos := 14, cur := 0, phase := .dChunk }

theorem execHeader_move {s t : State} {w h : Word} {ch c : Byte} (hx : execHeader w h ch c s = .next t) :
    HeaderMove s t := by
  unfold execHeader at hx
  split at hx <;> try cases hx
  · unfold parseOnly at hx
    split at hx <;> injection hx with hx <;> subst hx
    · exact .parsed w h ch c ‹_› ‹_›
    · exact .failed _ (by assumption)
  · unfold startDecode at hx
    split at hx
    · simp only at hx
      split at hx <;> injection hx with hx <;> subst hx
      · exact .tooBig w h ch c ‹_› ‹_› ‹_›
      · exact .started w h ch c ‹_› ‹_› (Nat.le_of_not_lt ‹_›)
    · injection hx with hx; subst hx
      exact .failed _ (by assumption)

theorem stepHeader_move {s t : State} (hx : stepHeader s = .next t) :
    HeaderMove s t ∧ (t.phase = .dChunk → 14 ≤ s.len.toNat) := by
  unfold stepHeader at hx
  split at hx
  · injection hx with hx; subst hx
    exact ⟨.failed _ nofun, nofun⟩
  · refine ⟨?_, fun _ => by omega⟩
    split at hx
    · cases hx
    · split at hx
      · rename_i i rest hd
        change decodeHeader _ = _ at hd
        unfold decodeHeader at hd
        split at hd
        · split at hd
          · injection hd with hd; injection hd with hd _; subst hd
            exact execHeader_move hx
          · cases hd
        · cases hd
      · injection hx with hx; subst hx; exact .failed _ nofun
      · injection hx with hx; subst hx; exact .failed _ nofun

/-- The bytes an E_PIX step emits for a pixel that differs from `px`: the pending run's, then its chunk's. -/
def pixelBytes (s : State) (p : Pixel) : List Byte :=
  (if s.run = 0 then [] else streamBytes (.run s.run.toNat)) ++ streamBytes (chooseChunk s.cache s.px p)

/-- Everything an E_PIX step can do. -/
inductive PixelMove (s : State) : State → Prop where
  | counted (hp : encoderPixel s.alpha (pixAt s s.cur) = s.px) (hr : s.run + 1 ≠ 62) (hl : s.cur + 1 ≠ s.latN) :
      PixelMove s (advancePixel (setRun (s.run + 1) s))
  | runEmitted (hp : encoderPixel s.alpha (pixAt s s.cur) = s.px) (hr : s.run + 1 = 62 ∨ s.cur + 1 = s.latN)
      (ho : s.opos + 1 ≤ s.cfg.outCapacity.toNat) :
      PixelMove s (advancePixel { s with
        byteOut := Memory.write s.byteOut s.opos (0xC0 ||| BitVec.ofNat 8 ((s.run + 1).toNat - 1)),
        opos := s.opos + 1, run := 0 })
  | emitted (p : Pixel) (hp : p = encoderPixel s.alpha (pixAt s s.cur)) (hne : p ≠ s.px)
      (ho : s.opos + (pixelBytes s p).length ≤ s.cfg.outCapacity.toNat) :
      PixelMove s (advancePixel { s with
        byteOut := Memory.writeList s.byteOut s.opos (pixelBytes s p),
        opos := s.opos + (pixelBytes s p).length, run := 0, cache := cachePut s.cache p, px := p })

theorem flushRun_eq_next {s t : State} :
    flushRun s = .next t ↔
      s.opos + (if s.run = 0 then [] else streamBytes (.run s.run.toNat)).length ≤ s.cfg.outCapacity.toNat ∧
        t = { s with
          byteOut := Memory.writeList s.byteOut s.opos (if s.run = 0 then [] else streamBytes (.run s.run.toNat)),
          opos := s.opos + (if s.run = 0 then [] else streamBytes (.run s.run.toNat)).length, run := 0 } ∨
      s.run = 0 ∧ t = s := by
  unfold flushRun
  by_cases hr : s.run = 0
  · rw [if_pos hr, if_pos hr]
    constructor
    · intro h; injection h with h; exact .inr ⟨hr, h.symm⟩
    · rintro (⟨-, rfl⟩ | ⟨-, rfl⟩)
      · congr 1; rw [← hr]; rfl
      · rfl
  · rw [if_neg hr, if_neg hr, andThen_eq_next]
    constructor
    · rintro ⟨u, hu, h⟩
      obtain ⟨ho, rfl⟩ := emitBytes_eq_next.1 hu
      injection h with h
      exact .inl ⟨ho, h.symm⟩
    · rintro (⟨ho, rfl⟩ | ⟨h, -⟩)
      · exact ⟨_, emitBytes_eq_next.2 ⟨ho, rfl⟩, rfl⟩
      · exact absurd h hr

theorem stepEPix_move {s t : State} (hx : stepEPix s = .next t) :
    s.cur < s.cfg.pixCapacity.toNat ∧ PixelMove s t := by
  unfold stepEPix at hx
  split at hx
  · cases hx
  · rename_i q hq
    obtain ⟨hc, rfl⟩ := loadPixel_eq_some.1 hq
    refine ⟨hc, ?_⟩
    simp only [andThen_eq_next] at hx
    obtain ⟨u, hu, hx⟩ := hx
    injection hx with hx; subst hx
    split at hu
    · rename_i hp
      unfold extendRun at hu
      split at hu
      · rename_i hr
        obtain ⟨v, hv, hu⟩ := andThen_eq_next.1 hu
        obtain ⟨ho, rfl⟩ := emitBytes_eq_next.1 hv
        injection hu with hu; subst hu
        exact .runEmitted hp (by simpa using hr) ho
      · rename_i hr
        injection hu with hu; subst hu
        simp only [decide_eq_true_eq, not_or] at hr
        exact .counted hp hr.1 hr.2
    · rename_i hp
      obtain ⟨v, hv, hu⟩ := andThen_eq_next.1 hu
      obtain ⟨w, hw, hu⟩ := andThen_eq_next.1 hu
      obtain ⟨ho, rfl⟩ := emitBytes_eq_next.1 hw
      injection hu with hu; subst hu
      rcases flushRun_eq_next.1 hv with ⟨-, rfl⟩ | ⟨hr, rfl⟩
      · have := PixelMove.emitted (s := s) _ rfl hp (by
          simp only [pixelBytes, List.length_append]; simp only at ho; omega)
        simpa only [pixelBytes, Memory.writeList_append, List.length_append, Nat.add_assoc] using this
      · have := PixelMove.emitted (s := v) _ rfl hp (by simpa [pixelBytes, hr] using ho)
        simpa [pixelBytes, hr] using this

/-- Everything a core step can do. -/
inductive CoreMove (s : State) : State → Prop where
  | held (hp : s.phase = .idle) : CoreMove s s
  | header (t : State) (hp : s.phase = .pHdr ∨ s.phase = .dHdr) (hm : HeaderMove s t)
      (hl : t.phase = .dChunk → 14 ≤ s.len.toNat) : CoreMove s t
  | chunkFailed (e : ErrorCode) (hp : s.phase = .dChunk) (he : e ≠ .none) : CoreMove s (raise e s)
  | chunk (i : Instr) (bs rest : List Byte) (t : State) (hp : s.phase = .dChunk)
      (hl : 8 ≤ s.len.toNat - s.ipos) (hf : fetchIn s.ipos 8 s = some bs) (hd : decodeChunk bs = .ok (i, rest))
      (hi : i.isChunk = true) (hm : ChunkMove i s t) : CoreMove s t
  | tailFailed (e : ErrorCode) (hp : s.phase = .dTail) (he : e ≠ .none) : CoreMove s (raise e s)
  | decoded (hp : s.phase = .dTail) (hl : s.len.toNat - s.ipos = 8) :
      CoreMove s (finish { s with pixCount := BitVec.ofNat 32 s.latN })
  | imageFailed (e : ErrorCode) (hp : s.phase = .eHdr) (he : e ≠ .none) :
      CoreMove s (raise e (latchImage s))
  | imageOverCapacity (hp : s.phase = .eHdr) (hv : imageError (latchImage s) = .none)
      (hb : imageTooBig (setPixelTotal (latchImage s)) = true) :
      CoreMove s (raise .outOfMemory (setPixelTotal (latchImage s)))
  | encodeStarted (hp : s.phase = .eHdr) (hv : imageError (latchImage s) = .none)
      (hb : imageTooBig (setPixelTotal (latchImage s)) = false)
      (ho : s.opos + 14 ≤ s.cfg.outCapacity.toNat) :
      CoreMove s { s with
        latW := s.imgWidth, latH := s.imgHeight, alpha := imgHasAlpha s, cs := imgColorspace s
        latN := s.imgWidth.toNat * s.imgHeight.toNat
        byteOut := Memory.writeList s.byteOut s.opos
          (streamBytes (.header s.imgWidth s.imgHeight (channelByte (imgHasAlpha s)) (imgColorspace s)))
        opos := s.opos + 14, px := opaqueBlack, cache := Vector.replicate 64 zeroPixel
        run := 0, cur := 0, phase := .ePix }
  | pixel (t : State) (hp : s.phase = .ePix) (hc : s.cur < s.cfg.pixCapacity.toNat) (hm : PixelMove s t) :
      CoreMove s t
  | encoded (hp : s.phase = .eEnd) (ho : s.opos + 8 ≤ s.cfg.outCapacity.toNat) :
      CoreMove s (finish { s with
        byteOut := Memory.writeList s.byteOut s.opos endMarkerBytes, opos := s.opos + 8
        outLen := BitVec.ofNat 32 (s.opos + 8) })

theorem coreStep_move {s t : State} (hx : coreStep s = .next t) : CoreMove s t := by
  unfold coreStep at hx
  split at hx <;> rename_i hp
  · injection hx with hx; subst hx; exact .held hp
  · exact .header t (.inl hp) (stepHeader_move hx).1 (stepHeader_move hx).2
  · exact .header t (.inr hp) (stepHeader_move hx).1 (stepHeader_move hx).2
  · unfold stepChunk at hx
    split at hx
    · injection hx with hx; subst hx; exact .chunkFailed _ hp nofun
    · split at hx
      · cases hx
      · rename_i bs hf
        split at hx
        · rename_i i rest hd
          rcases decodeChunk_kind hd with rfl | hi
          · simp only [exec, execEndMarker, hp] at hx
            injection hx with hx; subst hx; exact .chunkFailed _ hp nofun
          · exact .chunk i bs rest t hp (by omega) hf hd hi ((exec_chunk_eq_next hi).1 hx).2
        · injection hx with hx; subst hx; exact .chunkFailed _ hp nofun
  · unfold stepTail at hx
    split at hx
    · injection hx with hx; subst hx; exact .tailFailed _ hp nofun
    · split at hx
      · cases hx
      · split at hx
        · simp only [exec, execEndMarker, hp] at hx
          split at hx <;> injection hx with hx <;> subst hx
          · exact .tailFailed _ hp nofun
          · exact .decoded hp (by omega)
        · injection hx with hx; subst hx; exact .tailFailed _ hp nofun
  · unfold stepEHdr at hx
    split at hx
    · unfold startEncode at hx
      simp only at hx
      split at hx <;> rename_i hb
      · injection hx with hx; subst hx; exact .imageOverCapacity hp ‹_› hb
      · obtain ⟨u, hu, hx⟩ := andThen_eq_next.1 hx
        obtain ⟨ho, rfl⟩ := emitBytes_eq_next.1 hu
        injection hx with hx; subst hx
        exact .encodeStarted hp ‹_› (by simpa using hb) ho
    · injection hx with hx; subst hx; exact .imageFailed _ hp (by assumption)
  · exact .pixel t hp (stepEPix_move hx).1 (stepEPix_move hx).2
  · obtain ⟨u, hu, hx⟩ := andThen_eq_next.1 hx
    obtain ⟨ho, rfl⟩ := emitBytes_eq_next.1 hu
    injection hx with hx; subst hx
    exact .encoded hp ho

end Sys2Proof.Machine
end

