-- ==== Sys2Proof/Laws/Turns.lean ====
section
/-! SUPPORT. A command under any interleaving with the host's register accesses (R190, R203): the core's step does
not read what they change, so the run is the run of the core alone. -/

namespace Sys2Proof.Machine

/-- What register accesses can change while a command runs: `CTRL`, `DONE`, the host's last read, the turns to come. -/
def hostSide (c : Word) (d : Bool) (v : Word) (ts : List Turn) (s : State) : State :=
  { s with ctrl := c, done := d, hostData := v, turns := ts }

/-- A step's result, its next state changed by `f`. -/
def mapNext (f : State → State) : Result → Result
  | .next s => .next (f s)
  | .fault r => .fault r
  | .refused r => .refused r

@[simp] theorem mapNext_next (f : State → State) (s : State) : mapNext f (.next s) = .next (f s) := rfl
@[simp] theorem mapNext_fault (f : State → State) (r : Fault) : mapNext f (.fault r) = .fault r := rfl
@[simp] theorem mapNext_refused (f : State → State) (r : Refusal) : mapNext f (.refused r) = .refused r := rfl

theorem mapNext_eq_next {f : State → State} {o : Result} {t : State} :
    mapNext f o = .next t ↔ ∃ u, o = .next u ∧ t = f u := by
  cases o <;> simp [eq_comm]

theorem pixelMove_busy {s t : State} (hp : s.phase = .ePix) (hm : PixelMove s t) : t.phase ≠ .idle := by
  cases hm <;> (simp only [advancePixel_phase, setRun_phase, hp]; split <;> nofun)

section
variable (c : Word) (d : Bool) (v : Word) (ts : List Turn)

/-- The state after a core step, with the host's side put over it: `DONE` is the core's once the command is over. -/
def overCore (t : State) : State := hostSide c (if t.phase = .idle then t.done else d) v ts t

theorem emitBytes_hostSide (bs : List Byte) (s : State) :
    emitBytes bs (hostSide c d v ts s) = mapNext (hostSide c d v ts) (emitBytes bs s) := by
  by_cases h : s.opos + bs.length ≤ s.cfg.outCapacity.toNat
  · rw [emitBytes_of h, emitBytes_of (s := hostSide c d v ts s) h]; rfl
  · rw [emitBytes, emitBytes, if_neg h, if_neg (show ¬ (hostSide c d v ts s).opos + bs.length ≤ (hostSide c d v ts s).cfg.outCapacity.toNat from h)]; rfl

theorem putPixels_hostSide (ps : List Pixel) (s : State) :
    putPixels ps (hostSide c d v ts s) = mapNext (hostSide c d v ts) (putPixels ps s) := by
  by_cases h : s.cur + ps.length ≤ s.cfg.pixCapacity.toNat
  · rw [putPixels_eq_next.2 ⟨h, rfl⟩, putPixels_eq_next (s := hostSide c d v ts s) |>.2 ⟨h, rfl⟩]; rfl
  · rw [putPixels, putPixels, if_neg h, if_neg (show ¬ (hostSide c d v ts s).cur + ps.length ≤ (hostSide c d v ts s).cfg.pixCapacity.toNat from h)]; rfl

theorem andThen_mapNext (f : State → State) (o : Result) (k : State → Result) :
    andThen (mapNext f o) k = andThen o (fun s => k (f s)) := by cases o <;> rfl

theorem mapNext_andThen (f : State → State) (o : Result) (k : State → Result) :
    mapNext f (andThen o k) = andThen o (fun s => mapNext f (k s)) := by cases o <;> rfl

theorem overCore_of_busy {t : State} (h : t.phase ≠ .idle) : overCore c d v ts t = hostSide c d v ts t := by
  rw [overCore, if_neg h]

theorem raise_hostSide (e : ErrorCode) (s : State) :
    raise e (hostSide c d v ts s) = overCore c d v ts (raise e s) := rfl

theorem finish_hostSide (s : State) : finish (hostSide c d v ts s) = overCore c d v ts (finish s) := rfl

theorem chunk_hostSide {i : Instr} {s : State} (hi : i.isChunk = true) (hp : s.phase = .dChunk) :
    exec i (hostSide c d v ts s) = mapNext (overCore c d v ts) (exec i s) := by
  have ends : ∀ (k : Nat) (t : State), t.phase = .dChunk →
      endChunk k (hostSide c d v ts t) = overCore c d v ts (endChunk k t) := by
    intro k t h
    rw [overCore_of_busy]
    · rfl
    · rw [endChunk_phase, h]; split <;> nofun
  have puts : ∀ (ps : List Pixel) (k : Nat) (t : State), t.phase = .dChunk →
      andThen (putPixels ps (hostSide c d v ts t)) (fun u => .next (endChunk k u)) =
        mapNext (overCore c d v ts) (andThen (putPixels ps t) (fun u => .next (endChunk k u))) := by
    intro ps k t h
    rw [putPixels_hostSide, andThen_mapNext, mapNext_andThen]
    cases hu : putPixels ps t with
    | next u => obtain ⟨-, rfl⟩ := putPixels_eq_next.1 hu; exact congrArg Host.Outcome.next (ends k _ h)
    | fault r => rfl
    | refused r => rfl
  have hq : (hostSide c d v ts s).phase = .dChunk := hp
  cases i with
  | rgb r g b => simp only [exec, execRgb, inChunkPhase_of _ _ hp, inChunkPhase_of _ _ hq]; exact puts _ _ { s with px := _, cache := _ } hp
  | rgba r g b a => simp only [exec, execRgba, inChunkPhase_of _ _ hp, inChunkPhase_of _ _ hq]; exact puts _ _ { s with px := _, cache := _ } hp
  | diff r g b => simp only [exec, execDiff, inChunkPhase_of _ _ hp, inChunkPhase_of _ _ hq]; exact puts _ _ { s with px := _, cache := _ } hp
  | luma r g b => simp only [exec, execLuma, inChunkPhase_of _ _ hp, inChunkPhase_of _ _ hq]; exact puts _ _ { s with px := _, cache := _ } hp
  | index k => simp only [exec, execIndex, inChunkPhase_of _ _ hp, inChunkPhase_of _ _ hq]; exact puts _ _ { s with px := _ } hp
  | run n =>
    simp only [exec, execRun, inChunkPhase_of _ _ hp, inChunkPhase_of _ _ hq]
    by_cases hn : s.latN < s.cur + n
    · rw [if_pos hn, if_pos (show (hostSide c d v ts s).latN < (hostSide c d v ts s).cur + n from hn)]; rfl
    · rw [if_neg hn, if_neg (show ¬ (hostSide c d v ts s).latN < (hostSide c d v ts s).cur + n from hn)]
      exact puts _ _ s hp
  | endMarker => cases hi
  | header w h ch c => cases hi
  | cmdParse => cases hi
  | cmdDecode => cases hi
  | cmdEncode => cases hi
  | cmdIllegal v => cases hi

theorem endMarker_hostSide {s : State} (hp : s.phase = .dChunk ∨ s.phase = .dTail) :
    exec .endMarker (hostSide c d v ts s) = mapNext (overCore c d v ts) (exec .endMarker s) := by
  rcases hp with hp | hp
  · simp only [exec, execEndMarker, hp, show (hostSide c d v ts s).phase = .dChunk from hp]; rfl
  · simp only [exec, execEndMarker, hp, show (hostSide c d v ts s).phase = .dTail from hp]
    by_cases h : 8 < s.len.toNat - s.ipos
    · rw [if_pos h, if_pos (show 8 < (hostSide c d v ts s).len.toNat - (hostSide c d v ts s).ipos from h)]; rfl
    · rw [if_neg h, if_neg (show ¬ 8 < (hostSide c d v ts s).len.toNat - (hostSide c d v ts s).ipos from h)]; rfl

theorem header_hostSide {w h : Word} {ch c' : Byte} {s : State} (hp : s.phase = .pHdr ∨ s.phase = .dHdr) :
    execHeader w h ch c' (hostSide c d v ts s) = mapNext (overCore c d v ts) (execHeader w h ch c' s) := by
  rcases hp with hp | hp
  · simp only [execHeader, hp, show (hostSide c d v ts s).phase = .pHdr from hp, parseOnly]
    simp only [show (hostSide c d v ts s).cfg = s.cfg from rfl]
    split <;> rfl
  · simp only [execHeader, hp, show (hostSide c d v ts s).phase = .dHdr from hp, startDecode]
    simp only [show (hostSide c d v ts s).cfg = s.cfg from rfl]
    split
    · simp only [setPixelTotal_cfg, setPixelTotal_latN, setLatches_cfg, setLatches_latW, setLatches_latH, setHeaderRegs_cfg, show (hostSide c d v ts s).cfg = s.cfg from rfl]
      by_cases hN : s.cfg.pixCapacity.toNat < w.toNat * h.toNat
      · simp only [hN, if_true]; rfl
      · simp only [hN, if_false]; rfl
    · rfl

theorem stepHeader_hostSide {s : State} (hp : s.phase = .pHdr ∨ s.phase = .dHdr) :
    stepHeader (hostSide c d v ts s) = mapNext (overCore c d v ts) (stepHeader s) := by
  unfold stepHeader
  rw [show (hostSide c d v ts s).len = s.len from rfl, show fetchIn 0 14 (hostSide c d v ts s) = fetchIn 0 14 s from rfl]
  split
  · rfl
  · split
    · rfl
    · split
      · rename_i i rest hd
        change decodeHeader _ = _ at hd
        unfold decodeHeader at hd
        split at hd
        · split at hd
          · injection hd with hd; injection hd with hd _; subst hd
            exact header_hostSide c d v ts hp
          · cases hd
        · cases hd
      · rfl
      · rfl

theorem stepChunk_hostSide {s : State} (hp : s.phase = .dChunk) :
    stepChunk (hostSide c d v ts s) = mapNext (overCore c d v ts) (stepChunk s) := by
  unfold stepChunk
  rw [show (hostSide c d v ts s).len = s.len from rfl, show (hostSide c d v ts s).ipos = s.ipos from rfl,
    show fetchIn s.ipos 8 (hostSide c d v ts s) = fetchIn s.ipos 8 s from rfl]
  split
  · rfl
  · split
    · rfl
    · split
      · rename_i i rest hd
        rcases decodeChunk_kind hd with rfl | hi
        · exact endMarker_hostSide c d v ts (.inl hp)
        · exact chunk_hostSide c d v ts hi hp
      · rfl

theorem stepTail_hostSide {s : State} (hp : s.phase = .dTail) :
    stepTail (hostSide c d v ts s) = mapNext (overCore c d v ts) (stepTail s) := by
  unfold stepTail
  rw [show (hostSide c d v ts s).len = s.len from rfl, show (hostSide c d v ts s).ipos = s.ipos from rfl,
    show fetchIn s.ipos 8 (hostSide c d v ts s) = fetchIn s.ipos 8 s from rfl]
  split
  · rfl
  · split
    · rfl
    · split
      · exact endMarker_hostSide c d v ts (.inr hp)
      · rfl

theorem stepEHdr_hostSide (s : State) :
    stepEHdr (hostSide c d v ts s) = mapNext (overCore c d v ts) (stepEHdr s) := by
  have start : ∀ u : State, startEncode (hostSide c d v ts u) = mapNext (overCore c d v ts) (startEncode u) := by
    intro u
    unfold startEncode
    simp only [show setPixelTotal (hostSide c d v ts u) = hostSide c d v ts (setPixelTotal u) from rfl]
    rw [show imageTooBig (hostSide c d v ts (setPixelTotal u)) = imageTooBig (setPixelTotal u) from rfl]
    split
    · rfl
    · simp only [emitInstr, emitBytes_hostSide, andThen_mapNext, mapNext_andThen]; rfl
  unfold stepEHdr
  rw [show latchImage (hostSide c d v ts s) = hostSide c d v ts (latchImage s) from rfl,
    show imageError (hostSide c d v ts (latchImage s)) = imageError (latchImage s) from rfl]
  split
  · exact start _
  · rfl

theorem stepEPix_hostSide {s : State} (hp : s.phase = .ePix) :
    stepEPix (hostSide c d v ts s) = mapNext (overCore c d v ts) (stepEPix s) := by
  have extend : ∀ last, extendRun last (hostSide c d v ts s) = mapNext (hostSide c d v ts) (extendRun last s) := by
    intro last
    unfold extendRun
    rw [show (hostSide c d v ts s).run = s.run from rfl]
    split
    · simp only [emitInstr, emitBytes_hostSide, andThen_mapNext, mapNext_andThen]; rfl
    · rfl
  have flush : flushRun (hostSide c d v ts s) = mapNext (hostSide c d v ts) (flushRun s) := by
    unfold flushRun
    rw [show (hostSide c d v ts s).run = s.run from rfl]
    split
    · rfl
    · simp only [emitInstr, emitBytes_hostSide, andThen_mapNext, mapNext_andThen]; rfl
  have encode : ∀ p, encodePixel p (hostSide c d v ts s) = mapNext (hostSide c d v ts) (encodePixel p s) := by
    intro p
    unfold encodePixel
    rw [flush]
    simp only [andThen_mapNext, mapNext_andThen]
    congr 1; funext t
    simp only [emitInstr, show (hostSide c d v ts t).cache = t.cache from rfl,
      show (hostSide c d v ts t).px = t.px from rfl, emitBytes_hostSide, andThen_mapNext]
    rfl
  unfold stepEPix
  rw [show loadPixel (hostSide c d v ts s) = loadPixel s from rfl]
  cases hl : loadPixel s with
  | none => rfl
  | some q =>
    simp only [show (hostSide c d v ts s).alpha = s.alpha from rfl, show (hostSide c d v ts s).px = s.px from rfl,
      show (hostSide c d v ts s).cur = s.cur from rfl, show (hostSide c d v ts s).latN = s.latN from rfl,
      extend, encode, ← apply_ite (mapNext (hostSide c d v ts)), andThen_mapNext]
    cases ho : (if encoderPixel s.alpha q = s.px then extendRun (decide (s.cur + 1 = s.latN)) s
      else encodePixel (encoderPixel s.alpha q) s) with
    | fault r => rfl
    | refused r => rfl
    | next u =>
      have hx : stepEPix s = .next (advancePixel u) := by rw [stepEPix, hl]; simp only [ho]; rfl
      have hu : (advancePixel u).phase ≠ .idle := pixelMove_busy hp (stepEPix_move hx).2
      simp only [andThen_next, mapNext_next, overCore_of_busy c d v ts hu]; rfl

theorem coreStep_hostSide {s : State} (hb : s.phase ≠ .idle) :
    coreStep (hostSide c d v ts s) = mapNext (overCore c d v ts) (coreStep s) := by
  unfold coreStep
  rw [show (hostSide c d v ts s).phase = s.phase from rfl]
  split
  · exact absurd ‹_› hb
  · exact stepHeader_hostSide c d v ts (.inl ‹_›)
  · exact stepHeader_hostSide c d v ts (.inr ‹_›)
  · exact stepChunk_hostSide c d v ts ‹_›
  · exact stepTail_hostSide c d v ts ‹_›
  · exact stepEHdr_hostSide c d v ts s
  · exact stepEPix_hostSide c d v ts ‹_›
  · simp only [stepEEnd, emitInstr, emitBytes_hostSide, andThen_mapNext, mapNext_andThen]; rfl
end

/-! ### One move of a running command -/

theorem coreStep_done {s t : State} (hb : s.phase ≠ .idle) (hx : coreStep s = .next t) (hi : t.phase = .idle) :
    t.done = true := by
  have hm := coreStep_move hx
  cases hm with
  | held hp => exact absurd hp hb
  | header _ _ hm _ => cases hm <;> first | rfl | cases hi
  | chunkFailed => rfl
  | chunk _ _ _ _ hp _ _ _ _ hm =>
    cases hm with
    | overflowed => rfl
    | made | indexed | ran => rw [endChunk_phase] at hi; split at hi <;> first | cases hi | exact absurd hi hb
  | tailFailed => rfl
  | decoded => rfl
  | imageFailed => rfl
  | imageOverCapacity => rfl
  | encodeStarted => cases hi
  | pixel _ hp _ hm => exact absurd hi (pixelMove_busy hp hm)
  | encoded => rfl

/-- `s` is `b` but for what the host's register accesses and the turns make of it. -/
def SameRun (b s : State) : Prop := s = hostSide s.ctrl s.done s.hostData s.turns b

theorem sameRun_turns (b : State) (ts : List Turn) : SameRun { b with turns := ts } b := rfl

theorem sameRun_hostSide (c : Word) (d : Bool) (v : Word) (ts : List Turn) (b : State) :
    SameRun b (hostSide c d v ts b) := rfl

/-- A register access while a command runs leaves the run as it is, `CMD` writes included (R192, R199). -/
theorem step_register_turn {b s : State} {act : HostAction} {ts : List Turn} (hs : SameRun b s)
    (hb : b.phase ≠ .idle) (ht : s.turns = .host act :: ts) (hr : RegisterTurns s.turns) :
    ∃ u, step s = .next u ∧ SameRun b u ∧ u.turns = ts ∧ (s.done = false → u.done = false) := by
  rw [step_host ht]
  have hp : busy { s with turns := ts } = true := by
    rw [hs]; simpa [busy, hostSide] using hb
  have hq : ({ s with turns := ts } : State).phase ≠ .idle := by rw [hs]; exact hb
  have base : ∀ c d v, SameRun b { s with turns := ts, ctrl := c, done := d, hostData := v } := by
    intro c d v; rw [hs]; rfl
  obtain h | ⟨off, ho, h⟩ := hr (.host act) (by rw [ht]; exact List.mem_cons_self)
  · cases h
  obtain ⟨r, ho⟩ := Option.ne_none_iff_exists'.1 ho
  rcases h with h | ⟨v, h⟩ <;> cases h
  · exact ⟨_, by rw [hostStep, ho], base _ _ _, rfl, id⟩
  · rw [hostStep, ho]
    have same : SameRun b { s with turns := ts } := base _ _ _
    cases r <;> simp only [regWrite, hp, if_true]
    case ctrl => exact ⟨_, rfl, base _ _ _, rfl, id⟩
    case status => exact ⟨_, rfl, base _ _ _, rfl, fun h => by simp [h]⟩
    case cmd =>
      refine ⟨_, ?_, same, rfl, id⟩
      unfold decodeCommand
      repeat' split
      all_goals exact whenIdle_of_busy hq
    all_goals exact ⟨_, rfl, same, rfl, id⟩

/-- The core's move is the move of the run alone. -/
theorem step_core_turn {b s : State} (hs : SameRun b s) (hb : b.phase ≠ .idle)
    (ht : s.turns = [] ∨ ∃ ts, s.turns = .core :: ts) :
    step s = mapNext (overCore s.ctrl s.done s.hostData s.turns.tail) (coreStep b) := by
  rw [← coreStep_hostSide _ _ _ _ hb]
  rcases ht with ht | ⟨ts, ht⟩
  · rw [step_core_of_nil ht, ht, List.tail_nil, ← ht, ← hs]
  · rw [step_core ht, ht, List.tail_cons]
    congr 1
    rw [hs]; rfl

/-- The core's move, from the run alone. -/
theorem step_core_turn_next {b s b' : State} (hs : SameRun b s) (hb : b.phase ≠ .idle)
    (ht : s.turns = [] ∨ ∃ ts, s.turns = .core :: ts) (hx : coreStep b = .next b') :
    ∃ u, step s = .next u ∧ SameRun b' u ∧ u.turns = s.turns.tail ∧ (u.phase = .idle → u.done = true) ∧
      (s.done = false → u.phase ≠ .idle → u.done = false) := by
  refine ⟨_, by rw [step_core_turn hs hb ht, hx]; rfl, sameRun_hostSide _ _ _ _ _, rfl, fun hi => ?_, fun hd hi => ?_⟩
  · have hi : b'.phase = .idle := hi
    simp only [hostSide, hi, if_true]
    exact coreStep_done hb hx hi
  · have hi : b'.phase ≠ .idle := hi
    simp only [hostSide, hi, if_false]
    exact hd

theorem coreStep_turns {s t : State} (hx : coreStep s = .next t) : t.turns = s.turns := by
  have hm := coreStep_move hx
  cases hm with
  | header _ _ hm _ => cases hm <;> rfl
  | chunk _ _ _ _ _ _ _ _ _ hm => cases hm <;> rfl
  | pixel _ _ _ hm => cases hm <;> rfl
  | _ => rfl

theorem RegisterTurns.tail {t : Turn} {ts : List Turn} (h : RegisterTurns (t :: ts)) : RegisterTurns ts :=
  fun u hu => h u (List.mem_cons_of_mem _ hu)

/-- Whose move is next, the turns being the core's and register accesses. -/
theorem RegisterTurns.cases {ts : List Turn} (h : RegisterTurns ts) :
    (ts = [] ∨ ∃ us, ts = .core :: us) ∨ ∃ act us, ts = .host act :: us := by
  cases ts with
  | nil => exact .inl (.inl rfl)
  | cons t us =>
    rcases h t List.mem_cons_self with rfl | ⟨_, _, rfl | ⟨_, rfl⟩⟩
    · exact .inl (.inr ⟨us, rfl⟩)
    · exact .inr ⟨_, us, rfl⟩
    · exact .inr ⟨_, us, rfl⟩

theorem coreMoves_core {k : Nat} {ts : List Turn} (h : ts = [] ∨ ∃ us, ts = .core :: us) :
    coreMoves (k + 1) ts = coreMoves k ts.tail + 1 := by
  rcases h with rfl | ⟨us, rfl⟩ <;> rfl

theorem RegisterTurns.core {ts : List Turn} (h : RegisterTurns ts) : RegisterTurns ts.tail := by
  cases ts with
  | nil => exact h
  | cons t us => exact h.tail

theorem SameRun.phase {b s : State} (h : SameRun b s) : s.phase = b.phase := by rw [h]; rfl

/-- No idle state after fewer than `k` moves, the first state included. -/
def BusyBefore (k : Nat) (s : State) : Prop := ∀ j u, j < k → runs j s = .next u → u.phase ≠ .idle

theorem BusyBefore.step {k : Nat} {s t : State} (h : BusyBefore (k + 1) s) (hx : step s = .next t) :
    BusyBefore k t := fun j u hj hu => h (j + 1) u (by omega) (by rw [runs_succ, hx]; exact hu)

theorem BusyBefore.succ {k : Nat} {s t : State} (hb : s.phase ≠ .idle) (hx : Machine.step s = .next t)
    (h : BusyBefore k t) : BusyBefore (k + 1) s := by
  rintro (_ | j) u hj hu
  · injection hu with hu; exact hu ▸ hb
  · rw [runs_succ, hx] at hu; exact h j u (by omega) hu

/-- `DONE` at the end of `k` moves from `s` to `t`: set if the command is over, and not set while it runs. -/
def DoneOk (k : Nat) (s t : State) : Prop :=
  (k ≠ 0 → t.phase = .idle → t.done = true) ∧ (s.done = false → t.phase ≠ .idle → t.done = false)

/-- A run with register accesses between the core's steps is, by the core's steps, the run alone. -/
theorem alone_of_interleaved (k : Nat) : ∀ {b s t : State}, b.turns = [] → SameRun b s → RegisterTurns s.turns →
    BusyBefore k s → runs k s = .next t → ∃ a, runs (coreMoves k s.turns) b = .next a ∧ SameRun a t ∧
      BusyBefore (coreMoves k s.turns) b ∧ DoneOk k s t := by
  induction k with
  | zero =>
    intro b s t hb hs hr _ hx
    injection hx with hx; subst hx
    exact ⟨b, rfl, hs, fun j u hj => absurd hj (Nat.not_lt_zero j), fun h => absurd rfl h, fun h _ => h⟩
  | succ k ih =>
    intro b s t hb hs hr hbusy hx
    have hp : b.phase ≠ .idle := hs.phase ▸ hbusy 0 s (by omega) rfl
    rcases hr.cases with ht | ⟨act, us, ht⟩
    · rw [coreMoves_core ht]
      rw [runs_succ] at hx
      obtain ⟨u, hu, hx⟩ := andThen_eq_next.1 hx
      obtain ⟨b', hb', -⟩ := mapNext_eq_next.1 ((step_core_turn hs hp ht).symm.trans hu)
      obtain ⟨u', hu', hsu, htu, hd, hd'⟩ := step_core_turn_next hs hp ht hb'
      obtain rfl : u = u' := by rw [hu] at hu'; injection hu'
      have hstep : step b = .next b' := (step_core_of_nil hb).trans hb'
      obtain ⟨a, ha, hsa, hba, hda⟩ := ih ((coreStep_turns hb').trans hb) hsu (htu ▸ hr.core) (hbusy.step hu) hx
      rw [htu] at ha hba
      refine ⟨a, by rw [runs_succ, hstep]; exact ha, hsa, hba.succ hp hstep, fun _ hi => ?_, fun h hi => ?_⟩
      · cases k with
        | zero => injection hx with hx; exact hx ▸ hd (hx ▸ hi)
        | succ k => exact hda.1 (by omega) hi
      · cases k with
        | zero => injection hx with hx; exact hx ▸ hd' h (hx ▸ hi)
        | succ k => exact hda.2 (hd' h (hbusy 1 u (by omega) (by rw [runs_succ, hu]; rfl))) hi
    · obtain ⟨u, hu, hsu, htu, hd'⟩ := step_register_turn hs hp ht hr
      rw [runs_succ, hu] at hx
      have hk : k ≠ 0 ∨ t.phase ≠ .idle := by
        cases k with
        | zero => injection hx with hx; exact .inr (hx ▸ hsu.phase ▸ hp)
        | succ k => exact .inl (by omega)
      have hr' : RegisterTurns u.turns := by rw [htu]; rw [ht] at hr; exact hr.tail
      obtain ⟨a, ha, hsa, hba, hda⟩ := ih hb hsu hr' (hbusy.step hu) hx
      rw [htu] at ha hba
      rw [ht]
      exact ⟨a, ha, hsa, hba, fun _ hi => hk.elim (fun h => hda.1 h hi) (fun h => absurd hi h),
        fun h => hda.2 (hd' h)⟩

/-- Whatever register accesses come between, the run reaches what the core alone reaches. -/
theorem interleaved_of_alone (j : Nat) : ∀ {b a : State}, b.turns = [] → BusyBefore j b → runs j b = .next a →
    ∀ (ts : List Turn) {s : State}, s.turns = ts → SameRun b s → RegisterTurns ts →
      ∃ k t, coreMoves k ts = j ∧ runs k s = .next t ∧ SameRun a t ∧ BusyBefore k s ∧
        DoneOk j s t ∧ (j = 0 → k = 0) := by
  induction j with
  | zero =>
    intro b a hb _ ha ts s _ hs _
    injection ha with ha; subst ha
    exact ⟨0, s, by cases ts <;> rfl, rfl, hs, fun j u hj => absurd hj (Nat.not_lt_zero j),
      ⟨fun h => absurd rfl h, fun h _ => h⟩, fun _ => rfl⟩
  | succ j ih =>
    intro b a hb hbusy ha
    have hp : b.phase ≠ .idle := hbusy 0 b (by omega) rfl
    rw [runs_succ] at ha
    obtain ⟨b', hstep, ha⟩ := andThen_eq_next.1 ha
    have hb' : coreStep b = .next b' := (step_core_of_nil hb).symm.trans hstep
    intro ts
    induction ts with
    | nil =>
      intro s ht hs hr
      obtain ⟨u, hu, hsu, htu, hd, hd'⟩ := step_core_turn_next hs hp (.inl ht) hb'
      obtain ⟨k, t, hk, hx, hst, hbt, hdt, h0⟩ :=
        ih ((coreStep_turns hb').trans hb) (hbusy.step hstep) ha [] (by rw [htu, ht]; rfl) hsu hr
      refine ⟨k + 1, t, by rw [coreMoves, hk], by rw [runs_succ, hu]; exact hx, hst,
        hbt.succ (hs.phase ▸ hp) hu, ⟨fun _ hi => ?_, fun h hi => ?_⟩, nofun⟩
      · by_cases hj : j = 0
        · rw [h0 hj] at hx; injection hx with hx; exact hx ▸ hd (hx ▸ hi)
        · exact hdt.1 hj hi
      · by_cases hk : k = 0
        · rw [hk] at hx; injection hx with hx; exact hx ▸ hd' h (hx ▸ hi)
        · exact hdt.2 (hd' h (hbt 0 u (by omega) rfl)) hi
    | cons x us ihts =>
      intro s ht hs hr
      rcases hr.cases with h | ⟨act, us', h⟩
      · obtain ⟨us', h⟩ := h.resolve_left nofun
        cases h
        obtain ⟨u, hu, hsu, htu, hd, hd'⟩ := step_core_turn_next hs hp (.inr ⟨us, ht⟩) hb'
        obtain ⟨k, t, hk, hx, hst, hbt, hdt, h0⟩ :=
          ih ((coreStep_turns hb').trans hb) (hbusy.step hstep) ha us (by rw [htu, ht]; rfl) hsu hr.tail
        refine ⟨k + 1, t, by rw [coreMoves, hk], by rw [runs_succ, hu]; exact hx, hst,
          hbt.succ (hs.phase ▸ hp) hu, ⟨fun _ hi => ?_, fun h hi => ?_⟩, nofun⟩
        · by_cases hj : j = 0
          · rw [h0 hj] at hx; injection hx with hx; exact hx ▸ hd (hx ▸ hi)
          · exact hdt.1 hj hi
        · by_cases hk : k = 0
          · rw [hk] at hx; injection hx with hx; exact hx ▸ hd' h (hx ▸ hi)
          · exact hdt.2 (hd' h (hbt 0 u (by omega) rfl)) hi
      · cases h
        obtain ⟨u, hu, hsu, htu, hd'⟩ := step_register_turn hs hp ht (ht ▸ hr)
        obtain ⟨k, t, hk, hx, hst, hbt, hdt, h0⟩ := ihts htu hsu hr.tail
        exact ⟨k + 1, t, hk, by rw [runs_succ, hu]; exact hx, hst, hbt.succ (hs.phase ▸ hp) hu,
          ⟨hdt.1, fun h => hdt.2 (hd' h)⟩, nofun⟩

end Sys2Proof.Machine
end

