-- ==== Sys2Proof/Tests/Slice0.lean ====
section
/-! SUPPORT. Tests whose expected values stand in spec/ (the encodings of 30_encoding.md, the examples of the section
files, 95_test_vectors.md), each about one step; and for every obligation with hypotheses a witness: concrete states
and operands that meet them, clause by clause. -/

namespace Sys2Proof.Tests

open Sys2Proof Sys2Proof.Machine

/-- The outcome is a next state that meets `f`. -/
def nextHas (o : Result) (f : State → Bool) : Bool :=
  match o with
  | .next t => f t
  | .fault _ => false
  | .refused _ => false

/-- A small block: `MAX_DIMENSION` 8, 64 bytes in, 4 pixels, 42 bytes out (the worst case of 4 pixels, R163). -/
def pA : Params := ⟨8, 64, 4, 42⟩

/-- Idle after reset. -/
def idleSt : State := State.resetWith pA

/-- In phase `ph`, an image of `n` pixels, pixel `px` current, byte 14 next, `len` bytes of stream. -/
def phaseSt (ph : Phase) (n : Nat) (px : Pixel) (len : Word) : State :=
  { idleSt with phase := ph, latN := n, px := px, ipos := 14, len := len }

/-- A stream whose bytes from 14 up are `bs`, the current pixel `px`. -/
def streamSt (ph : Phase) (n : Nat) (px : Pixel) (bs : List Byte) : State :=
  { phaseSt ph n px (BitVec.ofNat 32 (14 + bs.length)) with byteIn := Memory.writeList [] 14 bs }

/-- A header's bytes at 0, `len` of them in the stream. -/
def headerSt (ph : Phase) (bs : List Byte) (len : Word) : State :=
  { idleSt with phase := ph, byteIn := Memory.writeList [] 0 bs, len := len, inLen := len }

/-- An image of `w` by `h` pixels in `PIX`, format `fmt`. -/
def imageSt (w h fmt : Word) (ps : List Pixel) : State :=
  { idleSt with phase := .eHdr, imgWidth := w, imgHeight := h, imgFmt := fmt, pix := Memory.writeList [] 0 ps }

/-- The encoder before pixel `cur`. -/
def encSt (ps : List Pixel) (px : Pixel) (run : BitVec 6) (cur : Nat) : State :=
  { idleSt with
    phase := .ePix, latN := ps.length, latW := BitVec.ofNat 32 ps.length, latH := 1, alpha := true, px := px
    run := run, cur := cur, opos := 14, pix := Memory.writeList [] 0 ps }

/-- The 14 header bytes of `HEADER 2, 3, 4, 0` (the example of R118). -/
def hdr23 : List Byte := [0x71, 0x6F, 0x69, 0x66, 0, 0, 0, 2, 0, 0, 0, 3, 4, 0]

/-! ### Well-formed instructions (R97) -/

theorem test_ill_formed_diff :
    (Instr.diff (-3) 0 0).wellFormed = false ∧ (Instr.diff 2 0 0).wellFormed = false ∧
    (Instr.diff 0 (-3) 0).wellFormed = false ∧ (Instr.diff 0 2 0).wellFormed = false ∧
    (Instr.diff 0 0 (-3)).wellFormed = false ∧ (Instr.diff 0 0 2).wellFormed = false := by decide

theorem test_ill_formed_luma :
    (Instr.luma (-33) 0 0).wellFormed = false ∧ (Instr.luma 32 0 0).wellFormed = false ∧
    (Instr.luma 0 (-9) 0).wellFormed = false ∧ (Instr.luma 0 8 0).wellFormed = false ∧
    (Instr.luma 0 0 (-9)).wellFormed = false ∧ (Instr.luma 0 0 8).wellFormed = false := by decide

theorem test_ill_formed_run_and_command :
    (Instr.run 0).wellFormed = false ∧ (Instr.run 63).wellFormed = false ∧
    (Instr.cmdIllegal 1).wellFormed = false ∧ (Instr.cmdIllegal 2).wellFormed = false ∧
    (Instr.cmdIllegal 3).wellFormed = false := by decide

theorem test_well_formed_bounds :
    (Instr.diff (-2) 1 (-2)).wellFormed = true ∧ (Instr.luma (-32) 7 (-8)).wellFormed = true ∧
    (Instr.luma 31 (-8) 7).wellFormed = true ∧ (Instr.run 1).wellFormed = true ∧
    (Instr.run 62).wellFormed = true ∧ (Instr.cmdIllegal 0).wellFormed = true := by decide

/-! ### Words written out from the encodings of R81, R85 to R90, R92, R95 -/

theorem test_decode_rgb :
    decode (.atTag [0b11111110, 0b00001010, 0b00010100, 0b00011110]) = .ok (.rgb 10 20 30, []) := by decide

theorem test_decode_rgba :
    decode (.atTag [0b11111111, 0b00000001, 0b00000010, 0b00000011, 0b00000100]) = .ok (.rgba 1 2 3 4, []) := by
  decide

theorem test_decode_index : decode (.atTag [0b00101010]) = .ok (.index 42, []) := by decide

/-- R137's example: 00 not followed by the end marker's other bytes; R92's overlap. -/
theorem test_decode_index_zero :
    decode (.atTag [0, 0, 0, 0, 0, 0, 0, 0]) = .ok (.index 0, [0, 0, 0, 0, 0, 0, 0]) ∧
    decode (.atTag [0, 0, 0, 0, 0, 0, 0, 2]) = .ok (.index 0, [0, 0, 0, 0, 0, 0, 2]) := by decide

/-- R138's example: fields 3, 0, 1. -/
theorem test_decode_diff : decode (.atTag [0b01110001]) = .ok (.diff 1 (-2) (-1), []) := by decide

/-- R171's example: bytes `BF F0`. -/
theorem test_decode_luma : decode (.atTag [0b10111111, 0b11110000]) = .ok (.luma 31 7 (-8), []) := by decide

theorem test_decode_run :
    decode (.atTag [0b11000000]) = .ok (.run 1, []) ∧ decode (.atTag [0b11111101]) = .ok (.run 62, []) := by
  decide

theorem test_decode_end : decode (.atTag [0, 0, 0, 0, 0, 0, 0, 0b00000001]) = .ok (.endMarker, []) := by decide

theorem test_decode_header :
    decode (.atHeader [0x71, 0x6F, 0x69, 0x66, 0, 1, 2, 3, 0, 0, 0, 5, 3, 1]) = .ok (.header 66051 5 3 1, []) := by
  decide

theorem test_decode_commands :
    decode (.atCmd 0x00000001) = .ok (.cmdParse, []) ∧ decode (.atCmd 0x00000002) = .ok (.cmdDecode, []) ∧
    decode (.atCmd 0x00000003) = .ok (.cmdEncode, []) ∧ decode (.atCmd 0) = .ok (.cmdIllegal 0, []) := by decide

theorem test_decode_rejects :
    decode (.atHeader [0x71, 0x6F, 0x69, 0x66]) = .error .shortHeader ∧
    decode (.atHeader [0x71, 0x6F, 0x69, 0x46, 0, 0, 0, 1, 0, 0, 0, 1, 4, 0]) = .error .badMagic ∧
    decode (.atTag []) = .error .noTag ∧ decode (.atTag [0xFE, 0, 0]) = .error .shortChunk := by decide

/-- The bytes of R97's table: R170's `7D`, R171's `A0 A8`, R166's `FD`, R164's header. -/
theorem test_encode :
    streamBytes (.diff 1 1 (-1)) = [0x7D] ∧ streamBytes (.luma 0 2 0) = [0xA0, 0xA8] ∧
    streamBytes (.run 62) = [0xFD] ∧
    streamBytes (.header 5 1 4 0) = [0x71, 0x6F, 0x69, 0x66, 0, 0, 0, 5, 0, 0, 0, 1, 4, 0] := by decide

/-- The pseudo-instruction of R99. -/
theorem test_runs : asmRuns 125 = [.run 62, .run 62, .run 1] ∧ asmRuns 62 = [.run 62] := by decide

/-! ### Chunks -/

/-- The example of R135. -/
theorem test_rgb_keeps_alpha :
    nextHas (exec (.rgb 10 20 30) (phaseSt .dChunk 2 ⟨1, 2, 3, 77⟩ 26)) (fun t =>
      t.px == ⟨10, 20, 30, 77⟩ && t.cache[35] == ⟨10, 20, 30, 77⟩ && pixAt t 0 == ⟨10, 20, 30, 77⟩ &&
      t.ipos == 18 && t.cur == 1 && t.phase == .dChunk) = true := by decide

/-- The example of R136, as the last pixel. -/
theorem test_rgba_to_tail :
    nextHas (exec (.rgba 0 0 0 0) (phaseSt .dChunk 1 opaqueBlack 27)) (fun t =>
      t.px == zeroPixel && t.ipos == 19 && t.phase == .dTail) = true := by decide

/-- Corner case (b) of R137: INDEX 5 of an unwritten slot. -/
theorem test_index_writes_no_cache :
    nextHas (exec (.index 5) (phaseSt .dChunk 2 opaqueBlack 23)) (fun t =>
      t.px == zeroPixel && pixAt t 0 == zeroPixel && t.cache == idleSt.cache && t.ipos == 15) = true := by decide

/-- The example of R138: both directions wrap. -/
theorem test_diff_wraps :
    nextHas (exec (.diff 1 (-2) (-1)) (phaseSt .dChunk 2 ⟨255, 0, 128, 255⟩ 23)) (fun t =>
      t.px == ⟨0, 254, 127, 255⟩ && t.ipos == 15) = true := by decide

/-- The corner case of R138: `6A` reproduces the pixel and caches it. -/
theorem test_diff_zero_caches :
    nextHas (exec (.diff 0 0 0) (phaseSt .dChunk 2 opaqueBlack 23)) (fun t =>
      t.px == opaqueBlack && t.cache[53] == opaqueBlack) = true := by decide

/-- The example of R139: bytes `80 0F`. -/
theorem test_luma_biases_by_green :
    nextHas (exec (.luma (-32) (-8) 7) (phaseSt .dChunk 2 ⟨10, 20, 30, 255⟩ 24)) (fun t =>
      t.px == ⟨226, 244, 5, 255⟩ && t.ipos == 16) = true := by decide

/-- The example of R140: a run that ends at `N`. -/
theorem test_run_ends_at_n :
    nextHas (exec (.run 3) (phaseSt .dChunk 3 ⟨7, 7, 7, 255⟩ 23)) (fun t =>
      t.cur == 3 && pixAt t 0 == ⟨7, 7, 7, 255⟩ && pixAt t 2 == ⟨7, 7, 7, 255⟩ && t.phase == .dTail &&
      t.cache == idleSt.cache) = true := by decide

/-- The example of R141 and R213. -/
theorem test_run_overflow :
    nextHas (exec (.run 3) (phaseSt .dChunk 2 opaqueBlack 23)) (fun t =>
      statusWord t == 0x806 && t.errPos == 14 && t.errPix == 0 && t.pixCount == 0) = true := by decide

/-! ### Header and end marker -/

/-- The example of R133. -/
theorem test_early_end :
    nextHas (step { streamSt .dChunk 2 opaqueBlack [0, 0, 0, 0, 0, 0, 0, 1] with cur := 1 }) (fun t =>
      statusWord t == 0x506 && t.errPos == 14 && t.errPix == 1) = true := by decide

/-- The corner cases of R144: `02` for `01`, and a byte too many after either. -/
theorem test_tail_order :
    nextHas (step (streamSt .dTail 0 opaqueBlack [0, 0, 0, 0, 0, 0, 0, 2, 0xFF])) (fun t => statusWord t == 0x606)
      = true ∧
    nextHas (step (streamSt .dTail 0 opaqueBlack [0, 0, 0, 0, 0, 0, 0, 1, 0xFF])) (fun t => statusWord t == 0x706)
      = true := by decide

/-- The example of R118. -/
theorem test_parse_header :
    nextHas (step (headerSt .pHdr hdr23 14)) (fun t =>
      t.hdrWidth == 2 && t.hdrHeight == 3 && t.hdrFmt == 0x00010004 && statusWord t == 2) = true := by decide

/-- R131's capacity check: 4 pixels fit (its example), 6 do not (the header of R118). -/
theorem test_decode_header_capacity :
    nextHas (exec (.header 2 2 3 0) (headerSt .dHdr hdr23 14)) (fun t =>
      t.phase == .dChunk && t.latN == 4 && t.ipos == 14 && t.px == opaqueBlack && t.hdrFmt == 0x00000003) = true ∧
    nextHas (step (headerSt .dHdr hdr23 14)) (fun t => statusWord t == 0x906 && t.hdrWidth == 2) = true := by decide

/-! ### Commands -/

/-- The example of R191. -/
theorem test_accept_decode :
    nextHas (exec .cmdDecode { idleSt with inLen := 23, done := true, errCode := .badMagic }) (fun t =>
      t.len == 23 && t.phase == .dHdr && statusWord t == 1) = true := by decide

theorem test_accept_parse_and_encode :
    nextHas (exec .cmdParse idleSt) (fun t => t.phase == .pHdr) = true ∧
    nextHas (exec .cmdEncode idleSt) (fun t => t.phase == .eHdr) = true := by decide

/-- The example of R193. -/
theorem test_illegal_command :
    nextHas (exec (.cmdIllegal 7) idleSt) (fun t => statusWord t == 0xA06 && t.phase == .idle) = true := by decide

theorem test_command_while_busy :
    exec .cmdParse (phaseSt .ePix 2 opaqueBlack 0) = .next (phaseSt .ePix 2 opaqueBlack 0) := by rfl

/-- The example of R200. -/
theorem test_status_write_one_to_clear :
    nextHas (hostStep (.writeReg 0x0C 2) { idleSt with done := true, errCode := .unexpectedEof })
      (fun t => statusWord t == 0x504) = true := by decide

/-! ### The encoder -/

/-- The example of R166: `run = 61` emits `FD`. -/
theorem test_run_of_62 :
    nextHas (step (encSt [⟨9, 9, 9, 255⟩, opaqueBlack] ⟨9, 9, 9, 255⟩ 61 0)) (fun t =>
      byteOutAt t 14 == 0xFD && t.opos == 15 && t.run == 0 && t.cur == 1) = true := by decide

/-- The examples of R167 and R172: `run = 7`, then a literal: `C6 FE 0A 14 1E`. -/
theorem test_run_flush_and_rgb :
    nextHas (step (encSt [⟨10, 20, 30, 255⟩, opaqueBlack] opaqueBlack 7 0)) (fun t =>
      (List.range 5).map (fun i => byteOutAt t (14 + i)) == [0xC6, 0xFE, 0x0A, 0x14, 0x1E] &&
      t.cache[9] == ⟨10, 20, 30, 255⟩ && t.px == ⟨10, 20, 30, 255⟩ && t.phase == .ePix) = true := by decide

/-- The examples of R168, R170, R171 and R173. -/
theorem test_choose_chunk :
    chooseChunk idleSt.cache opaqueBlack zeroPixel = .index 0 ∧
    chooseChunk idleSt.cache ⟨10, 20, 30, 255⟩ ⟨11, 21, 29, 255⟩ = .diff 1 1 (-1) ∧
    chooseChunk idleSt.cache ⟨0, 0, 0, 255⟩ ⟨2, 0, 0, 255⟩ = .luma 0 2 0 ∧
    chooseChunk idleSt.cache opaqueBlack ⟨0, 0, 0, 128⟩ = .rgba 0 0 0 128 := by decide

/-- R162 before R163: an invalid width leaves `N`, a width that is valid but too big does not. -/
theorem test_encode_error_latches :
    nextHas (step { imageSt 9 1 0 [] with latN := 7 }) (fun t =>
      statusWord t == 0x406 && t.latW == 9 && t.latN == 7) = true ∧
    nextHas (step { imageSt 5 1 0 [] with latN := 7 }) (fun t =>
      statusWord t == 0x906 && t.latW == 5 && t.latN == 5) = true := by decide

/-- The example of R165: alpha read as 255. -/
theorem test_alphaless_pixel : encoderPixel false (unpackPixel 0x0A141E00) = ⟨10, 20, 30, 255⟩ := by decide

/-! ### One word of every row, as the first instruction after reset -/

theorem test_fetch_rgb :
    decodeTableWord 32 0x1E140AFE = some (.rgb 10 20 30) ∧
    nextHas (step (State.reset.withFetchWord 32 0x1E140AFE)) (fun t => t.px == ⟨10, 20, 30, 0⟩ && t.cur == 1)
      = true := by decide

theorem test_fetch_rgba :
    decodeTableWord 40 0x04030201FF = some (.rgba 1 2 3 4) ∧
    nextHas (step (State.reset.withFetchWord 40 0x04030201FF)) (fun t => t.px == ⟨1, 2, 3, 4⟩ && t.cur == 1)
      = true := by decide

theorem test_fetch_index :
    decodeTableWord 8 0 = some (.index 0) ∧ decodeTableWord 8 0x2A = some (.index 42) ∧
    nextHas (step (State.reset.withFetchWord 8 0)) (fun t => t.px == zeroPixel && t.cur == 1) = true := by decide

theorem test_fetch_diff :
    decodeTableWord 8 0x71 = some (.diff 1 (-2) (-1)) ∧
    nextHas (step (State.reset.withFetchWord 8 0x71)) (fun t => t.px == ⟨1, 254, 255, 0⟩ && t.cur == 1) = true := by
  decide

theorem test_fetch_luma :
    decodeTableWord 16 0x0F80 = some (.luma (-32) (-8) 7) ∧
    nextHas (step (State.reset.withFetchWord 16 0x0F80)) (fun t => t.px == ⟨216, 224, 231, 0⟩ && t.ipos == 2)
      = true := by decide

theorem test_fetch_run :
    decodeTableWord 8 0xFD = some (.run 62) ∧
    nextHas (step (State.reset.withFetchWord 8 0xFD)) (fun t => t.cur == 62 && t.ipos == 1) = true := by decide

theorem test_fetch_end :
    decodeTableWord 64 1 = some .endMarker ∧ decodeTableWord 64 0x0100000000000000 = some .endMarker ∧
    nextHas (step (State.reset.withFetchWord 64 1)) (fun t => t.done && t.errCode == .none) = true := by decide

theorem test_fetch_header :
    decodeTableWord 112 0x0004000000020000000171_6F6966 = some (.header 1 2 4 0) ∧
    nextHas (step (State.reset.withFetchWord 112 0x0004000000020000000171_6F6966)) (fun t =>
      t.hdrWidth == 1 && t.hdrHeight == 2 && t.phase == .dChunk) = true := by decide

theorem test_fetch_commands :
    decodeTableWord 32 1 = some .cmdParse ∧ decodeTableWord 32 2 = some .cmdDecode ∧
    decodeTableWord 32 3 = some .cmdEncode ∧ decodeTableWord 32 0 = some (.cmdIllegal 0) ∧
    nextHas (step (State.reset.withFetchWord 32 1)) (fun t => t.phase == .pHdr) = true ∧
    nextHas (step (State.reset.withFetchWord 32 2)) (fun t => t.phase == .dHdr) = true ∧
    nextHas (step (State.reset.withFetchWord 32 3)) (fun t => t.phase == .eHdr) = true ∧
    nextHas (step (State.reset.withFetchWord 32 0)) (fun t => t.errCode == .illegalCommand) = true := by decide

/-! ### Witnesses: states and operands that meet the hypotheses of each obligation -/

/-- The end marker's 8 bytes (R92). -/
def endBytes : List Byte := [0, 0, 0, 0, 0, 0, 0, 1]

/-- The stream of a 1 by 1 opaque black image: header, `C0`, end marker (the example of R164 to R176). -/
def blackStream : List Byte := [0x71, 0x6F, 0x69, 0x66, 0, 0, 0, 1, 0, 0, 0, 1, 4, 0] ++ [0xC0] ++ endBytes

/-- Idle, `blackStream` in `BYTE_IN`, and the host about to write `v` to `CMD`. -/
def readySt (v : Word) : State :=
  { idleSt with
    byteIn := Memory.writeList [] 0 blackStream, inLen := 23, imgWidth := 1, imgHeight := 1, imgFmt := 1
    pix := [(0, opaqueBlack)], turns := [.host (.writeReg 0x08 v)] }

theorem witness_DecodeOfEncode :
    (Instr.diff (-2) 1 (-2)).wellFormed = true ∧ (Instr.luma 31 (-8) 7).wellFormed = true ∧
    (Instr.run 62).wellFormed = true ∧ (Instr.cmdIllegal 4).wellFormed = true ∧
    (Instr.index 0).wellFormed = true ∧ (Instr.index 0).isChunk = true ∧
    ¬ (Instr.index 0 = .index 0 ∧
      ([0, 0, 0, 0, 0, 0, 2] : List Byte).take 7 = [0, 0, 0, 0, 0, 0, 1]) ∧
    ¬ (Instr.index 1 = .index 0 ∧ (endBytes.drop 1).take 7 = [0, 0, 0, 0, 0, 0, 1]) := by decide

theorem witness_TagSpaceIsTotal : 7 ≤ (endBytes.drop 1).length := by decide

theorem witness_HashWidthIsFree : 6 ≤ 6 := by decide

theorem witness_ResetAbandonsCommand :
    { phaseSt .dChunk 2 opaqueBlack 23 with turns := [.reset, .core] }.turns = .reset :: [.core] := by decide

theorem witness_StepRunsDecoded :
    idleSt.turns = [] ∧ { idleSt with turns := [.core] }.turns = .core :: [] ∧
    ((headerSt .dHdr hdr23 14).phase = .dHdr ∧ (headerSt .pHdr hdr23 14).phase = .pHdr ∧
      14 ≤ (headerSt .dHdr hdr23 14).len.toNat ∧ fetchIn 0 14 (headerSt .dHdr hdr23 14) = some hdr23 ∧
      fetchIn 0 14 (headerSt .pHdr hdr23 14) = some hdr23 ∧ decode (.atHeader hdr23) = .ok (.header 2 3 4 0, [])) ∧
    (let s := streamSt .dChunk 2 opaqueBlack [0, 0, 0, 0, 0, 0, 0, 2];
      s.phase = .dChunk ∧ s.len.toNat - s.ipos = 8 ∧ fetchIn s.ipos 8 s = some [0, 0, 0, 0, 0, 0, 0, 2] ∧
      decode (.atTag [0, 0, 0, 0, 0, 0, 0, 2]) = .ok (.index 0, [0, 0, 0, 0, 0, 0, 2])) ∧
    (let s := streamSt .dTail 2 opaqueBlack endBytes;
      s.phase = .dTail ∧ s.len.toNat - s.ipos = 8 ∧ fetchIn s.ipos 8 s = some (streamBytes .endMarker)) ∧
    (readySt 3).turns = .host (.writeReg 0x08 3) :: [] := by decide

theorem witness_ChunkStepRejects :
    (let s := streamSt .dChunk 2 opaqueBlack [0xC0, 0, 0, 0, 0, 0, 0];
      s.phase = .dChunk ∧ s.len.toNat - s.ipos = 7) ∧
    (let s := streamSt .dChunk 2 opaqueBlack endBytes;
      s.phase = .dChunk ∧ s.len.toNat - s.ipos = 8 ∧ fetchIn s.ipos 8 s = some [0, 0, 0, 0, 0, 0, 0, 1]) ∧
    (let s := streamSt .dChunk 2 opaqueBlack [0, 0, 0, 0, 0, 0, 0, 0];
      s.phase = .dChunk ∧ s.len.toNat - s.ipos = 8 ∧ fetchIn s.ipos 8 s = some (0 :: [0, 0, 0, 0, 0, 0, 0]) ∧
      ([0, 0, 0, 0, 0, 0, 0] : List Byte) ≠ [0, 0, 0, 0, 0, 0, 1]) := by decide

theorem witness_TailChecks :
    (let s := streamSt .dTail 0 opaqueBlack (endBytes.drop 1);
      s.phase = .dTail ∧ s.cur = s.latN ∧ s.len.toNat - s.ipos = 7) ∧
    (let s := streamSt .dTail 0 opaqueBlack [0, 0, 0, 0, 0, 0, 0, 2, 0];
      s.phase = .dTail ∧ s.cur = s.latN ∧ s.len.toNat - s.ipos = 9 ∧ fetchIn s.ipos 8 s = some [0, 0, 0, 0, 0, 0, 0, 2]) ∧
    (let s := streamSt .dTail 0 opaqueBlack (endBytes ++ [7]);
      s.phase = .dTail ∧ s.cur = s.latN ∧ s.len.toNat - s.ipos = 9 ∧ fetchIn s.ipos 8 s = some [0, 0, 0, 0, 0, 0, 0, 1]) ∧
    (let s := streamSt .dTail 0 opaqueBlack endBytes;
      s.phase = .dTail ∧ s.cur = s.latN ∧ s.len.toNat - s.ipos = 8 ∧ fetchIn s.ipos 8 s = some [0, 0, 0, 0, 0, 0, 0, 1]) := by decide

theorem witness_HeaderLengthAndMagic :
    ((headerSt .pHdr hdr23 13).phase = .pHdr ∧ (headerSt .pHdr hdr23 13).len.toNat = 13) ∧
    (let s := headerSt .dHdr (0x51 :: hdr23.drop 1) 14;
      s.phase = .dHdr ∧ s.len.toNat = 14 ∧ 14 ≤ s.cfg.inCapacity.toNat ∧
      [byteInAt s 0, byteInAt s 1, byteInAt s 2, byteInAt s 3] ≠ [0x71, 0x6F, 0x69, 0x66]) ∧
    (let s := headerSt .pHdr hdr23 14;
      s.phase = .pHdr ∧ s.len.toNat = 14 ∧ 14 ≤ s.cfg.inCapacity.toNat ∧
      [byteInAt s 0, byteInAt s 1, byteInAt s 2, byteInAt s 3] = [0x71, 0x6F, 0x69, 0x66]) := by decide

/-- Channels 2 and 5; colorspace 2; dimensions 0 and `MAX_DIMENSION + 1`. -/
theorem witness_HeaderChecksInOrder :
    (phaseSt .pHdr 0 opaqueBlack 14).phase = .pHdr ∧ (phaseSt .dHdr 0 opaqueBlack 14).phase = .dHdr ∧
    ((2 : Byte) ≠ 3 ∧ (2 : Byte) ≠ 4 ∧ (5 : Byte) ≠ 3 ∧ (5 : Byte) ≠ 4) ∧
    ((3 : Byte) = 3 ∧ (2 : Byte) ≠ 0 ∧ (2 : Byte) ≠ 1) ∧
    ((4 : Byte) = 4 ∧ (1 : Byte) = 1 ∧ (0 : Word) = 0 ∧
      (phaseSt .pHdr 0 opaqueBlack 14).cfg.maxDimension.toNat < (9 : Word).toNat) := by decide

/-- Width 1, height `MAX_DIMENSION`. -/
theorem witness_ParseHeaderCompletes :
    (phaseSt .pHdr 0 opaqueBlack 14).phase = .pHdr ∧ (3 : Byte) = 3 ∧ (1 : Byte) = 1 ∧ 1 ≤ (1 : Word).toNat ∧
    (1 : Word).toNat ≤ pA.maxDimension.toNat ∧ 1 ≤ (8 : Word).toNat ∧ (8 : Word).toNat = pA.maxDimension.toNat := by
  decide

/-- 2 by 2 pixels, as many as `PIX` holds. -/
theorem witness_DecodeHeaderCompletes :
    (phaseSt .dHdr 0 opaqueBlack 14).phase = .dHdr ∧ (4 : Byte) = 4 ∧ (0 : Byte) = 0 ∧ 1 ≤ (2 : Word).toNat ∧
    (2 : Word).toNat ≤ pA.maxDimension.toNat ∧ (2 : Word).toNat * (2 : Word).toNat = pA.pixCapacity.toNat := by decide

/-- 5 by 1 pixels, one more than `PIX` holds. -/
theorem witness_DecodeOutOfMemory :
    (phaseSt .dHdr 0 opaqueBlack 14).phase = .dHdr ∧ (4 : Byte) = 4 ∧ (0 : Byte) = 0 ∧
    1 ≤ (1 : Word).toNat ∧ (5 : Word).toNat ≤ pA.maxDimension.toNat ∧
    (5 : Word).toNat * (1 : Word).toNat = pA.pixCapacity.toNat + 1 := by decide

theorem witness_HeaderRoundTrip :
    1 ≤ (1 : Word).toNat ∧ (8 : Word).toNat = pA.maxDimension.toNat ∧ (1 : Byte) = 1 := by decide

/-- In D_CHUNK, `cur` the last entry of `PIX`. -/
def lastSt : State := { phaseSt .dChunk 4 opaqueBlack 40 with cur := 3 }

theorem witness_LiteralResults : lastSt.phase = .dChunk ∧ lastSt.cur + 1 = lastSt.cfg.pixCapacity.toNat := by decide

theorem witness_IndexResult :
    lastSt.phase = .dChunk ∧ lastSt.cur + 1 = lastSt.cfg.pixCapacity.toNat ∧ (0x3F : Byte).extractLsb' 6 2 = 0b00 ∧
    ((0x00 : Byte) :: [0, 0, 0, 0, 0, 0, 2]).take 8 ≠ [0, 0, 0, 0, 0, 0, 0, 1] := by decide

theorem witness_DiffResult :
    lastSt.phase = .dChunk ∧ lastSt.cur + 1 = lastSt.cfg.pixCapacity.toNat ∧
    (0x7F : Byte).extractLsb' 6 2 = 0b01 := by decide

theorem witness_LumaResult :
    lastSt.phase = .dChunk ∧ lastSt.cur + 1 = lastSt.cfg.pixCapacity.toNat ∧
    (0x80 : Byte).extractLsb' 6 2 = 0b10 := by decide

/-- A run that ends at `N`, and one that passes it by one. -/
theorem witness_RunResult :
    let s := { phaseSt .dChunk 4 opaqueBlack 40 with cur := 1 }
    s.phase = .dChunk ∧ s.latN ≤ s.cfg.pixCapacity.toNat ∧ s.cur + 3 = s.latN ∧ s.latN < s.cur + 4 ∧
    ((0xFD : Byte).extractLsb' 6 2 = 0b11 ∧ (0xFD : Byte) ≠ 0xFE ∧ (0xFD : Byte) ≠ 0xFF) := by decide

theorem witness_CurrentPixelIsLastWritten :
    (∀ i ∈ [Instr.rgb 1 2 3, .rgba 1 2 3 4, .index 63, .diff 1 (-2) 0, .luma 31 (-8) 7, .run 2],
      i.isChunk = true ∧ i.wellFormed = true ∧
      nextHas (exec i (phaseSt .dChunk 2 opaqueBlack 40)) (fun t => t.phase != .idle) = true) := by decide

theorem witness_PixelChunkFrame :
    (∀ i ∈ [Instr.rgb 1 2 3, .rgba 1 2 3 4, .diff 1 (-2) 0, .luma 31 (-8) 7],
      makesPixel i = true ∧ nextHas (exec i (phaseSt .dChunk 2 opaqueBlack 40)) (fun _ => true) = true) := by decide

theorem witness_IndexAndRunFrame :
    (phaseSt .dChunk 2 opaqueBlack 40).cur + 2 ≤ (phaseSt .dChunk 2 opaqueBlack 40).latN ∧
    (∀ i ∈ [Instr.index 63, .run 2],
      nextHas (exec i (phaseSt .dChunk 2 opaqueBlack 40)) (fun _ => true) = true) := by decide

/-- Both phases, a header that passes and one that fails. -/
theorem witness_HeaderFrame :
    (∀ ph ∈ [Phase.pHdr, .dHdr],
      nextHas (exec (.header 2 2 4 0) (phaseSt ph 0 opaqueBlack 14)) (fun t => t.hdrWidth == 2) = true ∧
      nextHas (exec (.header 0 2 4 0) (phaseSt ph 0 opaqueBlack 14)) (fun t => t.errCode == .invalidDimension)
        = true) := by decide

theorem witness_EndMarkerResultAndFrame :
    (let s := streamSt .dTail 2 opaqueBlack endBytes;
      s.phase = .dTail ∧ s.len.toNat - s.ipos = 8) ∧
    (∀ s ∈ [streamSt .dTail 2 opaqueBlack endBytes, streamSt .dTail 2 opaqueBlack (endBytes ++ [0]),
        streamSt .dChunk 2 opaqueBlack endBytes],
      nextHas (exec .endMarker s) (fun t => t.done) = true) := by decide

theorem witness_CommandAccepted :
    idleSt.phase = .idle ∧ ((1 : Word) = 1 ∧ Instr.cmdParse = .cmdParse ∧ Phase.pHdr = .pHdr) ∧
    ((2 : Word) = 2 ∧ Instr.cmdDecode = .cmdDecode ∧ Phase.dHdr = .dHdr) ∧
    ((3 : Word) = 3 ∧ Instr.cmdEncode = .cmdEncode ∧ Phase.eHdr = .eHdr) := by decide

theorem witness_CommandIgnoredWhileBusy : (phaseSt .eEnd 0 opaqueBlack 0).phase ≠ .idle := by decide

theorem witness_IllegalCommandRecorded :
    idleSt.phase = .idle ∧ (0 : Word) ≠ 1 ∧ (0 : Word) ≠ 2 ∧ (0 : Word) ≠ 3 ∧
    (4 : Word) ≠ 1 ∧ (4 : Word) ≠ 2 ∧ (4 : Word) ≠ 3 ∧
    (0xFFFFFFFF : Word) ≠ 1 ∧ (0xFFFFFFFF : Word) ≠ 2 ∧ (0xFFFFFFFF : Word) ≠ 3 := by decide

/-- In D_CHUNK and D_TAIL with `N` = 2, so that entry 2 is at `N`; and in another phase. -/
theorem witness_RaiseRecordsError :
    (phaseSt .dChunk 2 opaqueBlack 40).phase = .dChunk ∧ (phaseSt .dTail 2 opaqueBlack 40).phase = .dTail ∧
    (phaseSt .dChunk 2 opaqueBlack 40).latN ≤ 2 ∧
    ((phaseSt .eHdr 2 opaqueBlack 40).phase ≠ .dChunk ∧ (phaseSt .eHdr 2 opaqueBlack 40).phase ≠ .dTail) := by decide

theorem witness_InterruptFollowsDone :
    { idleSt with done := true }.done = true ∧ (2 : Word).getLsbD 1 = true ∧ (2 : Word).getLsbD 0 = false ∧
    (3 : Word).getLsbD 0 = true := by decide

/-- A read-only and a reserved offset; bit 1 set and clear; `IN_CAPACITY` and one more for `IN_LEN`; idle and busy. -/
theorem witness_RegisterWriteTable :
    0x5C ∈ [0x00, 0x30, 0x34, 0x38, 0x40, 0x44, 0x14, 0x18, 0x50, 0x54, 0x58, 0x5C] ∧
    (0xFC % 4 = 0 ∧ 0xFC ≤ 0xFC ∧ 0xFC ∉ [0x00, 0x04, 0x08, 0x0C, 0x10, 0x14, 0x18, 0x20, 0x24, 0x28, 0x30, 0x34, 0x38,
      0x40, 0x44, 0x50, 0x54, 0x58, 0x5C]) ∧
    (2 : Word).getLsbD 1 = true ∧ (1 : Word).getLsbD 1 = false ∧ idleSt.phase = .idle ∧
    (64 : Word).toNat = idleSt.cfg.inCapacity.toNat ∧ (65 : Word).toNat = idleSt.cfg.inCapacity.toNat + 1 ∧
    (phaseSt .dHdr 0 opaqueBlack 0).phase ≠ .idle := by decide

theorem witness_ReservedOffsets :
    ∀ off ∈ [0x1C, 0xFC], off % 4 = 0 ∧ off ≤ 0xFC ∧
      off ∉ [0x00, 0x04, 0x08, 0x0C, 0x10, 0x14, 0x18, 0x20, 0x24, 0x28, 0x30, 0x34, 0x38, 0x40, 0x44, 0x50, 0x54,
        0x58, 0x5C] := by decide

/-- A state that meets the invariant in each phase. -/
theorem inv_phaseSt :
    Machine.Inv idleSt ∧ Machine.Inv (phaseSt .pHdr 0 opaqueBlack 14) ∧ Machine.Inv (headerSt .dHdr hdr23 14) ∧
    Machine.Inv { streamSt .dChunk 2 opaqueBlack [0xC1, 0, 0, 0, 0, 0, 0, 0, 1] with latW := 2, latH := 1 } ∧
    Machine.Inv { streamSt .dTail 2 opaqueBlack endBytes with latW := 2, latH := 1, cur := 2 } ∧
    Machine.Inv (imageSt 2 2 1 [opaqueBlack]) ∧
    Machine.Inv { encSt [opaqueBlack, zeroPixel] opaqueBlack 0 0 with ctrl := 1 } ∧
    Machine.Inv { encSt [opaqueBlack] opaqueBlack 0 1 with phase := .eEnd } := by
  have h (s : State) (h : MemoriesOk s) (hw : WindowOk s) (ho : OutcomeOk s) (hp : PhaseOk s) : Machine.Inv s :=
    ⟨h, hw, ho, hp⟩
  refine ⟨h _ ?_ ?_ ?_ ?_, h _ ?_ ?_ ?_ ?_, h _ ?_ ?_ ?_ ?_, h _ ?_ ?_ ?_ ?_, h _ ?_ ?_ ?_ ?_, h _ ?_ ?_ ?_ ?_,
    h _ ?_ ?_ ?_ ?_, h _ ?_ ?_ ?_ ?_⟩ <;>
    first
    | (unfold MemoriesOk; decide)
    | (unfold WindowOk; decide)
    | (unfold OutcomeOk; decide)
    | (unfold PhaseOk; trivial)
    | (unfold PhaseOk phaseSt; dsimp only; decide)
    | (unfold PhaseOk headerSt; dsimp only; decide)

theorem witness_RegisterReads :
    regAt 0x50 = some .capIn ∧ Machine.Inv (phaseSt .pHdr 0 opaqueBlack 14) ∧
    (phaseSt .pHdr 0 opaqueBlack 14).phase ≠ .idle :=
  ⟨by decide, inv_phaseSt.2.1, by decide⟩

/-- The last byte or entry of each memory. -/
theorem witness_HostMemoryAccesses :
    idleSt.phase = .idle ∧ 63 < idleSt.cfg.inCapacity.toNat ∧ 41 < idleSt.cfg.outCapacity.toNat ∧
    3 < idleSt.cfg.pixCapacity.toNat := by decide

/-- Offset 2 and offset 0x100; a running command; the first address past each memory. -/
theorem witness_BrokenHostDutiesStop :
    2 % 4 ≠ 0 ∧ 0xFC < 0x100 ∧ (phaseSt .pHdr 0 opaqueBlack 0).phase ≠ .idle ∧ idleSt.phase = .idle ∧
    idleSt.cfg.inCapacity.toNat ≤ 64 ∧ idleSt.cfg.outCapacity.toNat ≤ 42 ∧ idleSt.cfg.pixCapacity.toNat ≤ 4 := by
  decide

/-- One image for each check: width `MAX_DIMENSION + 1`; colorspace 2; 5 pixels for 4 entries. -/
theorem witness_EncodeChecksInOrder :
    (let s := imageSt 9 0 0x200 [];
      s.phase = .eHdr ∧ s.cfg.maxDimension.toNat < s.imgWidth.toNat) ∧
    (let s := imageSt 8 8 0x200 [];
      s.phase = .eHdr ∧ ¬ (s.imgWidth = 0 ∨ s.cfg.maxDimension.toNat < s.imgWidth.toNat ∨
        s.imgHeight = 0 ∨ s.cfg.maxDimension.toNat < s.imgHeight.toNat) ∧
      s.imgFmt.extractLsb' 8 8 ≠ 0 ∧ s.imgFmt.extractLsb' 8 8 ≠ 1) ∧
    (let s := imageSt 5 1 0x101 [];
      s.phase = .eHdr ∧ ¬ (s.imgWidth = 0 ∨ s.cfg.maxDimension.toNat < s.imgWidth.toNat ∨
        s.imgHeight = 0 ∨ s.cfg.maxDimension.toNat < s.imgHeight.toNat) ∧
      ¬ (s.imgFmt.extractLsb' 8 8 ≠ 0 ∧ s.imgFmt.extractLsb' 8 8 ≠ 1) ∧
      s.cfg.pixCapacity.toNat < s.imgWidth.toNat * s.imgHeight.toNat) := by decide

/-- 2 by 2 pixels: both capacities exactly used. -/
theorem witness_EncodeHeaderStep :
    let s := imageSt 2 2 0x101 []
    s.phase = .eHdr ∧ s.opos = 0 ∧ 1 ≤ s.imgWidth.toNat ∧ s.imgWidth.toNat ≤ s.cfg.maxDimension.toNat ∧
    1 ≤ s.imgHeight.toNat ∧ s.imgHeight.toNat ≤ s.cfg.maxDimension.toNat ∧ s.imgFmt.extractLsb' 8 8 = 1 ∧
    s.imgWidth.toNat * s.imgHeight.toNat = s.cfg.pixCapacity.toNat ∧
    22 + 5 * (s.imgWidth.toNat * s.imgHeight.toNat) = s.cfg.outCapacity.toNat := by decide

/-- The run goes on (60 to 61 pixels), reaches 62, and ends with the image. -/
theorem witness_RunExtendsOrEmits :
    (∀ s ∈ [encSt [opaqueBlack, opaqueBlack] opaqueBlack 60 0, encSt [opaqueBlack, opaqueBlack] opaqueBlack 61 0,
        encSt [opaqueBlack, opaqueBlack] opaqueBlack 0 1],
      s.phase = .ePix ∧ s.cur < s.latN ∧ s.latN ≤ s.cfg.pixCapacity.toNat ∧ s.run.toNat ≤ 61 ∧
      (if s.alpha then pixAt s s.cur else { pixAt s s.cur with a := 255 }) = s.px ∧
      s.opos < s.cfg.outCapacity.toNat) ∧
    (let s := encSt [opaqueBlack, opaqueBlack] opaqueBlack 60 0;
      s.run.toNat + 1 ≠ 62 ∧ s.cur + 1 ≠ s.latN) ∧
    (encSt [opaqueBlack, opaqueBlack] opaqueBlack 61 0).run.toNat + 1 = 62 ∧
    (encSt [opaqueBlack, opaqueBlack] opaqueBlack 0 1).cur + 1 = 2 := by decide

/-- With a pending run of 7, and with none. -/
theorem witness_NonRunPixelEmits :
    ∀ s ∈ [encSt [⟨10, 20, 30, 255⟩] opaqueBlack 7 0, encSt [⟨10, 20, 30, 255⟩] opaqueBlack 0 0],
      s.phase = .ePix ∧ s.cur < s.latN ∧ s.latN ≤ s.cfg.pixCapacity.toNat ∧
      (if s.alpha then pixAt s s.cur else { pixAt s s.cur with a := 255 }) ≠ s.px ∧
      s.opos + ((if s.run = 0 then [] else [0xC0 ||| (s.run - 1).setWidth 8]) ++
        streamBytes (chooseChunk s.cache s.px ⟨10, 20, 30, 255⟩)).length ≤ s.cfg.outCapacity.toNat := by decide

/-- Each of the priorities, the ranges at their ends. -/
theorem witness_ChunkPriority :
    idleSt.cache[pixelHash zeroPixel] = zeroPixel ∧
    (idleSt.cache[pixelHash ⟨0, 0, 0, 128⟩] ≠ ⟨0, 0, 0, 128⟩ ∧ (128 : Byte) ≠ 255) ∧
    (idleSt.cache[pixelHash ⟨254, 1, 0, 255⟩] ≠ ⟨254, 1, 0, 255⟩ ∧
      channelDelta 254 0 = -2 ∧ channelDelta 1 0 = 1) ∧
    (idleSt.cache[pixelHash ⟨23, 31, 38, 255⟩] ≠ ⟨23, 31, 38, 255⟩ ∧ channelDelta 31 0 = 31 ∧
      channelDelta 23 0 - 31 = -8 ∧ channelDelta 38 0 - 31 = 7) ∧
    (idleSt.cache[pixelHash ⟨0, 32, 0, 255⟩] ≠ ⟨0, 32, 0, 255⟩ ∧ channelDelta 32 0 = 32) := by decide

theorem witness_EncodeEndStep :
    let s := { encSt [opaqueBlack] opaqueBlack 0 1 with phase := .eEnd, opos := 34 }
    s.phase = .eEnd ∧ s.opos + 8 = s.cfg.outCapacity.toNat := by decide

theorem witness_ChosenChunkReconstructs : (⟨0, 0, 0, 128⟩ : Pixel) ≠ opaqueBlack := by decide

theorem witness_EveryStepKeepsInvariant :
    Machine.Inv (headerSt .dHdr hdr23 14) ∧ nextHas (step (headerSt .dHdr hdr23 14)) (fun _ => true) = true :=
  ⟨inv_phaseSt.2.2.1, by decide⟩

theorem witness_CoreIsNeverStuck :
    Machine.Inv (imageSt 2 2 1 [opaqueBlack]) ∧ ∀ act ts, (imageSt 2 2 1 [opaqueBlack]).turns ≠ .host act :: ts :=
  ⟨inv_phaseSt.2.2.2.2.2.1, nofun⟩

theorem witness_NoStepRefuses : nextHas (step (headerSt .dHdr hdr23 14)) (fun _ => true) = true := by decide

theorem witness_EveryStepKeepsCacheLaw :
    CacheOk (streamSt .dChunk 2 opaqueBlack [0xFE, 1, 2, 3, 0, 0, 0, 0]) ∧
    nextHas (step (streamSt .dChunk 2 opaqueBlack [0xFE, 1, 2, 3, 0, 0, 0, 0])) (fun t => t.px == ⟨1, 2, 3, 255⟩)
      = true := by
  simp only [CacheOk]
  decide

/-- Each phase. -/
theorem witness_SequencerTransitions :
    (∀ s ∈ [idleSt, headerSt .pHdr hdr23 14, headerSt .dHdr hdr23 14,
        streamSt .dChunk 2 opaqueBlack [0xC1, 0, 0, 0, 0, 0, 0, 0], streamSt .dTail 2 opaqueBlack endBytes,
        imageSt 2 2 1 [], encSt [opaqueBlack, zeroPixel] opaqueBlack 0 0,
        { encSt [opaqueBlack] opaqueBlack 0 1 with phase := .eEnd }],
      nextHas (coreStep s) (fun _ => true) = true) ∧
    (streamSt .dChunk 2 opaqueBlack [0xC1, 0, 0, 0, 0, 0, 0, 0]).cur < 2 ∧
    (encSt [opaqueBlack, zeroPixel] opaqueBlack 0 0).cur < 2 := by decide

theorem witness_OnlyAcceptanceLeavesIdle :
    (readySt 2).phase = .idle ∧ nextHas (step (readySt 2)) (fun t => t.phase != .idle) = true := by decide

theorem witness_CoreWritesOnlyItsMemory :
    nextHas (coreStep (streamSt .dTail 2 opaqueBlack endBytes)) (fun _ => true) = true ∧
    nextHas (coreStep (headerSt .pHdr hdr23 14)) (fun _ => true) = true ∧
    (headerSt .pHdr hdr23 14).phase ≠ .dChunk ∧ (headerSt .pHdr hdr23 14).phase ≠ .dTail ∧
    (headerSt .pHdr hdr23 14).phase ≠ .eHdr ∧ (headerSt .pHdr hdr23 14).phase ≠ .ePix ∧
    (headerSt .pHdr hdr23 14).phase ≠ .eEnd := by decide

theorem witness_HostCannotDisturbCommand :
    (phaseSt .dHdr 0 opaqueBlack 14).phase ≠ .idle ∧
    nextHas (hostStep (.writeReg 0x10 5) (phaseSt .dHdr 0 opaqueBlack 14)) (fun t => t.inLen == 0) = true := by decide

/-- Register accesses between the core's steps: a `STATUS` read, a `CMD` write, a `CTRL` write. -/
def busyTurns : List Turn :=
  [.host (.readReg 0x0C), .core, .host (.writeReg 0x08 3), .host (.writeReg 0x04 1), .core]

theorem registerTurns_busyTurns : RegisterTurns busyTurns := by
  intro t ht
  simp only [busyTurns, List.mem_cons, List.not_mem_nil, or_false] at ht
  rcases ht with rfl | rfl | rfl | rfl | rfl
  · exact .inr ⟨0x0C, by decide, .inl rfl⟩
  · exact .inl rfl
  · exact .inr ⟨0x08, by decide, .inr ⟨3, rfl⟩⟩
  · exact .inr ⟨0x04, by decide, .inr ⟨1, rfl⟩⟩
  · exact .inl rfl

/-- `readySt`, the turns `ts` to follow the host's write. -/
def readyTurns (v : Word) (ts : List Turn) : State := { readySt v with turns := .host (.writeReg 0x08 v) :: ts }

theorem witness_DecodeEndsWithinBound :
    let s := { readySt 2 with phase := .dHdr, turns := busyTurns, len := 23 }
    s.phase = .dHdr ∧ RegisterTurns s.turns ∧ s.len.toNat ≤ s.cfg.inCapacity.toNat ∧
    1 = (be32 (byteInAt s 4) (byteInAt s 5) (byteInAt s 6) (byteInAt s 7)).toNat *
        (be32 (byteInAt s 8) (byteInAt s 9) (byteInAt s 10) (byteInAt s 11)).toNat :=
  ⟨rfl, registerTurns_busyTurns, by decide, by decide⟩

/-- And that the interleaved run ends where the claim says: 3 core steps among 6 moves. -/
theorem test_interleaved_decode_ends :
    coreMoves 6 busyTurns = 3 ∧
    nextHas (runs 6 { readySt 2 with phase := .dHdr, turns := busyTurns, len := 23 }) (fun t =>
      t.phase == .idle && t.done && t.errCode == .none && t.pixCount == 1 && t.hostData == 1 && t.ctrl == 1)
      = true := by decide

theorem witness_EncodeEndsExactly :
    let s := { imageSt 2 2 0x101 [opaqueBlack, zeroPixel, zeroPixel, opaqueBlack] with turns := busyTurns }
    s.phase = .eHdr ∧ RegisterTurns s.turns ∧ s.opos = 0 ∧ s.errCode = .none ∧
    4 = s.imgWidth.toNat * s.imgHeight.toNat ∧ 1 ≤ s.imgWidth.toNat ∧ s.imgWidth.toNat ≤ s.cfg.maxDimension.toNat ∧
    1 ≤ s.imgHeight.toNat ∧ s.imgHeight.toNat ≤ s.cfg.maxDimension.toNat ∧
    (s.imgFmt.extractLsb' 8 8 = 0 ∨ s.imgFmt.extractLsb' 8 8 = 1) ∧
    4 ≤ s.cfg.pixCapacity.toNat ∧ 22 + 5 * 4 ≤ s.cfg.outCapacity.toNat ∧
    (coreMoves 8 s.turns = 5 ∧ nextHas (runs 8 s) (fun t => t.phase == .eEnd) = true) :=
  ⟨rfl, registerTurns_busyTurns, rfl, rfl, by decide, by decide, by decide, by decide, by decide, by decide, by decide,
    by decide, by decide⟩

/-- The decode of `blackStream` with the accesses of `busyTurns`, up to its end. -/
theorem reaches_decode : ∃ t, Reaches 7 (readyTurns 2 busyTurns) t ∧ t.phase = .idle ∧ t.errCode = .none ∧
    t.pixCount = 1 := by
  have busy : ∀ j : Fin 7, 0 < j.val →
      nextHas (runs j.val (readyTurns 2 busyTurns)) (fun t => t.phase != .idle) = true := by decide
  have last : nextHas (runs 7 (readyTurns 2 busyTurns)) (fun t =>
      t.phase == .idle && t.errCode == .none && t.pixCount == 1) = true := by decide
  cases h : runs 7 (readyTurns 2 busyTurns) with
  | fault r => rw [h] at last; cases last
  | refused r => rw [h] at last; cases last
  | next t =>
    rw [h] at last
    simp only [nextHas, Bool.and_eq_true, beq_iff_eq] at last
    refine ⟨t, ⟨h, fun j u h0 hj hu => ?_⟩, last.1.1, last.1.2, last.2⟩
    have := busy ⟨j, hj⟩ h0
    simpa only [hu, nextHas, bne_iff_ne, ne_eq] using this

/-- Two states that differ in what earlier commands left and in the accesses between the core's steps. -/
theorem witness_DecodeIsDeterministic :
    let s := readyTurns 2 busyTurns
    let u := { readyTurns 2 [] with px := ⟨1, 2, 3, 4⟩, ctrl := 1, hdrWidth := 9, cfg := ⟨8, 100, 4, 42⟩ }
    s.phase = .idle ∧ u.phase = .idle ∧ s.turns = .host (.writeReg 0x08 2) :: busyTurns ∧
    u.turns = .host (.writeReg 0x08 2) :: [] ∧ RegisterTurns busyTurns ∧ RegisterTurns [] ∧
    u.cfg.maxDimension = s.cfg.maxDimension ∧ u.cfg.pixCapacity = s.cfg.pixCapacity ∧ u.inLen = s.inLen ∧
    s.inLen.toNat ≤ s.cfg.inCapacity.toNat ∧ u.inLen.toNat ≤ u.cfg.inCapacity.toNat ∧
    (∀ a, a < s.inLen.toNat → byteInAt u a = byteInAt s a) ∧
    ∃ t, Reaches (6 + 1) s t ∧ t.phase = .idle ∧ t.errCode = .none ∧ 0 < t.pixCount.toNat :=
  ⟨rfl, rfl, rfl, rfl, registerTurns_busyTurns, nofun, rfl, rfl, rfl, by decide, by decide, fun _ _ => rfl,
    reaches_decode.imp fun _ h => ⟨h.1, h.2.1, h.2.2.1, by rw [h.2.2.2]; decide⟩⟩

/-- The encode of a 1 by 1 image with the accesses of `busyTurns`, up to its end. -/
theorem reaches_encode : ∃ t, Reaches 7 (readyTurns 3 busyTurns) t ∧ t.outLen = 23 ∧
    ∀ a, a < t.outLen.toNat → byteInAt (readyTurns 2 []) a = byteOutAt t a := by
  have busy : ∀ j : Fin 7, 0 < j.val →
      nextHas (runs j.val (readyTurns 3 busyTurns)) (fun t => t.phase != .idle) = true := by decide
  have last : nextHas (runs 7 (readyTurns 3 busyTurns)) (fun t => t.outLen == 23 &&
      decide (∀ a, a < t.outLen.toNat → byteInAt (readyTurns 2 []) a = byteOutAt t a)) = true := by decide
  cases h : runs 7 (readyTurns 3 busyTurns) with
  | fault r => rw [h] at last; cases last
  | refused r => rw [h] at last; cases last
  | next t =>
    rw [h] at last
    simp only [nextHas, Bool.and_eq_true, beq_iff_eq, decide_eq_true_eq] at last
    refine ⟨t, ⟨h, fun j u h0 hj hu => ?_⟩, last⟩
    have := busy ⟨j, hj⟩ h0
    simpa only [hu, nextHas, bne_iff_ne, ne_eq] using this

theorem witness_EncodeIsDeterministic :
    let s := readyTurns 3 busyTurns
    let u := { readyTurns 3 [] with px := ⟨1, 2, 3, 4⟩, ctrl := 1, hdrWidth := 9 }
    s.phase = .idle ∧ u.phase = .idle ∧ s.turns = .host (.writeReg 0x08 3) :: busyTurns ∧
    u.turns = .host (.writeReg 0x08 3) :: [] ∧ RegisterTurns busyTurns ∧ RegisterTurns [] ∧
    u.cfg = s.cfg ∧ u.imgWidth = s.imgWidth ∧ u.imgHeight = s.imgHeight ∧ u.imgFmt = s.imgFmt ∧
    (∀ i, i < s.imgWidth.toNat * s.imgHeight.toNat → pixAt u i = pixAt s i) ∧
    ∃ t, Reaches (6 + 1) s t ∧ 0 < t.outLen.toNat :=
  ⟨rfl, rfl, rfl, rfl, registerTurns_busyTurns, nofun, rfl, rfl, rfl, rfl, fun _ _ => rfl,
    reaches_encode.imp fun _ h => ⟨h.1, by rw [h.2.1]; decide⟩⟩

/-- A 1 by 1 image, and for the inner hypotheses the state with its stream in `BYTE_IN`. -/
theorem witness_RoundTripLaw :
    let s := readyTurns 3 busyTurns
    let u := readyTurns 2 []
    (s.phase = .idle ∧ s.turns = .host (.writeReg 0x08 3) :: busyTurns ∧ RegisterTurns busyTurns ∧
      1 = s.imgWidth.toNat * s.imgHeight.toNat ∧ 1 ≤ s.imgWidth.toNat ∧ s.imgWidth.toNat ≤ s.cfg.maxDimension.toNat ∧
      1 ≤ s.imgHeight.toNat ∧ s.imgHeight.toNat ≤ s.cfg.maxDimension.toNat ∧
      (s.imgFmt.extractLsb' 8 8 = 0 ∨ s.imgFmt.extractLsb' 8 8 = 1) ∧ 1 ≤ s.cfg.pixCapacity.toNat ∧
      22 + 5 * 1 ≤ s.cfg.outCapacity.toNat) ∧
    (u.phase = .idle ∧ u.turns = .host (.writeReg 0x08 2) :: [] ∧ RegisterTurns [] ∧ u.cfg = s.cfg ∧
      ∃ t, Reaches (6 + 1) s t ∧ u.inLen = t.outLen ∧ t.outLen.toNat ≤ s.cfg.inCapacity.toNat ∧
        ∀ a, a < t.outLen.toNat → byteInAt u a = byteOutAt t a) :=
  ⟨⟨rfl, rfl, registerTurns_busyTurns, by decide, by decide, by decide, by decide, by decide, by decide, by decide,
      by decide⟩,
    rfl, rfl, nofun, rfl, reaches_encode.imp fun _ h => ⟨h.1, h.2.1.symm, by rw [h.2.1]; decide, h.2.2⟩⟩

end Sys2Proof.Tests
end

section
/-! PROOFS. The family 00_scope.md: the wrapped channel arithmetic (R7, R8, R169), and that no step refuses an
instruction or changes a parameter (R5, R196, R212). -/

namespace Sys2Proof.Machine

/-! ### Wrapped arithmetic (R7, R8) -/

theorem u8_toNat (c : Byte) : u8 c.toNat = c := by simp [u8]

theorem u8_add (v w : Int) : u8 (v + w) = u8 v + u8 w := BitVec.ofInt_add v w

theorem u8_sub (v w : Int) : u8 (v - w) = u8 v - u8 w := by
  rw [eq_sub_iff_add_eq, ← u8_add, sub_add_cancel]

theorem u8_s8 (v : Int) : u8 (s8 v) = u8 v := BitVec.ofInt_toInt

theorem s8_range (v : Int) : -128 ≤ s8 v ∧ s8 v ≤ 127 :=
  ⟨BitVec.le_toInt (u8 v), Int.le_of_lt_add_one (BitVec.toInt_lt (x := u8 v))⟩

theorem s8_sub_self_emod (v : Int) : (s8 v - v) % 256 = 0 := by
  have hv : s8 v = v.bmod 256 := BitVec.toInt_ofInt v
  rw [hv]
  exact Int.emod_eq_emod_iff_emod_sub_eq_zero.1 (Int.bmod_emod (m := 256))

/-- The residual moves `q` back to `p`: in the byte's own arithmetic it is `q + (p - q)`. -/
theorem addDelta_channelDelta (p q : Byte) : addDelta q (channelDelta p q) = p := by
  rw [addDelta, channelDelta, u8_add, u8_s8, u8_sub, u8_toNat, u8_toNat, add_sub_cancel]

/-! ### Answers that are no refusal and keep the parameters -/

/-- The outcome is no refusal, and a next state has the parameters `p`. -/
def KeepsParams (p : Params) : Result → Prop
  | .next t => t.cfg = p
  | .fault _ => True
  | .refused _ => False

section

variable {p : Params} {s : State} {o : Result}

theorem keepsParams_iff : KeepsParams p o ↔ (∀ r, o ≠ .refused r) ∧ ∀ t, o = .next t → t.cfg = p := by
  cases o <;> simp [KeepsParams]

theorem keepsParams_ite {c : Prop} [Decidable c] {a b : Result} (ha : KeepsParams p a) (hb : KeepsParams p b) :
    KeepsParams p (if c then a else b) := by split <;> assumption

theorem keepsParams_andThen {k : State → Result} (ho : KeepsParams p o)
    (hk : ∀ t, t.cfg = p → KeepsParams p (k t)) : KeepsParams p (andThen o k) := by
  cases o with
  | next t => exact hk t ho
  | fault r => trivial
  | refused r => exact ho

/-! ### The shared operations -/

theorem putPixels_keepsParams (ps : List Pixel) (h : s.cfg = p) : KeepsParams p (putPixels ps s) :=
  keepsParams_ite h trivial

theorem emitInstr_keepsParams (i : Instr) (h : s.cfg = p) : KeepsParams p (emitInstr i s) :=
  keepsParams_ite h trivial

theorem whenIdle_keepsParams {f : State → State} (hf : (f s).cfg = s.cfg) : KeepsParams s.cfg (whenIdle f s) :=
  keepsParams_ite rfl hf

end

/-! ### The instructions, in the phases that execute them (R196) -/

section

variable {s : State}

/-- Putting pixels ends a chunk: INDEX, a RUN that fits, and the chunks that make a pixel. -/
theorem putChunk_keepsParams {p : Params} (ps : List Pixel) (k : Nat) (h : s.cfg = p) :
    KeepsParams p (andThen (putPixels ps s) (fun t => .next (endChunk k t))) :=
  keepsParams_andThen (putPixels_keepsParams ps h) fun _ ht => ht

theorem exec_chunk_keepsParams {i : Instr} (hi : i.isChunk = true) (hp : s.phase = .dChunk) :
    KeepsParams s.cfg (exec i s) := by
  have inPhase : ∀ o, KeepsParams s.cfg o → KeepsParams s.cfg (inChunkPhase s o) := fun o ho =>
    (inChunkPhase_of s o hp).symm ▸ ho
  cases i with
  | rgb r g b => exact inPhase _ (putChunk_keepsParams _ _ rfl)
  | rgba r g b a => exact inPhase _ (putChunk_keepsParams _ _ rfl)
  | index k => exact inPhase _ (putChunk_keepsParams _ _ rfl)
  | diff dr dg db => exact inPhase _ (putChunk_keepsParams _ _ rfl)
  | luma dg drDg dbDg => exact inPhase _ (putChunk_keepsParams _ _ rfl)
  | run n => exact inPhase _ (keepsParams_ite rfl (putChunk_keepsParams _ _ rfl))
  | endMarker => cases hi
  | header w h ch c => cases hi
  | cmdParse => cases hi
  | cmdDecode => cases hi
  | cmdEncode => cases hi
  | cmdIllegal v => cases hi

theorem exec_endMarker_keepsParams (hp : s.phase = .dChunk ∨ s.phase = .dTail) :
    KeepsParams s.cfg (exec .endMarker s) := by
  rcases hp with hp | hp <;> simp only [exec, execEndMarker, hp]
  · exact raise_cfg _ _
  · exact keepsParams_ite rfl rfl

theorem exec_header_keepsParams (w h : Word) (ch c : Byte) (hp : s.phase = .pHdr ∨ s.phase = .dHdr) :
    KeepsParams s.cfg (exec (.header w h ch c) s) := by
  rcases hp with hp | hp <;> simp only [exec, execHeader, hp]
  · unfold parseOnly; split <;> exact rfl
  · unfold startDecode; split
    · exact keepsParams_ite rfl rfl
    · exact raise_cfg _ _

/-- A `CMD` write of any value is one of the four commands (R95). -/
theorem exec_decodeCommand_keepsParams (v : Word) (s : State) : KeepsParams s.cfg (exec (decodeCommand v) s) := by
  unfold decodeCommand
  split
  · exact whenIdle_keepsParams (accept_cfg _ _)
  split
  · exact whenIdle_keepsParams (accept_cfg _ _)
  split
  · exact whenIdle_keepsParams (accept_cfg _ _)
  · exact whenIdle_keepsParams (rejectCommand_cfg _)

end

/-! ### The core's steps -/

/-- The header position decodes to a header and to nothing else. -/
theorem decodeHeader_kind {bs rest : List Byte} {i : Instr} (h : decodeHeader bs = .ok (i, rest)) :
    ∃ w h ch c, i = .header w h ch c := by
  unfold decodeHeader at h
  split at h
  · split at h
    · injection h with h; injection h with h _
      exact ⟨_, _, _, _, h.symm⟩
    · cases h
  · cases h

section

variable {s : State}

theorem stepHeader_keepsParams (hp : s.phase = .pHdr ∨ s.phase = .dHdr) : KeepsParams s.cfg (stepHeader s) := by
  refine keepsParams_ite (raise_cfg _ _) ?_
  split
  · trivial
  · split
    · rename_i hd
      obtain ⟨w, h, ch, c, rfl⟩ := decodeHeader_kind hd
      exact exec_header_keepsParams w h ch c hp
    · exact raise_cfg _ _
    · exact raise_cfg _ _

theorem stepChunk_keepsParams (hp : s.phase = .dChunk) : KeepsParams s.cfg (stepChunk s) := by
  refine keepsParams_ite (raise_cfg _ _) ?_
  split
  · trivial
  · split
    · rename_i hd
      rcases decodeChunk_kind hd with rfl | hi
      · exact exec_endMarker_keepsParams (.inl hp)
      · exact exec_chunk_keepsParams hi hp
    · exact raise_cfg _ _

theorem stepTail_keepsParams (hp : s.phase = .dTail) : KeepsParams s.cfg (stepTail s) := by
  refine keepsParams_ite (raise_cfg _ _) ?_
  split
  · trivial
  · exact keepsParams_ite (exec_endMarker_keepsParams (.inr hp)) (raise_cfg _ _)

theorem stepEHdr_keepsParams (s : State) : KeepsParams s.cfg (stepEHdr s) := by
  unfold stepEHdr
  split
  · exact keepsParams_ite rfl (keepsParams_andThen (emitInstr_keepsParams _ rfl) fun _ ht => ht)
  · exact raise_cfg _ _

theorem extendRun_keepsParams (last : Bool) (s : State) : KeepsParams s.cfg (extendRun last s) :=
  keepsParams_ite (keepsParams_andThen (emitInstr_keepsParams _ rfl) fun _ ht => ht) rfl

theorem flushRun_keepsParams (s : State) : KeepsParams s.cfg (flushRun s) :=
  keepsParams_ite rfl (keepsParams_andThen (emitInstr_keepsParams _ rfl) fun _ ht => ht)

theorem encodePixel_keepsParams (q : Pixel) (s : State) : KeepsParams s.cfg (encodePixel q s) :=
  keepsParams_andThen (flushRun_keepsParams s) fun _ ht =>
    keepsParams_andThen (emitInstr_keepsParams _ ht) fun _ hu => hu

theorem stepEPix_keepsParams (s : State) : KeepsParams s.cfg (stepEPix s) := by
  unfold stepEPix
  split
  · trivial
  · exact keepsParams_andThen (keepsParams_ite (extendRun_keepsParams _ s) (encodePixel_keepsParams _ s))
      fun _ ht => ht

theorem stepEEnd_keepsParams (s : State) : KeepsParams s.cfg (stepEEnd s) :=
  keepsParams_andThen (emitInstr_keepsParams _ rfl) fun _ ht => ht

theorem coreStep_keepsParams (s : State) : KeepsParams s.cfg (coreStep s) := by
  unfold coreStep
  split <;> rename_i hp
  · exact rfl
  · exact stepHeader_keepsParams (.inl hp)
  · exact stepHeader_keepsParams (.inr hp)
  · exact stepChunk_keepsParams hp
  · exact stepTail_keepsParams hp
  · exact stepEHdr_keepsParams s
  · exact stepEPix_keepsParams s
  · exact stepEEnd_keepsParams s

end

/-! ### The host's actions and the whole step -/

theorem regWrite_keepsParams (r : Reg) (v : Word) (s : State) : KeepsParams s.cfg (regWrite r v s) := by
  cases r with
  | cmd => exact exec_decodeCommand_keepsParams v s
  | inLen => exact keepsParams_ite rfl rfl
  | imgWidth => exact keepsParams_ite rfl rfl
  | imgHeight => exact keepsParams_ite rfl rfl
  | imgFmt => exact keepsParams_ite rfl rfl
  | _ => exact rfl

theorem hostMemory_keepsParams (a : Nat) (cap : Word) {s t : State} (h : t.cfg = s.cfg) :
    KeepsParams s.cfg (hostMemory a cap s t) :=
  keepsParams_ite trivial (keepsParams_ite h trivial)

theorem hostStep_keepsParams (act : HostAction) (s : State) : KeepsParams s.cfg (hostStep act s) := by
  cases act with
  | readReg off =>
    simp only [hostStep]
    split
    · trivial
    · exact rfl
  | writeReg off v =>
    simp only [hostStep]
    split
    · trivial
    · exact regWrite_keepsParams _ v s
  | readIn a => exact hostMemory_keepsParams a _ rfl
  | writeIn a b => exact hostMemory_keepsParams a _ rfl
  | readOut a => exact hostMemory_keepsParams a _ rfl
  | writeOut a b => exact hostMemory_keepsParams a _ rfl
  | readPix i => exact hostMemory_keepsParams i _ rfl
  | writePix i v => exact hostMemory_keepsParams i _ rfl

theorem step_keepsParams (s : State) : KeepsParams s.cfg (step s) := by
  unfold step
  split
  · exact coreStep_keepsParams s
  · exact coreStep_keepsParams _
  · exact hostStep_keepsParams _ _
  · exact resetStep_cfg _

/-! ### The statements -/

/-- Settles O7: the residual is the two's-complement reading of the byte difference, so it lies in a byte's signed
range, agrees with the difference modulo 256, and moves the one channel to the other. -/
theorem deltaIsWrappedDifference : Obligations.DeltaIsWrappedDifference := by
  intro p q
  have ⟨hlo, hhi⟩ := s8_range ((p.toNat : Int) - q.toNat)
  exact ⟨hlo, hhi, s8_sub_self_emod _, addDelta_channelDelta p q⟩

/-- Settles O50: every phase's step runs only instructions that the phase executes, and no update of the state
writes the parameters. -/
theorem noStepRefuses : Obligations.NoStepRefuses := fun s => keepsParams_iff.1 (step_keepsParams s)

end Sys2Proof.Machine
end

section
/-! PROOFS. The family 10_state.md: every move keeps the invariant (R39, R41, R76, R178, R198); the hash (R38), the
header that starts a decode (R131), the bits of `STATUS` (R24) and the host's register reads (R34, R198). -/

namespace Sys2Proof.Machine

/-! ### Memories inside their capacities (R61, R62, R64) -/

/-- A memory in canonical form with every cell below `cap`. -/
def Memory.Within {α : Type} (cap : Nat) (m : Memory α) : Prop := Memory.wf m ∧ ∀ c ∈ m, c.1 < cap

section

variable {α : Type} {cap : Nat} {m : Memory α} (h : Memory.Within cap m)

include h

theorem Memory.Within.writeList {a : Nat} {vs : List α} (ha : a + vs.length ≤ cap) :
    Memory.Within cap (Memory.writeList m a vs) :=
  ⟨Memory.writeList_wf m vs a h.1, fun c hc =>
    (Memory.mem_writeList m hc).elim (fun hlt => Nat.lt_of_lt_of_le hlt.2 ha) (h.2 c)⟩

theorem Memory.Within.redraw {n : Nat} (f : Nat → α) (hn : n ≤ cap) :
    Memory.Within cap (Memory.redraw m n f) :=
  ⟨Memory.redraw_wf m n f h.1, fun c hc =>
    (Memory.mem_redraw m hc).elim (fun hlt => Nat.lt_of_lt_of_le hlt hn) (h.2 c)⟩

end

theorem memoriesOk_iff {s : State} :
    MemoriesOk s ↔ Memory.Within s.cfg.inCapacity.toNat s.byteIn ∧ Memory.Within s.cfg.pixCapacity.toNat s.pix ∧
      Memory.Within s.cfg.outCapacity.toNat s.byteOut := by
  unfold MemoriesOk Memory.Within; tauto

section

variable {s : State} (h : MemoriesOk s)

include h

theorem MemoriesOk.writeIn {a : Nat} {bs : List Byte} (ha : a + bs.length ≤ s.cfg.inCapacity.toNat) :
    MemoriesOk { s with byteIn := Memory.writeList s.byteIn a bs } := by
  obtain ⟨hin, hpix, hout⟩ := memoriesOk_iff.1 h
  exact memoriesOk_iff.2 ⟨hin.writeList ha, hpix, hout⟩

theorem MemoriesOk.writePix {a : Nat} {ps : List Pixel} (ha : a + ps.length ≤ s.cfg.pixCapacity.toNat) :
    MemoriesOk { s with pix := Memory.writeList s.pix a ps } := by
  obtain ⟨hin, hpix, hout⟩ := memoriesOk_iff.1 h
  exact memoriesOk_iff.2 ⟨hin, hpix.writeList ha, hout⟩

theorem MemoriesOk.writeOut {a : Nat} {bs : List Byte} (ha : a + bs.length ≤ s.cfg.outCapacity.toNat) :
    MemoriesOk { s with byteOut := Memory.writeList s.byteOut a bs } := by
  obtain ⟨hin, hpix, hout⟩ := memoriesOk_iff.1 h
  exact memoriesOk_iff.2 ⟨hin, hpix, hout.writeList ha⟩

theorem MemoriesOk.raise (e : ErrorCode) : MemoriesOk (raise e s) := by
  obtain ⟨hin, hpix, hout⟩ := memoriesOk_iff.1 h
  refine memoriesOk_iff.2 ⟨hin, ?_, hout⟩
  rw [raise_pix]
  split
  · exact hpix.redraw _ (Nat.min_le_right _ _)
  · exact hpix

end

/-! ### The fields of the window (R22, R24, R25, R27, R29) -/

theorem and_and_eq_zero {m k : Word} (hmk : m &&& k = 0) (x : Word) : x &&& m &&& k = 0 := by
  rw [BitVec.and_assoc, hmk]; exact BitVec.and_zero

/-- A header writes the low 17 bits, the mask covers the other 15. -/
theorem hdrFmtOf_reserved (ch c : Byte) : hdrFmtOf ch c &&& 0xFFFE0000 = 0 := by
  have fields : hdrFmtOf ch c = (0 : BitVec 15) ++ (BitVec.ofBool (ch == 4) ++ c ++ ch : BitVec 17) :=
    BitVec.setWidth_eq_append (by decide)
  rw [fields, show (0xFFFE0000 : Word) = (0x7FFF : BitVec 15) ++ (0 : BitVec 17) by decide, BitVec.and_append]
  simp

theorem hdrFmtOf_channels (ch c : Byte) : (hdrFmtOf ch c).extractLsb' 0 8 = ch := by
  rw [hdrFmtOf, BitVec.extractLsb'_setWidth_of_le (by decide), BitVec.extractLsb'_append_eq_right]

theorem hdrFmtOf_hasAlpha (ch c : Byte) : (hdrFmtOf ch c).getLsbD 16 = (ch == 4) := by
  simp only [hdrFmtOf, BitVec.getLsbD_setWidth, BitVec.getLsbD_append, BitVec.getLsbD_ofBool]
  simp

theorem busy_eq_true {s : State} : busy s = true ↔ s.phase ≠ .idle := by simp [busy]

theorem errFlag_eq_true {s : State} : errFlag s = true ↔ s.errCode ≠ .none := by
  unfold errFlag; cases s.errCode <;> decide

theorem statusWord_flags (s : State) :
    (statusWord s).getLsbD 0 = busy s ∧ (statusWord s).getLsbD 1 = s.done ∧
      (statusWord s).getLsbD 2 = errFlag s := by
  simp only [statusWord, BitVec.getLsbD_setWidth, BitVec.getLsbD_append, BitVec.getLsbD_ofBool]
  simp

theorem statusWord_errCode (s : State) : (statusWord s).extractLsb' 8 4 = s.errCode.number := by
  rw [statusWord, BitVec.extractLsb'_setWidth_of_le (by decide)]
  iterate 3 rw [BitVec.extractLsb'_append_eq_of_le (by decide)]
  exact BitVec.extractLsb'_append_eq_left

theorem statusWord_middle (s : State) : (statusWord s).extractLsb' 3 5 = 0 := by
  rw [statusWord, BitVec.extractLsb'_setWidth_of_le (by decide)]
  iterate 3 rw [BitVec.extractLsb'_append_eq_of_le (by decide)]
  exact BitVec.extractLsb'_append_eq_right

theorem statusWord_high (s : State) : (statusWord s).extractLsb' 12 20 = 0 := by
  rw [statusWord, BitVec.setWidth_eq_append (by decide)]
  exact BitVec.extractLsb'_append_eq_left

section

variable {s : State} (h : WindowOk s)

include h

theorem WindowOk.setHeaderRegs (w v : Word) (ch c : Byte) : WindowOk (setHeaderRegs w v ch c s) := by
  obtain ⟨hctrl, himg, -, -, hlen⟩ := h
  refine ⟨hctrl, himg, hdrFmtOf_reserved ch c, ?_, hlen⟩
  rw [setHeaderRegs_hdrFmt, hdrFmtOf_hasAlpha, hdrFmtOf_channels, beq_iff_eq]

theorem WindowOk.setCtrl (v : Word) : WindowOk { s with ctrl := v &&& 1 } := by
  obtain ⟨-, himg, hhdr, halpha, hlen⟩ := h
  exact ⟨and_and_eq_zero (by decide) v, himg, hhdr, halpha, hlen⟩

theorem WindowOk.setImgFmt (v : Word) : WindowOk { s with imgFmt := v &&& 0xFF01 } := by
  obtain ⟨hctrl, -, hhdr, halpha, hlen⟩ := h
  exact ⟨hctrl, and_and_eq_zero (by decide) v, hhdr, halpha, hlen⟩

theorem WindowOk.setInLen (v : Word) : WindowOk { s with inLen := clampLen s.cfg v } := by
  obtain ⟨hctrl, himg, hhdr, halpha, -⟩ := h
  exact ⟨hctrl, himg, hhdr, halpha, (clampLen_toNat s.cfg v).trans_le (Nat.min_le_right _ _)⟩

end

/-! ### The outcome registers (R30, R31, R32, R198) -/

/-- While a command runs every outcome register reads 0. -/
theorem OutcomeOk.of_busy {s : State} (h : OutcomeOk s) (hb : s.phase ≠ .idle) :
    s.done = false ∧ s.errCode = .none ∧ s.errPos = 0 ∧ s.errPix = 0 ∧ s.pixCount = 0 ∧ s.outLen = 0 := by
  obtain ⟨hrun, -, hpos⟩ := h
  obtain ⟨hdone, herr, hpix, hlen⟩ := hrun hb
  exact ⟨hdone, herr, (hpos herr).1, (hpos herr).2, hpix, hlen⟩

/-- A running command that keeps the outcome registers keeps them right, whatever phase it goes to. -/
theorem OutcomeOk.of_same {s t : State} (h : OutcomeOk s) (hb : s.phase ≠ .idle) (hr : SameResultRegs s t) :
    OutcomeOk t := by
  obtain ⟨hdone, herr, hpos, hpix, hcount, hlen⟩ := h.of_busy hb
  obtain ⟨rdone, rerr, rpos, rpix, rcount, rlen⟩ := hr
  exact ⟨fun _ => ⟨rdone.trans hdone, rerr.trans herr, rcount.trans hcount, rlen.trans hlen⟩,
    fun _ => ⟨rcount.trans hcount, rlen.trans hlen⟩, fun _ => ⟨rpos.trans hpos, rpix.trans hpix⟩⟩

/-! ### The invariant by phase -/

section

variable {s : State}

theorem phaseOk_idle (hp : s.phase = .idle) : PhaseOk s := by simp only [PhaseOk, hp]

theorem phaseOk_header (hp : s.phase = .pHdr ∨ s.phase = .dHdr) :
    PhaseOk s ↔ s.len.toNat ≤ s.cfg.inCapacity.toNat := by
  rcases hp with hp | hp <;> simp only [PhaseOk, hp]

theorem phaseOk_dChunk (hp : s.phase = .dChunk) : PhaseOk s ↔ DecodeOk s ∧ s.cur < s.latN := by
  simp only [PhaseOk, hp]

theorem phaseOk_dTail (hp : s.phase = .dTail) : PhaseOk s ↔ DecodeOk s ∧ s.cur = s.latN := by
  simp only [PhaseOk, hp]

theorem phaseOk_eHdr (hp : s.phase = .eHdr) : PhaseOk s ↔ s.opos = 0 := by
  simp only [PhaseOk, hp]

theorem phaseOk_ePix (hp : s.phase = .ePix) : PhaseOk s ↔ EncodeOk s ∧ s.cur < s.latN := by
  simp only [PhaseOk, hp]

theorem phaseOk_eEnd (hp : s.phase = .eEnd) : PhaseOk s ↔ EncodeOk s ∧ s.cur = s.latN ∧ s.run = 0 := by
  simp only [PhaseOk, hp]

/-! ### The ends of a command -/

theorem raise_inv {e : ErrorCode} (hmem : MemoriesOk s) (hwin : WindowOk s) (he : e ≠ .none) : Inv (raise e s) :=
  ⟨hmem.raise e, hwin, ⟨fun hb => absurd rfl hb, fun _ => ⟨rfl, rfl⟩, fun hn => absurd hn he⟩, phaseOk_idle rfl⟩

theorem finish_inv (hmem : MemoriesOk s) (hwin : WindowOk s) (herr : s.errCode = .none) (hpos : s.errPos = 0)
    (hpix : s.errPix = 0) : Inv (finish s) :=
  ⟨hmem, hwin, ⟨fun hb => absurd rfl hb, fun hn => absurd herr hn, fun _ => ⟨hpos, hpix⟩⟩, phaseOk_idle rfl⟩

/-! ### The header checks (R114, R115, R116) -/

theorem badChannels_eq_false {ch : Byte} : badChannels ch = false ↔ ch = 3 ∨ ch = 4 := by
  simp [badChannels, or_iff_not_imp_left]

theorem badColorspace_eq_false {c : Byte} : badColorspace c = false ↔ c = 0 ∨ c = 1 := by
  simp [badColorspace, or_iff_not_imp_left]

theorem badDimension_eq_false {p : Params} {v : Word} :
    badDimension p v = false ↔ 1 ≤ v.toNat ∧ v.toNat ≤ p.maxDimension.toNat := by
  simp only [badDimension, Bool.or_eq_false_iff, beq_eq_false_iff_ne, decide_eq_false_iff_not]
  bv_omega

/-- An image whose dimensions pass has a pixel. -/
theorem pixelTotal_pos {p : Params} {w h : Word} (hw : badDimension p w = false) (hh : badDimension p h = false) :
    0 < w.toNat * h.toNat :=
  Nat.mul_pos (badDimension_eq_false.1 hw).1 (badDimension_eq_false.1 hh).1

/-! ### The decoder's steps -/

theorem headerMove_inv {t : State} (h : Inv s) (hp : s.phase = .pHdr ∨ s.phase = .dHdr) (hm : HeaderMove s t)
    (hl : t.phase = .dChunk → 14 ≤ s.len.toNat) : Inv t := by
  obtain ⟨hmem, hwin, hout, hph⟩ := h
  have hb : s.phase ≠ .idle := hp.elim (·.trans_ne nofun) (·.trans_ne nofun)
  cases hm with
  | failed e he => exact raise_inv hmem hwin he
  | parsed w h ch c =>
    obtain ⟨-, herr, hpos, hpix, -, -⟩ := hout.of_busy hb
    exact finish_inv hmem (hwin.setHeaderRegs w h ch c) herr hpos hpix
  | tooBig w h ch c => exact raise_inv hmem (hwin.setHeaderRegs w h ch c) nofun
  | started w h ch c _ hv hN =>
    obtain ⟨-, -, hw, hh⟩ := headerError_eq_none.1 hv
    have hlen : s.len.toNat ≤ s.cfg.inCapacity.toNat := (phaseOk_header hp).1 hph
    exact ⟨hmem, hwin.setHeaderRegs w h ch c, hout.of_same hb ⟨rfl, rfl, rfl, rfl, rfl, rfl⟩,
      (phaseOk_dChunk rfl).2 ⟨⟨hlen, Nat.le_refl 14, hl rfl, rfl, hN⟩, pixelTotal_pos hw hh⟩⟩

/-- The end of a chunk of `k` bytes that has put its pixels. -/
theorem endChunk_inv {k : Nat} (hmem : MemoriesOk s) (hwin : WindowOk s) (hout : OutcomeOk s)
    (hp : s.phase = .dChunk) (hdec : DecodeOk s) (hk : s.ipos + k ≤ s.len.toNat) (hcur : s.cur ≤ s.latN) :
    Inv (endChunk k s) := by
  obtain ⟨hlen, hpos, -, hN, hcap⟩ := hdec
  have hdec' : DecodeOk (endChunk k s) := ⟨hlen, Nat.le_add_right_of_le hpos, hk, hN, hcap⟩
  have hb : s.phase ≠ .idle := hp.trans_ne nofun
  refine ⟨hmem, hwin, hout.of_same hb ⟨rfl, rfl, rfl, rfl, rfl, rfl⟩, ?_⟩
  by_cases hend : s.cur = s.latN
  · exact (phaseOk_dTail (if_pos hend)).2 ⟨hdec', hend⟩
  · exact (phaseOk_dChunk ((if_neg hend).trans hp)).2 ⟨hdec', Nat.lt_of_le_of_ne hcur hend⟩

theorem size_le_of_isChunk {i : Instr} (hi : i.isChunk = true) : i.size ≤ 5 := by
  cases i <;> simp_all [Instr.isChunk, Instr.size]

theorem chunkMove_inv {i : Instr} {t : State} (h : Inv s) (hp : s.phase = .dChunk) (hi : i.isChunk = true)
    (hl : 8 ≤ s.len.toNat - s.ipos) (hm : ChunkMove i s t) : Inv t := by
  obtain ⟨hmem, hwin, hout, hph⟩ := h
  obtain ⟨hdec, hcur⟩ := (phaseOk_dChunk hp).1 hph
  have hb : s.phase ≠ .idle := hp.trans_ne nofun
  have hsize := size_le_of_isChunk hi
  cases hm with
  | made _ hc =>
    exact endChunk_inv (hmem.writePix (ps := [_]) hc) hwin hout hp hdec
      (show s.ipos + i.size ≤ s.len.toNat by omega) hcur
  | indexed k _ hc =>
    exact endChunk_inv (hmem.writePix (ps := [_]) hc) hwin hout hp hdec
      (show s.ipos + 1 ≤ s.len.toNat by omega) hcur
  | ran n _ hn hc =>
    exact endChunk_inv (hmem.writePix (by rwa [List.length_replicate])) hwin hout hp hdec
      (show s.ipos + 1 ≤ s.len.toNat by omega) hn
  | overflowed => exact raise_inv hmem hwin nofun

/-! ### The encoder's steps -/

theorem streamBytes_length (i : Instr) : (streamBytes i).length = i.size := by cases i <;> rfl

theorem chooseChunk_isChunk (cache : Vector Pixel 64) (px p : Pixel) : (chooseChunk cache px p).isChunk = true := by
  unfold chooseChunk deltaChunk
  dsimp only
  repeat' split
  all_goals rfl

/-- A pixel takes at most 5 bytes beside the pending run's one (R178). -/
theorem pixelBytes_length_le (s : State) (p : Pixel) :
    (pixelBytes s p).length ≤ (if s.run = 0 then 0 else 1) + 5 := by
  have hchunk := size_le_of_isChunk (chooseChunk_isChunk s.cache s.px p)
  rw [pixelBytes, List.length_append, streamBytes_length]
  split
  · simpa using hchunk
  · exact Nat.add_le_add_left hchunk 1

/-- One pixel's worth of progress: at most 5 bytes more, those of a pending run counted as written (R178). -/
theorem EncodeOk.advance {t : State} (h : EncodeOk s) (hcfg : SameParams s t) (hlat : SameLatches s t)
    (hrun : t.run.toNat ≤ 61) (hcur : t.cur = s.cur + 1)
    (hopos : t.opos + (if t.run = 0 then 0 else 1) ≤ s.opos + (if s.run = 0 then 0 else 1) + 5) : EncodeOk t := by
  obtain ⟨hN, hpix, hcap, -, hle⟩ := h
  obtain ⟨hW, hH, hN', -⟩ := hlat
  refine ⟨by rw [hN', hW, hH, hN], by rwa [hN', hcfg], by rwa [hN', hcfg], hrun, ?_⟩
  rw [hcur]; omega

/-- The pixel advance, after the step's bytes are emitted; the last pixel leaves no run pending. -/
theorem advancePixel_inv (hmem : MemoriesOk s) (hwin : WindowOk s) (hout : OutcomeOk s) (hp : s.phase = .ePix)
    (henc : EncodeOk (advancePixel s)) (hcur : s.cur < s.latN) (hlast : s.cur + 1 = s.latN → s.run = 0) :
    Inv (advancePixel s) := by
  have hb : s.phase ≠ .idle := hp.trans_ne nofun
  refine ⟨hmem, hwin, hout.of_same hb ⟨rfl, rfl, rfl, rfl, rfl, rfl⟩, ?_⟩
  by_cases hend : s.cur + 1 = s.latN
  · exact (phaseOk_eEnd (if_pos hend)).2 ⟨henc, hend, hlast hend⟩
  · exact (phaseOk_ePix ((if_neg hend).trans hp)).2 ⟨henc, Nat.lt_of_le_of_ne hcur hend⟩

theorem pixelMove_inv {t : State} (h : Inv s) (hp : s.phase = .ePix) (hm : PixelMove s t) : Inv t := by
  obtain ⟨hmem, hwin, hout, hph⟩ := h
  obtain ⟨henc, hcur⟩ := (phaseOk_ePix hp).1 hph
  have latches : ∀ u : State, SameLatches u u := fun _ => ⟨rfl, rfl, rfl, rfl, rfl, rfl⟩
  cases hm with
  | counted _ hr hl =>
    obtain ⟨-, -, -, hrun, -⟩ := id henc
    refine advancePixel_inv hmem hwin hout hp (henc.advance rfl (latches s) ?_ rfl ?_) hcur
      (fun hend => absurd hend hl)
    · show (s.run + 1).toNat ≤ 61
      bv_omega
    · show s.opos + (if s.run + 1 = 0 then 0 else 1) ≤ _
      split <;> omega
  | runEmitted _ _ ho =>
    refine advancePixel_inv (hmem.writeOut (bs := [_]) ho) hwin hout hp
      (henc.advance rfl (latches s) (Nat.zero_le 61) rfl ?_) hcur (fun _ => rfl)
    show s.opos + 1 + 0 ≤ _
    omega
  | emitted p _ _ ho =>
    have hlen := pixelBytes_length_le s p
    refine advancePixel_inv (hmem.writeOut ho) hwin hout hp
      (henc.advance rfl (latches s) (Nat.zero_le 61) rfl ?_) hcur (fun _ => rfl)
    show s.opos + (pixelBytes s p).length + 0 ≤ _
    omega

/-! ### The core's step -/

theorem coreMove_inv {t : State} (h : Inv s) (hm : CoreMove s t) : Inv t := by
  obtain ⟨hmem, hwin, hout, hph⟩ := id h
  cases hm with
  | held => exact h
  | header _ hp hm hl => exact headerMove_inv h hp hm hl
  | chunkFailed e _ he => exact raise_inv hmem hwin he
  | chunk i _ _ _ hp hl _ _ hi hm => exact chunkMove_inv h hp hi hl hm
  | tailFailed e _ he => exact raise_inv hmem hwin he
  | decoded hp =>
    obtain ⟨-, herr, hpos, hpix, -, -⟩ := hout.of_busy (hp.trans_ne nofun)
    exact finish_inv hmem hwin herr hpos hpix
  | imageFailed e _ he => exact raise_inv hmem hwin he
  | imageOverCapacity => exact raise_inv hmem hwin nofun
  | encodeStarted hp hv hb ho =>
    obtain ⟨hw, hh, -⟩ := imageError_eq_none.1 hv
    obtain ⟨hN, hcap⟩ := imageTooBig_eq_false.1 hb
    have hopos : s.opos = 0 := (phaseOk_eHdr hp).1 hph
    have hbusy : s.phase ≠ .idle := hp.trans_ne nofun
    have hbytes : s.opos + 14 + 0 ≤ 14 + 5 * 0 := by rw [hopos]
    exact ⟨hmem.writeOut ho, hwin, hout.of_same hbusy ⟨rfl, rfl, rfl, rfl, rfl, rfl⟩,
      (phaseOk_ePix rfl).2 ⟨⟨rfl, hN, hcap, Nat.zero_le 61, hbytes⟩, pixelTotal_pos hw hh⟩⟩
  | pixel _ hp _ hm => exact pixelMove_inv h hp hm
  | encoded hp ho =>
    obtain ⟨-, herr, hpos, hpix, -, -⟩ := hout.of_busy (hp.trans_ne nofun)
    exact finish_inv (hmem.writeOut ho) hwin herr hpos hpix

/-! ### The host's actions -/

/-- What is done when idle alone, and ignored while a command runs. -/
theorem whenIdle_inv {f : State → State} {t : State} (h : Inv s) (hf : s.phase = .idle → Inv (f s))
    (hx : whenIdle f s = .next t) : Inv t := by
  by_cases hp : s.phase = .idle
  · rw [whenIdle_of_idle hp] at hx; injection hx with hx; exact hx ▸ hf hp
  · rw [whenIdle_of_busy hp] at hx; injection hx with hx; exact hx ▸ h

theorem accept_inv (h : Inv s) {ph : Phase} (hph : PhaseOk (accept ph s)) : Inv (accept ph s) := by
  obtain ⟨hmem, hwin, -, -⟩ := h
  exact ⟨hmem, hwin, ⟨fun _ => ⟨rfl, rfl, rfl, rfl⟩, fun hn => absurd rfl hn, fun _ => ⟨rfl, rfl⟩⟩, hph⟩

theorem rejectCommand_inv (h : Inv s) (hp : s.phase = .idle) : Inv (rejectCommand s) := by
  obtain ⟨hmem, hwin, -, -⟩ := h
  exact ⟨hmem, hwin, ⟨fun hb => absurd hp hb, fun _ => ⟨rfl, rfl⟩, nofun⟩, phaseOk_idle hp⟩

/-- A `CMD` write of any value (R191 to R195). -/
theorem exec_decodeCommand_inv {v : Word} {t : State} (h : Inv s) (hx : exec (decodeCommand v) s = .next t) :
    Inv t := by
  obtain ⟨-, ⟨-, -, -, -, hlen⟩, -, -⟩ := id h
  unfold decodeCommand at hx
  split at hx
  · exact whenIdle_inv h (fun _ => accept_inv h ((phaseOk_header (.inl rfl)).2 hlen)) hx
  split at hx
  · exact whenIdle_inv h (fun _ => accept_inv h ((phaseOk_header (.inr rfl)).2 hlen)) hx
  split at hx
  · exact whenIdle_inv h (fun _ => accept_inv h ((phaseOk_eHdr rfl).2 rfl)) hx
  · exact whenIdle_inv h (rejectCommand_inv h) hx

/-- A host write of any register (R199). -/
theorem regWrite_inv {r : Reg} {v : Word} {t : State} (h : Inv s) (hx : regWrite r v s = .next t) : Inv t := by
  obtain ⟨hmem, hwin, hout, hph⟩ := id h
  have idle : ∀ (f : State → State), WindowOk (f s) → MemoriesOk (f s) → OutcomeOk (f s) → (f s).phase = s.phase →
      whenIdle f s = .next t → Inv t := fun f hw hm ho hp =>
    whenIdle_inv h fun hi => ⟨hm, hw, ho, phaseOk_idle (hp.trans hi)⟩
  cases r with
  | ctrl => injection hx with hx; exact hx ▸ ⟨hmem, hwin.setCtrl v, hout, hph⟩
  | cmd => exact exec_decodeCommand_inv h hx
  | status =>
    injection hx with hx
    obtain ⟨hrun, herr, hnone⟩ := hout
    refine hx ▸ ⟨hmem, hwin, ⟨fun hb => ?_, herr, hnone⟩, hph⟩
    obtain ⟨hdone, hrest⟩ := hrun hb
    exact ⟨by rw [hdone, Bool.false_and], hrest⟩
  | inLen => exact idle (fun s => { s with inLen := clampLen s.cfg v }) (hwin.setInLen v) hmem hout rfl hx
  | imgWidth => exact idle (fun s => { s with imgWidth := v }) hwin hmem hout rfl hx
  | imgHeight => exact idle (fun s => { s with imgHeight := v }) hwin hmem hout rfl hx
  | imgFmt => exact idle (fun s => { s with imgFmt := v &&& 0xFF01 }) (hwin.setImgFmt v) hmem hout rfl hx
  | _ => injection hx with hx; exact hx ▸ h

theorem hostStep_inv {act : HostAction} {t : State} (h : Inv s) (hx : hostStep act s = .next t) : Inv t := by
  obtain ⟨hmem, hwin, hout, hph⟩ := id h
  cases act with
  | readReg off =>
    simp only [hostStep] at hx
    split at hx
    · cases hx
    · injection hx with hx; exact hx ▸ h
  | writeReg off v =>
    simp only [hostStep] at hx
    split at hx
    · cases hx
    · exact regWrite_inv h hx
  | readIn a => obtain ⟨-, -, rfl⟩ := hostMemory_eq_next.1 hx; exact h
  | readOut a => obtain ⟨-, -, rfl⟩ := hostMemory_eq_next.1 hx; exact h
  | readPix i => obtain ⟨-, -, rfl⟩ := hostMemory_eq_next.1 hx; exact h
  | writeIn a b =>
    obtain ⟨-, ha, rfl⟩ := hostMemory_eq_next.1 hx
    exact ⟨hmem.writeIn (bs := [b]) ha, hwin, hout, hph⟩
  | writeOut a b =>
    obtain ⟨-, ha, rfl⟩ := hostMemory_eq_next.1 hx
    exact ⟨hmem.writeOut (bs := [b]) ha, hwin, hout, hph⟩
  | writePix i v =>
    obtain ⟨-, hi, rfl⟩ := hostMemory_eq_next.1 hx
    exact ⟨hmem.writePix (ps := [unpackPixel v]) hi, hwin, hout, hph⟩

end

/-! ### The reset input -/

/-- The reset state meets the invariant, whatever the parameters (R240). -/
theorem resetWith_inv (p : Params) : Inv (State.resetWith p) := by
  have masked (m : Word) : (0 : Word) &&& m = 0 := BitVec.zero_and
  have alpha : (0 : Word).getLsbD 16 = true ↔ (0 : Word).extractLsb' 0 8 = 4 := by decide
  exact ⟨⟨.nil, .nil, .nil, nofun, nofun, nofun⟩, ⟨masked _, masked _, masked _, alpha, Nat.zero_le _⟩,
    ⟨fun hb => absurd rfl hb, fun hn => absurd rfl hn, fun _ => ⟨rfl, rfl⟩⟩, phaseOk_idle rfl⟩

/-- Settles O48: the move is the core's, the host's or a reset, and each keeps the invariant; the coming turns are no
part of it. -/
theorem everyStepKeepsInvariant : Obligations.EveryStepKeepsInvariant := by
  intro s t h hx
  cases hs : s.turns with
  | nil => exact coreMove_inv h (coreStep_move (step_core_of_nil hs ▸ hx))
  | cons turn ts =>
    have later : Inv { s with turns := ts } := h
    cases turn with
    | core => exact coreMove_inv later (coreStep_move (step_core hs ▸ hx))
    | host act => exact hostStep_inv later (step_host hs ▸ hx)
    | reset =>
      rw [step_reset hs] at hx
      injection hx with hx; exact hx ▸ resetWith_inv s.cfg

/-! ### The hash (R38) -/

/-- The sum of the hash is largest for a pixel of four 255s. -/
theorem hashSum_le (p : Pixel) : 3 * p.r.toNat + 5 * p.g.toNat + 7 * p.b.toNat + 11 * p.a.toNat ≤ 6630 := by
  have hr := p.r.isLt
  have hg := p.g.isLt
  have hb := p.b.isLt
  have ha := p.a.isLt
  omega

/-! ### The host's register accesses (R34, R198) -/

theorem hostStep_readReg {off : Nat} {r : Reg} (h : regAt off = some r) (s : State) :
    hostStep (.readReg off) s = .next { s with hostData := regRead s r } := by rw [hostStep, h]

theorem hostStep_writeReg {off : Nat} {r : Reg} (h : regAt off = some r) (v : Word) (s : State) :
    hostStep (.writeReg off v) s = regWrite r v s := by rw [hostStep, h]

/-- `STATUS` while a command runs is BUSY alone (R198). -/
theorem statusWord_of_busy {s : State} (hb : s.phase ≠ .idle) (hdone : s.done = false) (herr : s.errCode = .none) :
    statusWord s = 1 := by
  simp only [statusWord, errFlag, hdone, herr, busy_eq_true.2 hb]; decide

/-! ### The statements -/

/-- Settles O5: 64 divides the modulus of every width of at least 6 bits. -/
theorem hashWidthIsFree : Obligations.HashWidthIsFree := by
  refine ⟨fun p k hk => ⟨?_, hashSum_le p⟩, rfl, rfl, rfl⟩
  have h64 : 64 ∣ 2 ^ k := Nat.pow_dvd_pow 2 hk
  rw [pixelHash_val, Nat.mod_mod_of_dvd _ h64]

/-- Settles O16: no check of R110 fails and the image fits, so D_HDR takes its last branch. -/
theorem decodeHeaderCompletes : Obligations.DecodeHeaderCompletes := by
  intro s w h ch c hp hch hc hw hw' hh hh' hN
  have valid : headerError s.cfg w h ch c = .none := headerError_eq_none.2
    ⟨badChannels_eq_false.2 hch, badColorspace_eq_false.2 hc, badDimension_eq_false.2 ⟨hw, hw'⟩,
      badDimension_eq_false.2 ⟨hh, hh'⟩⟩
  simp only [exec, execHeader, hp, startDecode, valid]
  exact if_neg (Nat.not_lt.2 hN)

/-- Settles O33: each field of the concatenation at its place. -/
theorem statusWordBits : Obligations.StatusWordBits := by
  intro s
  obtain ⟨hbusy, hdone, herr⟩ := statusWord_flags s
  exact ⟨by rw [hbusy, busy_eq_true], hdone, by rw [herr, errFlag_eq_true], statusWord_middle s,
    statusWord_errCode s, statusWord_high s⟩

/-- Settles O36: such an offset is the reserved register. -/
theorem reservedOffsets : Obligations.ReservedOffsets := by
  intro s off v h4 hw hoff
  have reserved : regNamed off = .reserved := by
    simp only [List.mem_cons, not_or] at hoff
    simp [regNamed, hoff]
  have hr : regAt off = some .reserved := regAt_eq_some.2 ⟨h4, hw, reserved.symm⟩
  exact ⟨hostStep_readReg hr s, hostStep_writeReg hr v s⟩

/-- Settles O37: the offset's register and its field by the table's rows; while a command runs the values are those of
the invariant's outcome registers. -/
theorem registerReads : Obligations.RegisterReads := by
  refine ⟨fun s off r v h => ?_, fun s off r h => hostStep_readReg h s, fun s h hb => ?_⟩
  · have row : regAt off = some r ∧ regRead s r = v := by fin_cases h <;> exact ⟨rfl, rfl⟩
    obtain ⟨hr, rfl⟩ := row
    exact ⟨hr, rfl, hostStep_readReg hr s⟩
  · obtain ⟨-, -, hout, -⟩ := h
    obtain ⟨hdone, herr, hpos, hpix, hcount, hlen⟩ := hout.of_busy hb
    exact ⟨statusWord_of_busy hb hdone herr, hcount, hlen, hpos, hpix⟩

end Sys2Proof.Machine
end

section
/-! PROOFS. The family 20_memory.md: the packing of a `PIX` entry (R63), the host's memory accesses and what a broken
duty does (R61 to R72, R201), which memory a core step writes (R75), and that no core access lies outside its memory
(R76). -/

namespace Sys2Proof.Machine

/-! ### The packing of a `PIX` entry (R63) -/

theorem packPixel_r (p : Pixel) : (packPixel p).extractLsb' 24 8 = p.r := by
  rw [packPixel, be32]
  iterate 2 rw [BitVec.extractLsb'_append_eq_of_le (by decide)]
  exact BitVec.extractLsb'_append_eq_left

theorem packPixel_g (p : Pixel) : (packPixel p).extractLsb' 16 8 = p.g := by
  rw [packPixel, be32]
  iterate 2 rw [BitVec.extractLsb'_append_eq_of_le (by decide)]
  exact BitVec.extractLsb'_append_eq_right

theorem packPixel_b (p : Pixel) : (packPixel p).extractLsb' 8 8 = p.b := by
  rw [packPixel, be32, BitVec.extractLsb'_append_eq_of_le (by decide)]
  exact BitVec.extractLsb'_append_eq_right

theorem packPixel_a (p : Pixel) : (packPixel p).extractLsb' 0 8 = p.a :=
  BitVec.extractLsb'_append_eq_right

theorem unpackPixel_packPixel (p : Pixel) : unpackPixel (packPixel p) = p := by
  rw [unpackPixel, packPixel_r, packPixel_g, packPixel_b, packPixel_a]

/-- The four channels are consecutive fields, so their concatenation is the word. -/
theorem packPixel_unpackPixel (w : Word) : packPixel (unpackPixel w) = w := by
  simp only [packPixel, unpackPixel, be32]
  rw [BitVec.extractLsb'_append_extractLsb'_eq_extractLsb' (by decide),
    BitVec.extractLsb'_append_extractLsb'_eq_extractLsb' (by decide),
    BitVec.extractLsb'_append_extractLsb'_eq_extractLsb' (by decide)]
  exact BitVec.extractLsb'_eq_self

/-! ### The host's memory accesses (R61, R62, R64, R70, R72) -/

section

variable {a : Nat} {cap : Word} {s : State} (t : State)

theorem hostMemory_of_idle (hp : s.phase = .idle) (ha : a < cap.toNat) : hostMemory a cap s t = .next t :=
  hostMemory_eq_next.2 ⟨hp, ha, rfl⟩

theorem hostMemory_of_busy (hb : s.phase ≠ .idle) : hostMemory a cap s t = .fault .hostMemoryWhileBusy :=
  if_pos (busy_eq_true.2 hb)

theorem hostMemory_of_outside (hp : s.phase = .idle) (ha : cap.toNat ≤ a) :
    hostMemory a cap s t = .fault .hostMemoryAddress := by
  rw [hostMemory, if_neg (by rw [busy_eq_true]; exact not_not.2 hp), if_neg (Nat.not_lt.2 ha)]

end

section

variable (s : State) (a c : Nat)

theorem byteInAt_write (b : Byte) :
    byteInAt { s with byteIn := Memory.write s.byteIn a b } c = if c = a then b else byteInAt s c := by
  simp only [byteInAt, Memory.read_write]; split <;> rfl

theorem byteOutAt_write (b : Byte) :
    byteOutAt { s with byteOut := Memory.write s.byteOut a b } c = if c = a then b else byteOutAt s c := by
  simp only [byteOutAt, Memory.read_write]; split <;> rfl

theorem pixAt_write (p : Pixel) :
    pixAt { s with pix := Memory.write s.pix a p } c = if c = a then p else pixAt s c := by
  simp only [pixAt, Memory.read_write]; split <;> rfl

end

/-! ### The memory a core step writes (R75) -/

section

variable {s t : State}

/-- An error outside D_CHUNK and D_TAIL leaves `PIX` as it was (R146). -/
theorem raise_samePix (e : ErrorCode) (hc : s.phase ≠ .dChunk) (ht : s.phase ≠ .dTail) :
    SamePix s (raise e s) := by
  have hr : recordsPosition s = false := by simp [recordsPosition, hc, ht]
  intro i
  rw [pixAt_raise, hr, if_neg (by simp)]

theorem coreMove_hostSide (hm : CoreMove s t) : SameByteIn s t ∧ SameHostRegs s t := by
  have same (u : State) : SameByteIn u u ∧ SameHostRegs u u := ⟨fun _ => rfl, rfl, rfl, rfl, rfl, rfl⟩
  cases hm with
  | header _ _ hm _ => cases hm <;> exact same s
  | chunk _ _ _ _ _ _ _ _ _ hm => cases hm <;> exact same s
  | pixel _ _ _ hm => cases hm <;> exact same s
  | _ => exact same s

theorem coreMove_samePix (hm : CoreMove s t) (hc : s.phase ≠ .dChunk) (ht : s.phase ≠ .dTail) : SamePix s t := by
  cases hm with
  | held => exact fun _ => rfl
  | header _ _ hm _ =>
    cases hm with
    | failed e => exact raise_samePix e hc ht
    | parsed => exact fun _ => rfl
    | tooBig w h ch c =>
      exact raise_samePix (s := setPixelTotal (setLatches w h (ch == 4) c (setHeaderRegs w h ch c s))) _ hc ht
    | started => exact fun _ => rfl
  | chunkFailed _ hp => exact absurd hp hc
  | chunk _ _ _ _ hp => exact absurd hp hc
  | tailFailed _ hp => exact absurd hp ht
  | decoded hp => exact absurd hp ht
  | imageFailed e => exact raise_samePix (s := latchImage s) e hc ht
  | imageOverCapacity => exact raise_samePix (s := setPixelTotal (latchImage s)) _ hc ht
  | encodeStarted => exact fun _ => rfl
  | pixel _ _ _ hm => cases hm <;> exact fun _ => rfl
  | encoded => exact fun _ => rfl

theorem coreMove_sameByteOut (hm : CoreMove s t) (hh : s.phase ≠ .eHdr) (hx : s.phase ≠ .ePix)
    (he : s.phase ≠ .eEnd) : SameByteOut s t := by
  cases hm with
  | header _ _ hm _ => cases hm <;> exact fun _ => rfl
  | chunk _ _ _ _ _ _ _ _ _ hm => cases hm <;> exact fun _ => rfl
  | encodeStarted hp => exact absurd hp hh
  | pixel _ hp => exact absurd hp hx
  | encoded hp => exact absurd hp he
  | _ => exact fun _ => rfl

end

/-! ### Every core access lies inside its memory (R76) -/

/-- The machine is not stuck: the move has a next state. -/
def Answers (o : Result) : Prop := ∃ t, o = .next t

section

variable {s : State}

theorem answers_next (s : State) : Answers (.next s) := ⟨s, rfl⟩

theorem answers_ite {c : Prop} [Decidable c] {a b : Result} (ha : c → Answers a) (hb : ¬ c → Answers b) :
    Answers (if c then a else b) := by
  split
  · exact ha ‹_›
  · exact hb ‹_›

theorem answers_andThen {o : Result} {k : State → Result} (ho : Answers o)
    (hk : ∀ t, o = .next t → Answers (k t)) : Answers (andThen o k) := by
  obtain ⟨t, rfl⟩ := ho
  exact hk t rfl

theorem emitInstr_of {i : Instr} (h : s.opos + i.size ≤ s.cfg.outCapacity.toNat) :
    emitInstr i s =
      .next { s with byteOut := Memory.writeList s.byteOut s.opos (streamBytes i), opos := s.opos + i.size } := by
  rw [emitInstr, emitBytes_of (by rwa [streamBytes_length]), streamBytes_length]

/-- What ends in emitting an instruction that fits in `BYTE_OUT`. -/
theorem emitInstr_answers {i : Instr} (f : State → State) (h : s.opos + i.size ≤ s.cfg.outCapacity.toNat) :
    Answers (andThen (emitInstr i s) (fun t => .next (f t))) :=
  answers_andThen ⟨_, emitInstr_of h⟩ fun t _ => answers_next (f t)

/-! ### The decoder's steps stay inside `BYTE_IN` and `PIX` -/

theorem fetchIn_inside {a n : Nat} (h : a + n ≤ s.cfg.inCapacity.toNat) : ∃ bs, fetchIn a n s = some bs :=
  ⟨_, fetchIn_of h⟩

theorem exec_header_answers (w h : Word) (ch c : Byte) (hp : s.phase = .pHdr ∨ s.phase = .dHdr) :
    Answers (exec (.header w h ch c) s) := by
  rcases hp with hp | hp <;> simp only [exec, execHeader, hp]
  · unfold parseOnly; split <;> exact answers_next _
  · unfold startDecode; split
    · exact answers_ite (fun _ => answers_next _) (fun _ => answers_next _)
    · exact answers_next _

/-- The 14 bytes of the header lie in `BYTE_IN` once the length check of R110 has passed. -/
theorem stepHeader_answers (hp : s.phase = .pHdr ∨ s.phase = .dHdr)
    (hlen : s.len.toNat ≤ s.cfg.inCapacity.toNat) : Answers (stepHeader s) := by
  refine answers_ite (fun _ => answers_next _) fun hl => ?_
  obtain ⟨bs, hf⟩ := fetchIn_inside (show 0 + 14 ≤ s.cfg.inCapacity.toNat by omega)
  rw [hf]
  dsimp only
  split
  · rename_i hd
    obtain ⟨w, h, ch, c, rfl⟩ := decodeHeader_kind hd
    exact exec_header_answers w h ch c hp
  · exact answers_next _
  · exact answers_next _

/-- A chunk in D_CHUNK puts its pixels below `N`, and so below `PIX_CAPACITY`, or it is a run that overflows. -/
theorem exec_chunk_answers {i : Instr} (hi : i.isChunk = true) (hp : s.phase = .dChunk) (hcur : s.cur < s.latN)
    (hcap : s.latN ≤ s.cfg.pixCapacity.toNat) : Answers (exec i s) := by
  have one : s.cur + 1 ≤ s.cfg.pixCapacity.toNat := Nat.le_trans hcur hcap
  have moves {t : State} (hm : ChunkMove i s t) : Answers (exec i s) := ⟨t, (exec_chunk_eq_next hi).2 ⟨hp, hm⟩⟩
  cases i with
  | rgb r g b => exact moves (.made rfl one)
  | rgba r g b a => exact moves (.made rfl one)
  | index k => exact moves (.indexed k rfl one)
  | diff dr dg db => exact moves (.made rfl one)
  | luma dg drDg dbDg => exact moves (.made rfl one)
  | run n =>
    by_cases hn : s.latN < s.cur + n
    · exact moves (.overflowed n rfl hn)
    · have fits : s.cur + n ≤ s.latN := Nat.le_of_not_lt hn
      exact moves (.ran n rfl fits (Nat.le_trans fits hcap))
  | endMarker => cases hi
  | header w h ch c => cases hi
  | cmdParse => cases hi
  | cmdDecode => cases hi
  | cmdEncode => cases hi
  | cmdIllegal v => cases hi

theorem exec_endMarker_answers (hp : s.phase = .dChunk ∨ s.phase = .dTail) : Answers (exec .endMarker s) := by
  rcases hp with hp | hp <;> simp only [exec, execEndMarker, hp]
  · exact answers_next _
  · exact answers_ite (fun _ => answers_next _) (fun _ => answers_next _)

theorem stepChunk_answers (hp : s.phase = .dChunk) (hdec : DecodeOk s) (hcur : s.cur < s.latN) :
    Answers (stepChunk s) := by
  obtain ⟨hlen, -, -, -, hcap⟩ := hdec
  refine answers_ite (fun _ => answers_next _) fun hl => ?_
  obtain ⟨bs, hf⟩ := fetchIn_inside (show s.ipos + 8 ≤ s.cfg.inCapacity.toNat by omega)
  rw [hf]
  dsimp only
  split
  · rename_i hd
    rcases decodeChunk_kind hd with rfl | hi
    · exact exec_endMarker_answers (.inl hp)
    · exact exec_chunk_answers hi hp hcur hcap
  · exact answers_next _

theorem stepTail_answers (hp : s.phase = .dTail) (hdec : DecodeOk s) : Answers (stepTail s) := by
  obtain ⟨hlen, -, -, -, -⟩ := hdec
  refine answers_ite (fun _ => answers_next _) fun hl => ?_
  obtain ⟨bs, hf⟩ := fetchIn_inside (show s.ipos + 8 ≤ s.cfg.inCapacity.toNat by omega)
  rw [hf]
  exact answers_ite (fun _ => exec_endMarker_answers (.inr hp)) (fun _ => answers_next _)

/-! ### The encoder's steps stay inside `PIX` and `BYTE_OUT` -/

/-- The check of R163 leaves room for the header's 14 bytes. -/
theorem stepEHdr_answers (hopos : s.opos = 0) : Answers (stepEHdr s) := by
  unfold stepEHdr
  split
  · refine answers_ite (fun _ => answers_next _) fun hb => ?_
    obtain ⟨-, hcap⟩ := imageTooBig_eq_false.1 (Bool.eq_false_iff.2 hb)
    refine emitInstr_answers _ ?_
    change s.opos + 14 ≤ _
    rw [hopos]
    exact Nat.le_trans (Nat.le_add_right_of_le (by decide)) hcap
  · exact answers_next _

/-- A pixel takes at most 5 bytes beside the one a pending run will take (R178), and those are reserved. -/
theorem EncodeOk.room (h : EncodeOk s) (hcur : s.cur < s.latN) :
    s.opos + (if s.run = 0 then 0 else 1) + 5 ≤ s.cfg.outCapacity.toNat := by
  obtain ⟨-, -, hcap, -, hle⟩ := h
  omega

theorem extendRun_answers (last : Bool) (h : s.opos + 1 ≤ s.cfg.outCapacity.toNat) : Answers (extendRun last s) :=
  answers_ite (fun _ => emitInstr_answers _ h) (fun _ => answers_next _)

theorem flushRun_of (h : s.opos + (if s.run = 0 then 0 else 1) ≤ s.cfg.outCapacity.toNat) :
    ∃ t, flushRun s = .next t ∧ t.cfg = s.cfg ∧ t.opos = s.opos + (if s.run = 0 then 0 else 1) := by
  unfold flushRun
  split <;> rename_i hr
  · exact ⟨s, rfl, rfl, rfl⟩
  · rw [if_neg hr] at h
    rw [emitInstr_of h]
    exact ⟨_, rfl, rfl, rfl⟩

theorem encodePixel_answers (p : Pixel)
    (h : s.opos + (if s.run = 0 then 0 else 1) + 5 ≤ s.cfg.outCapacity.toNat) : Answers (encodePixel p s) := by
  obtain ⟨t, ht, hcfg, hopos⟩ := flushRun_of (Nat.le_of_add_right_le h)
  have hsize := size_le_of_isChunk (chooseChunk_isChunk t.cache t.px p)
  refine answers_andThen ⟨t, ht⟩ fun u hu => ?_
  obtain rfl : t = u := Host.Outcome.next.inj (ht.symm.trans hu)
  exact emitInstr_answers _ (by rw [hcfg]; omega)

theorem stepEPix_answers (henc : EncodeOk s) (hcur : s.cur < s.latN) : Answers (stepEPix s) := by
  have room := henc.room hcur
  obtain ⟨-, hpix, -, -, -⟩ := henc
  unfold stepEPix
  rw [loadPixel_of (Nat.lt_of_lt_of_le hcur hpix)]
  exact answers_andThen
    (answers_ite (fun _ => extendRun_answers _ (by omega)) (fun _ => encodePixel_answers _ room))
    (fun t _ => answers_next (advancePixel t))

/-- After the last pixel no run is pending, and the marker's 8 bytes are the ones R163 leaves. -/
theorem stepEEnd_answers (henc : EncodeOk s) (hcur : s.cur = s.latN) : Answers (stepEEnd s) := by
  obtain ⟨-, -, hcap, -, hle⟩ := henc
  refine emitInstr_answers _ ?_
  change s.opos + 8 ≤ _
  omega

theorem coreStep_answers (h : Inv s) : Answers (coreStep s) := by
  obtain ⟨-, -, -, hph⟩ := h
  unfold coreStep
  split <;> rename_i hp
  · exact answers_next s
  · exact stepHeader_answers (.inl hp) ((phaseOk_header (.inl hp)).1 hph)
  · exact stepHeader_answers (.inr hp) ((phaseOk_header (.inr hp)).1 hph)
  · obtain ⟨hdec, hcur⟩ := (phaseOk_dChunk hp).1 hph
    exact stepChunk_answers hp hdec hcur
  · exact stepTail_answers hp ((phaseOk_dTail hp).1 hph).1
  · exact stepEHdr_answers ((phaseOk_eHdr hp).1 hph)
  · obtain ⟨henc, hcur⟩ := (phaseOk_ePix hp).1 hph
    exact stepEPix_answers henc hcur
  · obtain ⟨henc, hcur, -⟩ := (phaseOk_eEnd hp).1 hph
    exact stepEEnd_answers henc hcur

end

/-! ### The statements -/

/-- Settles O49: the invariant bounds what each phase's step reads and writes; the coming turns are no part of it. -/
theorem coreIsNeverStuck : Obligations.CoreIsNeverStuck := by
  intro s h hhost
  cases hs : s.turns with
  | nil => rw [step_core_of_nil hs]; exact coreStep_answers h
  | cons turn ts =>
    cases turn with
    | core => rw [step_core hs]; exact coreStep_answers h
    | host act => exact absurd hs (hhost act ts)
    | reset => exact ⟨_, step_reset hs⟩

/-- Settles O38: each access is one read or one write of its memory, and a write is read back at its address alone. -/
theorem hostMemoryAccesses : Obligations.HostMemoryAccesses := by
  refine ⟨fun s a b hp ha => ⟨⟨_, hostMemory_of_idle _ hp ha, rfl, ?_, fun c hc => ?_, fun _ => rfl, fun _ => rfl⟩,
      hostMemory_of_idle _ hp ha⟩,
    fun s a b hp ha => ⟨⟨_, hostMemory_of_idle _ hp ha, rfl, ?_, fun c hc => ?_, fun _ => rfl, fun _ => rfl⟩,
      hostMemory_of_idle _ hp ha⟩,
    fun s i v hp hi => ⟨⟨_, hostMemory_of_idle _ hp hi, rfl, ?_, fun c hc => ?_, fun _ => rfl, fun _ => rfl⟩,
      hostMemory_of_idle _ hp hi⟩⟩
  · rw [byteInAt_write, if_pos rfl]
  · rw [byteInAt_write, if_neg hc]
  · rw [byteOutAt_write, if_pos rfl]
  · rw [byteOutAt_write, if_neg hc]
  · rw [pixAt_write, if_pos rfl]
  · rw [pixAt_write, if_neg hc]

/-- Settles O54: of the core's moves, those of a DECODE alone put pixels or lose `PIX`, and those of an ENCODE alone
emit bytes. -/
theorem coreWritesOnlyItsMemory : Obligations.CoreWritesOnlyItsMemory := by
  intro s t hx
  have hm := coreStep_move hx
  obtain ⟨hin, hregs⟩ := coreMove_hostSide hm
  exact ⟨hin, coreMove_samePix hm, coreMove_sameByteOut hm, hregs,
    (keepsParams_iff.1 (coreStep_keepsParams s)).2 t hx, coreStep_turns hx⟩

/-- Settles O6: each channel is a field of the concatenation, and the four fields are the whole word. -/
theorem pixelPacking : Obligations.PixelPacking :=
  ⟨fun p => ⟨packPixel_r p, packPixel_g p, packPixel_b p, packPixel_a p, unpackPixel_packPixel p⟩,
    packPixel_unpackPixel⟩

/-- Settles O39: no register is at such an offset, and a memory access tests BUSY first and its capacity next. -/
theorem brokenHostDutiesStop : Obligations.BrokenHostDutiesStop := by
  refine ⟨fun s off v hoff => ?_, fun s a b v hb act hact => ?_, fun s a b v hp => ⟨fun ha => ?_, fun ha => ?_,
    fun ha => ?_⟩⟩
  · have noReg : regAt off = none := regAt_eq_none.2 hoff
    exact ⟨by rw [hostStep, noReg], by rw [hostStep, noReg]⟩
  · fin_cases hact <;> exact hostMemory_of_busy _ hb
  · exact ⟨hostMemory_of_outside _ hp ha, hostMemory_of_outside _ hp ha⟩
  · exact ⟨hostMemory_of_outside _ hp ha, hostMemory_of_outside _ hp ha⟩
  · exact ⟨hostMemory_of_outside _ hp ha, hostMemory_of_outside _ hp ha⟩

end Sys2Proof.Machine
end

section
/-! PROOFS. The family 30_encoding.md: the header's big-endian fields (R81, R82), and the chunk layouts of R84 to R90,
stated once as concatenations of fields (`ChunkCode`); that every tag selects a chunk and that decoding inverts
encoding both follow from that table. -/

namespace Sys2Proof.Machine

/-! ### Fields and concatenation -/

theorem toNat_append_eq_add {m n : Nat} (x : BitVec m) (y : BitVec n) :
    (x ++ y).toNat = x.toNat * 2 ^ n + y.toNat := by
  rw [BitVec.toNat_append, ← Nat.shiftLeft_add_eq_or_of_lt y.isLt, Nat.shiftLeft_eq]

theorem shiftLeft_or_eq_append {m n : Nat} (x : BitVec m) (y : BitVec n) :
    x.setWidth (m + n) <<< n ||| y.setWidth (m + n) = x ++ y := by
  rw [← BitVec.setWidth_append_eq_shiftLeft_setWidth_or, BitVec.setWidth_eq]

theorem exists_append {m n : Nat} (x : BitVec (m + n)) : ∃ (hi : BitVec m) (lo : BitVec n), x = hi ++ lo :=
  ⟨x.extractLsb' n m, x.extractLsb' 0 n, BitVec.extractLsb'_append_extractLsb'.symm⟩

/-- A biased operand in the range of a `k`-bit field is what some field stores (R88, R89). -/
theorem exists_biased_field {k : Nat} {b v : Int} (h : inRange (-b) (2 ^ k - 1 - b) v = true) :
    ∃ x : BitVec k, v = x.toNat - b := by
  obtain ⟨hlo, hhi⟩ := inRange_iff.1 h
  have hmod : (v + b) % (2 ^ k : Nat) = v + b := Int.emod_eq_of_lt (by omega) (by push_cast; omega)
  refine ⟨BitVec.ofInt k (v + b), ?_⟩
  rw [BitVec.toNat_ofInt, hmod, Int.toNat_of_nonneg (by omega), add_sub_cancel_right]

/-- Taking the bias off again gives the field. -/
theorem ofInt_biased_field {k : Nat} (x : BitVec k) (b : Int) :
    BitVec.ofInt 8 ((x.toNat : Int) - b + b) = x.setWidth 8 := by
  rw [sub_add_cancel, BitVec.ofInt_natCast, BitVec.ofNat_toNat]

/-! ### Big-endian words (R82) -/

theorem be32_toNat (b0 b1 b2 b3 : Byte) :
    (be32 b0 b1 b2 b3).toNat = b0.toNat * 2 ^ 24 + b1.toNat * 2 ^ 16 + b2.toNat * 2 ^ 8 + b3.toNat := by
  simp only [be32, toNat_append_eq_add]; omega

/-- A word's bytes are laid out as the channels of a packed pixel (R63). -/
theorem be32Bytes_be32 (b0 b1 b2 b3 : Byte) : be32Bytes (be32 b0 b1 b2 b3) = [b0, b1, b2, b3] :=
  congrArg (fun p : Pixel => [p.r, p.g, p.b, p.a]) (unpackPixel_packPixel ⟨b0, b1, b2, b3⟩)

theorem be32_extract (w : Word) :
    be32 (w.extractLsb' 24 8) (w.extractLsb' 16 8) (w.extractLsb' 8 8) (w.extractLsb' 0 8) = w :=
  packPixel_unpackPixel w

theorem decodeHeader_magic (w0 w1 w2 w3 h0 h1 h2 h3 ch c : Byte) :
    decodeHeader (magicBytes ++ [w0, w1, w2, w3] ++ [h0, h1, h2, h3] ++ [ch, c]) =
      .ok (.header (be32 w0 w1 w2 w3) (be32 h0 h1 h2 h3) ch c, []) := rfl

theorem decodeHeader_streamBytes (w h : Word) (ch c : Byte) :
    decodeHeader (streamBytes (.header w h ch c)) = .ok (.header w h ch c, []) := by
  refine (decodeHeader_magic ..).trans ?_
  rw [be32_extract, be32_extract]

/-! ### The commands (R95) -/

theorem decodeCommand_illegal {v : Word} (h1 : v ≠ 1) (h2 : v ≠ 2) (h3 : v ≠ 3) :
    decodeCommand v = .cmdIllegal v := by rw [decodeCommand, if_neg h1, if_neg h2, if_neg h3]

/-! ### The layout of each chunk -/

/-- The table of R84 to R90: a chunk with its operands read off the fields, and its bytes as these fields'
concatenation. -/
inductive ChunkCode : Instr → List Byte → Prop
  | rgb (r g b : Byte) : ChunkCode (.rgb r g b) [0xFE, r, g, b]
  | rgba (r g b a : Byte) : ChunkCode (.rgba r g b a) [0xFF, r, g, b, a]
  | index (x : BitVec 6) : ChunkCode (.index x.toFin) [0b00#2 ++ x]
  | diff (x y z : BitVec 2) : ChunkCode (.diff (x.toNat - 2) (y.toNat - 2) (z.toNat - 2)) [0b01#2 ++ (x ++ y ++ z)]
  | luma (x : BitVec 6) (y z : BitVec 4) :
      ChunkCode (.luma (x.toNat - 32) (y.toNat - 8) (z.toNat - 8)) [0b10#2 ++ x, y ++ z]
  | run (x : BitVec 6) (h : x ≠ 62 ∧ x ≠ 63) : ChunkCode (.run (x.toNat + 1)) [0b11#2 ++ x]

/-! #### The encoder writes these bytes -/

theorem index_byte (x : BitVec 6) : streamBytes (.index x.toFin) = [0b00#2 ++ x] :=
  congrArg (fun t : Byte => [t]) <|
    calc BitVec.ofNat 8 x.toNat
      _ = x.setWidth 8 := BitVec.ofNat_toNat 8 x
      _ = (0b00#2).setWidth 8 <<< 6 ||| x.setWidth 8 := BitVec.zero_or.symm
      _ = 0b00#2 ++ x := shiftLeft_or_eq_append _ x

theorem run_byte (x : BitVec 6) : streamBytes (.run (x.toNat + 1)) = [0b11#2 ++ x] :=
  congrArg (fun t : Byte => [t]) <|
    calc 0xC0 ||| BitVec.ofNat 8 (x.toNat + 1 - 1)
      _ = (0b11#2).setWidth 8 <<< 6 ||| x.setWidth 8 := by rw [Nat.add_sub_cancel, BitVec.ofNat_toNat]; rfl
      _ = 0b11#2 ++ x := shiftLeft_or_eq_append _ x

theorem diff_byte (x y z : BitVec 2) :
    streamBytes (.diff (x.toNat - 2) (y.toNat - 2) (z.toNat - 2)) = [0b01#2 ++ (x ++ y ++ z)] := by
  have tag := shiftLeft_or_eq_append 0b01#2 (x ++ y ++ z)
  rw [BitVec.setWidth_append_append_eq_shiftLeft_setWidth_or, ← BitVec.or_assoc, ← BitVec.or_assoc] at tag
  simp only [streamBytes, diffByte, ofInt_biased_field]
  exact congrArg (fun t : Byte => [t]) tag

theorem luma_bytes (x : BitVec 6) (y z : BitVec 4) :
    streamBytes (.luma (x.toNat - 32) (y.toNat - 8) (z.toNat - 8)) = [0b10#2 ++ x, y ++ z] := by
  simp only [streamBytes, lumaBytes, ofInt_biased_field]
  exact congrArg₂ (fun t u : Byte => [t, u]) (shiftLeft_or_eq_append 0b10#2 x) (shiftLeft_or_eq_append y z)

/-- Every entry of the table is a well-formed chunk with the encoder's bytes. -/
theorem ChunkCode.encoded {i : Instr} {bs : List Byte} (h : ChunkCode i bs) :
    i.wellFormed = true ∧ i.isChunk = true ∧ streamBytes i = bs := by
  cases h with
  | rgb r g b => exact ⟨rfl, rfl, rfl⟩
  | rgba r g b a => exact ⟨rfl, rfl, rfl⟩
  | index x => exact ⟨rfl, rfl, index_byte x⟩
  | diff x y z =>
    refine ⟨?_, rfl, diff_byte x y z⟩
    simp only [Instr.wellFormed, Bool.and_eq_true, inRange_iff]
    omega
  | luma x y z =>
    refine ⟨?_, rfl, luma_bytes x y z⟩
    simp only [Instr.wellFormed, Bool.and_eq_true, inRange_iff]
    omega
  | run x h =>
    refine ⟨?_, rfl, run_byte x⟩
    simp only [Instr.wellFormed, Bool.and_eq_true, decide_eq_true_eq]
    bv_omega

/-- Every well-formed chunk is in the table. -/
theorem chunkCode_streamBytes {i : Instr} (hwf : i.wellFormed = true) (hc : i.isChunk = true) :
    ChunkCode i (streamBytes i) := by
  cases i with
  | rgb r g b => exact .rgb r g b
  | rgba r g b a => exact .rgba r g b a
  | index k => exact index_byte (BitVec.ofFin k) ▸ .index (BitVec.ofFin k)
  | diff dr dg db =>
    simp only [Instr.wellFormed, Bool.and_eq_true] at hwf
    obtain ⟨⟨hr, hg⟩, hb⟩ := hwf
    obtain ⟨x, rfl⟩ := exists_biased_field (k := 2) (b := 2) hr
    obtain ⟨y, rfl⟩ := exists_biased_field (k := 2) (b := 2) hg
    obtain ⟨z, rfl⟩ := exists_biased_field (k := 2) (b := 2) hb
    exact diff_byte x y z ▸ .diff x y z
  | luma dg drDg dbDg =>
    simp only [Instr.wellFormed, Bool.and_eq_true] at hwf
    obtain ⟨⟨hg, hr⟩, hb⟩ := hwf
    obtain ⟨x, rfl⟩ := exists_biased_field (k := 6) (b := 32) hg
    obtain ⟨y, rfl⟩ := exists_biased_field (k := 4) (b := 8) hr
    obtain ⟨z, rfl⟩ := exists_biased_field (k := 4) (b := 8) hb
    exact luma_bytes x y z ▸ .luma x y z
  | run n =>
    simp only [Instr.wellFormed, Bool.and_eq_true, decide_eq_true_eq] at hwf
    obtain ⟨x, rfl⟩ : ∃ x : BitVec 6, n = x.toNat + 1 :=
      ⟨BitVec.ofNat 6 (n - 1), by rw [BitVec.toNat_ofNat]; omega⟩
    exact run_byte x ▸ .run x ⟨by bv_omega, by bv_omega⟩
  | endMarker | header | cmdParse | cmdDecode | cmdEncode | cmdIllegal => cases hc

/-! #### The decoder reads them back (R94) -/

theorem indexOf_append (x : BitVec 6) : indexOf (0b00#2 ++ x) = .index x.toFin := by
  simp only [indexOf, BitVec.extractLsb'_append_eq_right]; rfl

theorem diffOf_append (x y z : BitVec 2) :
    diffOf (0b01#2 ++ (x ++ y ++ z)) = .diff (x.toNat - 2) (y.toNat - 2) (z.toNat - 2) := by
  have field {k : Nat} (hk : k + 2 ≤ 6) : (0b01#2 ++ (x ++ y ++ z)).extractLsb' k 2 = (x ++ y ++ z).extractLsb' k 2 :=
    BitVec.extractLsb'_append_eq_of_add_le hk
  have hx : (x ++ y ++ z).extractLsb' 4 2 = x :=
    (BitVec.extractLsb'_append_eq_of_le (by decide)).trans BitVec.extractLsb'_append_eq_left
  have hy : (x ++ y ++ z).extractLsb' 2 2 = y :=
    (BitVec.extractLsb'_append_eq_of_le (by decide)).trans BitVec.extractLsb'_append_eq_right
  have hz : (x ++ y ++ z).extractLsb' 0 2 = z := BitVec.extractLsb'_append_eq_right
  rw [diffOf, field (by decide), field (by decide), field (by decide), hx, hy, hz]

theorem lumaOf_append (x : BitVec 6) (y z : BitVec 4) :
    lumaOf (0b10#2 ++ x) (y ++ z) = .luma (x.toNat - 32) (y.toNat - 8) (z.toNat - 8) := by
  simp only [lumaOf, BitVec.extractLsb'_append_eq_right, BitVec.extractLsb'_append_eq_left]

theorem runOf_append (x : BitVec 6) : runOf (0b11#2 ++ x) = .run (x.toNat + 1) := by
  rw [runOf, BitVec.extractLsb'_append_eq_right]

/-- The bytes of the table decode to their chunk whatever follows; only INDEX 0 can be the start of an end marker. -/
theorem ChunkCode.decodeChunk {i : Instr} {bs rest : List Byte} (h : ChunkCode i bs)
    (hend : ¬ (i = .index 0 ∧ rest.take 7 = [0, 0, 0, 0, 0, 0, 1])) : decodeChunk (bs ++ rest) = .ok (i, rest) := by
  cases h with
  | rgb r g b => exact decodeChunk_rgb r g b rest
  | rgba r g b a => exact decodeChunk_rgba r g b a rest
  | index x =>
    have notEnd : ((0b00#2 ++ x : Byte) :: rest).take 8 ≠ endMarkerBytes := by
      intro e
      obtain ⟨ht, hrest⟩ := List.cons_eq_cons.1 e
      obtain rfl : x = 0 := (BitVec.append_right_inj 0b00#2).1 ht
      exact hend ⟨rfl, hrest⟩
    rw [← indexOf_append]
    exact decodeChunk_index notEnd BitVec.extractLsb'_append_eq_left
  | diff x y z => exact diffOf_append x y z ▸ decodeChunk_diff rest BitVec.extractLsb'_append_eq_left
  | luma x y z =>
    exact lumaOf_append x y z ▸ decodeChunk_luma (y ++ z) rest BitVec.extractLsb'_append_eq_left
  | run x h =>
    rw [← runOf_append]
    exact decodeChunk_run rest BitVec.extractLsb'_append_eq_left
      (fun e => h.1 ((BitVec.append_right_inj 0b11#2).1 e)) (fun e => h.2 ((BitVec.append_right_inj 0b11#2).1 e))

/-- A chunk's bytes decode to it whatever follows, but for INDEX 0 where the end marker stands (R92). -/
theorem decodeChunk_streamBytes {i : Instr} {rest : List Byte} (hwf : i.wellFormed = true) (hc : i.isChunk = true)
    (hend : ¬ (i = .index 0 ∧ rest.take 7 = [0, 0, 0, 0, 0, 0, 1])) :
    decodeChunk (streamBytes i ++ rest) = .ok (i, rest) :=
  (chunkCode_streamBytes hwf hc).decodeChunk hend

theorem encode_of_isChunk {i : Instr} (hc : i.isChunk = true) : encode i = .atTag (streamBytes i) := by
  cases i with
  | endMarker | header | cmdParse | cmdDecode | cmdEncode | cmdIllegal => cases hc
  | _ => rfl

/-! #### Every tag selects a chunk (R93, R94) -/

/-- The length of the chunk a tag selects (R93). -/
def tagLength (t : Byte) : Nat :=
  if t = 0xFE then 4 else if t = 0xFF then 5 else if t.extractLsb' 6 2 = 0b10 then 2 else 1

/-- The two literal tags first, then the two high bits, whose four values are all taken. -/
theorem exists_chunkCode {t : Byte} {more : List Byte} (hlen : 4 ≤ more.length) :
    ∃ i bs rest, ChunkCode i bs ∧ t :: more = bs ++ rest ∧ bs.length = tagLength t := by
  obtain ⟨b1, b2, b3, b4, rest, rfl⟩ : ∃ b1 b2 b3 b4 rest, more = b1 :: b2 :: b3 :: b4 :: rest :=
    match more, hlen with
    | b1 :: b2 :: b3 :: b4 :: rest, _ => ⟨b1, b2, b3, b4, rest, rfl⟩
  by_cases hFE : t = 0xFE
  · subst hFE; exact ⟨_, _, _, .rgb b1 b2 b3, rfl, rfl⟩
  by_cases hFF : t = 0xFF
  · subst hFF; exact ⟨_, _, _, .rgba b1 b2 b3 b4, rfl, rfl⟩
  obtain ⟨k, x, rfl⟩ := exists_append (m := 2) (n := 6) t
  have kinds : ∀ k : BitVec 2, k = 0b00 ∨ k = 0b01 ∨ k = 0b10 ∨ k = 0b11 := by decide
  rw [tagLength, if_neg hFE, if_neg hFF, BitVec.extractLsb'_append_eq_left]
  obtain rfl | rfl | rfl | rfl := kinds k
  · exact ⟨_, _, _, .index x, rfl, rfl⟩
  · obtain ⟨xy, z, rfl⟩ := exists_append (m := 4) (n := 2) x
    obtain ⟨x, y, rfl⟩ := exists_append (m := 2) (n := 2) xy
    exact ⟨_, _, _, .diff x y z, rfl, rfl⟩
  · obtain ⟨y, z, rfl⟩ := exists_append (m := 4) (n := 4) b1
    exact ⟨_, _, _, .luma x y z, rfl, rfl⟩
  · exact ⟨_, _, _, .run x ⟨by rintro rfl; exact hFE rfl, by rintro rfl; exact hFF rfl⟩, rfl, rfl⟩

/-! ### The statements -/

/-- Settles O2: a chunk by the table of layouts, with nothing after it for the first part; the header by its big-endian
fields; the end marker and the commands are literal. -/
theorem decodeOfEncode : Obligations.DecodeOfEncode := by
  refine ⟨fun i hwf => ?_, fun i rest hwf hc hend => decodeChunk_streamBytes hwf hc hend⟩
  have chunk (hc : i.isChunk = true) : decode (encode i) = .ok (i, []) := by
    have alone := decodeChunk_streamBytes (rest := []) hwf hc (fun h => nomatch h.2)
    rw [List.append_nil] at alone
    exact encode_of_isChunk hc ▸ alone
  cases i with
  | endMarker => exact decodeChunk_end rfl
  | header w h ch c => exact decodeHeader_streamBytes w h ch c
  | cmdParse | cmdDecode | cmdEncode => rfl
  | cmdIllegal v =>
    simp only [Instr.wellFormed, Bool.and_eq_true, decide_eq_true_eq] at hwf
    obtain ⟨⟨h1, h2⟩, h3⟩ := hwf
    exact congrArg (fun i => Except.ok (i, [])) (decodeCommand_illegal h1 h2 h3)
  | _ => exact chunk rfl

/-- Settles O3: the end marker is tried first; what is no end marker starts with a chunk of the table, which then
decodes to itself. -/
theorem tagSpaceIsTotal : Obligations.TagSpaceIsTotal := by
  intro t more hlen
  by_cases hm : (t :: more).take 8 = endMarkerBytes
  · have split : t :: more = endMarkerBytes ++ (t :: more).drop 8 := by rw [← hm, List.take_append_drop]
    exact ⟨.endMarker, _, decodeChunk_end hm, rfl, .inl rfl, split, fun hne => absurd rfl hne⟩
  · obtain ⟨i, bs, rest, hcode, hsplit, hlength⟩ := exists_chunkCode (t := t) (more := more) (by omega)
    obtain ⟨hwf, hc, rfl⟩ := hcode.encoded
    have notEnd : ¬ (i = .index 0 ∧ rest.take 7 = [0, 0, 0, 0, 0, 0, 1]) := by
      rintro ⟨rfl, hrest⟩
      exact hm (hsplit ▸ congrArg (0 :: ·) hrest)
    refine ⟨i, rest, hsplit ▸ hcode.decodeChunk notEnd, hwf, .inr hc, hsplit, fun _ => ?_⟩
    have total := congrArg List.length hsplit
    rw [List.length_append, hlength, Nat.add_comm] at total
    exact total

/-- Settles O4: the assembly as concatenation, and the header's decoder and encoder on these fields. -/
theorem headerFieldsBigEndian : Obligations.HeaderFieldsBigEndian :=
  ⟨be32_toNat, decodeHeader_magic, fun _ _ _ _ => rfl, be32Bytes_be32, rfl⟩

/-- Settles O1: the decoder's equation for each kind of tag, at the word's own fields. -/
theorem specWordsDecode : Obligations.SpecWordsDecode :=
  ⟨decodeChunk_rgb 10 20 30 [], decodeChunk_rgba 1 2 3 4 [], decodeChunk_index (by decide) rfl,
    decodeChunk_diff [] rfl, decodeChunk_luma 0x0F [] rfl, decodeChunk_run [] rfl (by decide) (by decide),
    decodeChunk_end rfl, decodeHeader_magic 0 0 0 2 0 0 0 3 4 0, rfl, rfl, rfl, rfl⟩

end Sys2Proof.Machine
end

section
/-! PROOFS. The family 40_header.md: what HEADER does in the two phases that execute it (R110, R117, R118, R131), the
header step up to it (R112, R113), the fields of `HDR_FMT` (R29), and the step that writes a header (R119, R164). -/

namespace Sys2Proof.Machine

/-! ### The checks of R114, R115, R116 -/

section

variable {p : Params} {w h : Word} {ch c : Byte}

theorem badChannels_eq_true : badChannels ch = true ↔ ch ≠ 3 ∧ ch ≠ 4 := by simp [badChannels]

theorem badColorspace_eq_true : badColorspace c = true ↔ c ≠ 0 ∧ c ≠ 1 := by simp [badColorspace]

theorem badDimension_eq_true {v : Word} : badDimension p v = true ↔ v = 0 ∨ p.maxDimension.toNat < v.toNat := by
  simp [badDimension]

theorem headerError_of_valid (hch : ch = 3 ∨ ch = 4) (hc : c = 0 ∨ c = 1) (hw : 1 ≤ w.toNat)
    (hw' : w.toNat ≤ p.maxDimension.toNat) (hh : 1 ≤ h.toNat) (hh' : h.toNat ≤ p.maxDimension.toNat) :
    headerError p w h ch c = .none :=
  headerError_eq_none.2 ⟨badChannels_eq_false.2 hch, badColorspace_eq_false.2 hc,
    badDimension_eq_false.2 ⟨hw, hw'⟩, badDimension_eq_false.2 ⟨hh, hh'⟩⟩

theorem headerError_of_badChannels (hch : ch ≠ 3 ∧ ch ≠ 4) : headerError p w h ch c = .unsupportedChannels :=
  if_pos (badChannels_eq_true.2 hch)

theorem headerError_of_badColorspace (hch : ch = 3 ∨ ch = 4) (hc : c ≠ 0 ∧ c ≠ 1) :
    headerError p w h ch c = .unsupportedColorspace := by
  rw [headerError, badChannels_eq_false.2 hch, badColorspace_eq_true.2 hc]; rfl

theorem headerError_of_badDimension (hch : ch = 3 ∨ ch = 4) (hc : c = 0 ∨ c = 1)
    (hd : badDimension p w = true ∨ badDimension p h = true) : headerError p w h ch c = .invalidDimension := by
  rw [headerError, badChannels_eq_false.2 hch, badColorspace_eq_false.2 hc, Bool.or_eq_true_iff.2 hd]; rfl

end

/-! ### The fields of `HDR_FMT` (R29) -/

theorem hdrFmtOf_colorspace (ch c : Byte) : (hdrFmtOf ch c).extractLsb' 8 8 = c := by
  rw [hdrFmtOf, BitVec.extractLsb'_setWidth_of_le (by decide), BitVec.extractLsb'_append_eq_of_le (by decide)]
  exact BitVec.extractLsb'_append_eq_right

theorem hdrFmtOf_high (ch c : Byte) : (hdrFmtOf ch c).extractLsb' 17 15 = 0 := by
  rw [hdrFmtOf, BitVec.setWidth_eq_append (by decide)]
  exact BitVec.extractLsb'_append_eq_left

theorem channelByte_beq (al : Bool) : (channelByte al == 4) = al := by cases al <;> rfl

theorem channelByte_legal (al : Bool) : channelByte al = 3 ∨ channelByte al = 4 := by cases al <;> simp [channelByte]

/-! ### HEADER in the phases that execute it -/

/-- D_HDR once the header has passed: the header registers, the latches and `N`, all written before the capacity
check (R117, R131). -/
def latchHeader (w h : Word) (ch c : Byte) (s : State) : State :=
  setPixelTotal (setLatches w h (ch == 4) c (setHeaderRegs w h ch c s))

section

variable {s t : State} {w h : Word} {ch c : Byte}

theorem exec_header_failed (hp : s.phase = .pHdr ∨ s.phase = .dHdr) (he : headerError s.cfg w h ch c ≠ .none) :
    exec (.header w h ch c) s = .next (raise (headerError s.cfg w h ch c) s) := by
  rcases hp with hp | hp
  · simp only [exec, execHeader, hp, parseOnly]
  · simp only [exec, execHeader, hp, startDecode]

theorem exec_header_parsed (hp : s.phase = .pHdr) (hv : headerError s.cfg w h ch c = .none) :
    exec (.header w h ch c) s = .next (finish (setHeaderRegs w h ch c s)) := by
  simp only [exec, execHeader, hp, parseOnly, hv]

theorem exec_header_tooBig (hp : s.phase = .dHdr) (hv : headerError s.cfg w h ch c = .none)
    (hN : s.cfg.pixCapacity.toNat < w.toNat * h.toNat) :
    exec (.header w h ch c) s = .next (raise .outOfMemory (latchHeader w h ch c s)) := by
  simp only [exec, execHeader, hp, startDecode, hv]
  exact if_pos hN

theorem exec_header_started (hp : s.phase = .dHdr) (hv : headerError s.cfg w h ch c = .none)
    (hN : w.toNat * h.toNat ≤ s.cfg.pixCapacity.toNat) :
    exec (.header w h ch c) s =
      .next { startPass (latchHeader w h ch c s) with ipos := 14, cur := 0, phase := .dChunk } := by
  simp only [exec, execHeader, hp, startDecode, hv]
  exact if_neg (Nat.not_lt.2 hN)

theorem exec_header_phase (hx : exec (.header w h ch c) s = .next t) : s.phase = .pHdr ∨ s.phase = .dHdr := by
  simp only [exec, execHeader] at hx
  split at hx <;> rename_i hp
  · exact .inl hp
  · exact .inr hp
  all_goals cases hx

/-- A header that passes writes its three registers, whether or not its image fits; one that fails writes none
(R117). -/
theorem exec_header_regs (hx : exec (.header w h ch c) s = .next t) :
    t.hdrWidth = s.hdrWidth ∧ t.hdrHeight = s.hdrHeight ∧ t.hdrFmt = s.hdrFmt ∨
      t.hdrWidth = w ∧ t.hdrHeight = h ∧ t.hdrFmt = hdrFmtOf ch c := by
  have answer {u : State} (hu : exec (.header w h ch c) s = .next u) : u = t :=
    Host.Outcome.next.inj (hu.symm.trans hx)
  have hp := exec_header_phase hx
  by_cases hv : headerError s.cfg w h ch c = .none
  · refine .inr ?_
    rcases hp with hp | hp
    · rw [← answer (exec_header_parsed hp hv)]
      exact ⟨rfl, rfl, rfl⟩
    · rcases Nat.lt_or_ge s.cfg.pixCapacity.toNat (w.toNat * h.toNat) with hN | hN
      · rw [← answer (exec_header_tooBig hp hv hN)]
        exact ⟨rfl, rfl, rfl⟩
      · rw [← answer (exec_header_started hp hv hN)]
        exact ⟨rfl, rfl, rfl⟩
  · rw [← answer (exec_header_failed hp hv)]
    exact .inl ⟨rfl, rfl, rfl⟩

/-! ### Errors of the header phases (R146, R213, R214) -/

theorem recordsPosition_header (hp : s.phase = .pHdr ∨ s.phase = .dHdr) : recordsPosition s = false := by
  rcases hp with hp | hp <;> simp [recordsPosition, hp]

theorem raise_header_position (e : ErrorCode) (hp : s.phase = .pHdr ∨ s.phase = .dHdr) :
    (raise e s).errPos = 0 ∧ (raise e s).errPix = 0 := by
  rw [raise_errPos, raise_errPix, recordsPosition_header hp]
  exact ⟨rfl, rfl⟩

theorem raise_header_draws (e : ErrorCode) (hp : s.phase = .pHdr ∨ s.phase = .dHdr) :
    (raise e s).draws = s.draws := by
  rw [raise_draws, recordsPosition_header hp]; rfl

theorem raise_header_samePix (e : ErrorCode) (hp : s.phase = .pHdr ∨ s.phase = .dHdr) : SamePix s (raise e s) := by
  rcases hp with hp | hp <;> exact raise_samePix e (hp.trans_ne nofun) (hp.trans_ne nofun)

/-! ### What no header step touches (R110, R118, R131) -/

/-- The parameters, the host's registers, `len`, `opos`, `run`, the model's own fields and the three memories. -/
def HeaderUntouched (s t : State) : Prop :=
  SameParams s t ∧ SameHostRegs s t ∧ t.len = s.len ∧ t.opos = s.opos ∧ t.run = s.run ∧ SameModelFields s t ∧
    SameByteIn s t ∧ SameByteOut s t ∧ SamePix s t

theorem HeaderUntouched.refl (s : State) : HeaderUntouched s s :=
  ⟨rfl, ⟨rfl, rfl, rfl, rfl, rfl⟩, rfl, rfl, rfl, ⟨rfl, rfl, rfl, rfl⟩, fun _ => rfl, fun _ => rfl, fun _ => rfl⟩

theorem HeaderUntouched.raise (e : ErrorCode) (hp : s.phase = .pHdr ∨ s.phase = .dHdr) :
    HeaderUntouched s (raise e s) :=
  ⟨rfl, ⟨rfl, rfl, rfl, rfl, rfl⟩, rfl, rfl, rfl, ⟨rfl, rfl, rfl, raise_header_draws e hp⟩, fun _ => rfl,
    fun _ => rfl, raise_header_samePix e hp⟩

theorem headerMove_untouched (hp : s.phase = .pHdr ∨ s.phase = .dHdr) (hm : HeaderMove s t) :
    HeaderUntouched s t := by
  cases hm with
  | failed e => exact .raise e hp
  | parsed => exact .refl s
  | tooBig w h ch c => exact HeaderUntouched.raise (s := latchHeader w h ch c s) .outOfMemory hp
  | started => exact .refl s

/-- P_HDR ends its command, with or without an error, and neither end writes the datapath. -/
theorem headerMove_parse (hp : s.phase = .pHdr) (hm : HeaderMove s t) :
    SamePixelState s t ∧ SameCursors s t ∧ SameLatches s t := by
  cases hm with
  | failed => exact ⟨⟨rfl, rfl⟩, ⟨rfl, rfl, rfl⟩, rfl, rfl, rfl, rfl, rfl, rfl⟩
  | parsed => exact ⟨⟨rfl, rfl⟩, ⟨rfl, rfl, rfl⟩, rfl, rfl, rfl, rfl, rfl, rfl⟩
  | tooBig _ _ _ _ hd => exact nomatch hp.symm.trans hd
  | started _ _ _ _ hd => exact nomatch hp.symm.trans hd

/-! ### The header step up to HEADER (R112, R113) -/

theorem coreStep_header (hp : s.phase = .pHdr ∨ s.phase = .dHdr) : coreStep s = stepHeader s := by
  rcases hp with hp | hp <;> simp only [coreStep, hp]

/-- With 14 bytes the magic alone decides between BAD_MAGIC and executing the header. -/
theorem stepHeader_of_length (hl : 14 ≤ s.len.toNat) (hcap : 14 ≤ s.cfg.inCapacity.toNat) :
    stepHeader s =
      if [byteInAt s 0, byteInAt s 1, byteInAt s 2, byteInAt s 3] = magicBytes then
        exec (.header (be32 (byteInAt s 4) (byteInAt s 5) (byteInAt s 6) (byteInAt s 7))
          (be32 (byteInAt s 8) (byteInAt s 9) (byteInAt s 10) (byteInAt s 11)) (byteInAt s 12) (byteInAt s 13)) s
      else .next (raise .badMagic s) := by
  rw [stepHeader, if_neg (Nat.not_lt.2 hl), fetchIn_of (by omega)]
  by_cases hm : [byteInAt s 0, byteInAt s 1, byteInAt s 2, byteInAt s 3] = magicBytes
  · simp only [decode, decodeHeader, List.range, List.range.loop, List.map, Nat.zero_add, if_pos hm]
  · simp only [decode, decodeHeader, List.range, List.range.loop, List.map, Nat.zero_add, if_neg hm]

end

/-! ### The step that writes a header (R119, R164) -/

theorem coreStep_eHdr {s : State} (hp : s.phase = .eHdr) : coreStep s = stepEHdr s := by simp only [coreStep, hp]

/-- E_HDR once both checks have passed. -/
theorem stepEHdr_started {s : State} (hv : imageError (latchImage s) = .none)
    (hb : imageTooBig (setPixelTotal (latchImage s)) = false) (ho : s.opos + 14 ≤ s.cfg.outCapacity.toNat) :
    stepEHdr s = .next { s with
      latW := s.imgWidth, latH := s.imgHeight, alpha := imgHasAlpha s, cs := imgColorspace s
      latN := s.imgWidth.toNat * s.imgHeight.toNat
      byteOut := Memory.writeList s.byteOut s.opos
        (streamBytes (.header s.imgWidth s.imgHeight (channelByte (imgHasAlpha s)) (imgColorspace s)))
      opos := s.opos + 14, px := opaqueBlack, cache := Vector.replicate 64 zeroPixel
      run := 0, cur := 0, phase := .ePix } := by
  simp only [stepEHdr, hv, startEncode, hb]
  rw [emitInstr_of (show (setPixelTotal (latchImage s)).opos + 14 ≤ _ from ho)]
  rfl

/-- The emitted bytes are read back in order. -/
theorem map_byteOutAt_emit (s : State) (bs : List Byte) (c : Nat) :
    (List.range bs.length).map (fun i =>
      byteOutAt { s with byteOut := Memory.writeList s.byteOut s.opos bs, opos := c } (s.opos + i)) = bs := by
  refine List.ext_getElem (by simp) fun i hi hi' => ?_
  rw [List.getElem_map, List.getElem_range, byteOutAt_emit, dif_pos (by omega)]
  simp

theorem byteOutAt_emit_of_ge (s : State) {bs : List Byte} (c : Nat) {i : Nat} (h : s.opos + bs.length ≤ i) :
    byteOutAt { s with byteOut := Memory.writeList s.byteOut s.opos bs, opos := c } i = byteOutAt s i := by
  rw [byteOutAt_emit, dif_neg (by omega)]

/-! ### The statements -/

/-- Settles O13: the length is compared first, and of the 14 bytes the first four alone decide. -/
theorem headerLengthAndMagic : Obligations.HeaderLengthAndMagic := by
  intro s hp
  rw [coreStep_header hp]
  have failed (e : ErrorCode) (ho : stepHeader s = .next (raise e s)) :
      ∃ t, stepHeader s = .next t ∧ t.errCode = e ∧ t.errPos = 0 ∧ t.errPix = 0 ∧ commandEnded t ∧
        SameHeaderRegs s t := by
    obtain ⟨hpos, hpix⟩ := raise_header_position e hp
    exact ⟨_, ho, rfl, hpos, hpix, ⟨rfl, rfl⟩, rfl, rfl, rfl⟩
  refine ⟨fun hl => failed _ (if_pos hl), fun hl hcap => ⟨fun hm => failed _ ?_, fun hm => ?_⟩⟩
  · rw [stepHeader_of_length hl hcap]; exact if_neg hm
  · rw [stepHeader_of_length hl hcap]; exact if_pos hm

/-- Settles O14: each case names the first check that fails, and its error is raised in the state before the header. -/
theorem headerChecksInOrder : Obligations.HeaderChecksInOrder := by
  intro s w h ch c hp e he
  have first : headerError s.cfg w h ch c = e ∧ e ≠ .none := by
    rcases he with ⟨rfl, hch⟩ | ⟨rfl, hch, hc⟩ | ⟨rfl, hch, hc, hd⟩
    · exact ⟨headerError_of_badChannels hch, nofun⟩
    · exact ⟨headerError_of_badColorspace hch hc, nofun⟩
    · refine ⟨headerError_of_badDimension hch hc ?_, nofun⟩
      rwa [badDimension_eq_true, badDimension_eq_true, or_assoc]
  obtain ⟨rfl, hne⟩ := first
  obtain ⟨hpos, hpix⟩ := raise_header_position (headerError s.cfg w h ch c) hp
  exact ⟨_, exec_header_failed hp hne, rfl, hpos, hpix, ⟨rfl, rfl⟩, ⟨rfl, rfl, rfl⟩, raise_header_samePix _ hp,
    rfl, rfl⟩

/-- Settles O18: the header's decoder inverts its encoder, the checks pass on what the serializer may write, and the
fields of `HDR_FMT` are those of the concatenation. -/
theorem headerRoundTrip : Obligations.HeaderRoundTrip := by
  refine ⟨fun p w h al c hw hw' hh hh' hc => ⟨decodeHeader_streamBytes w h _ c,
      headerError_of_valid (channelByte_legal al) hc hw hw' hh hh', ?_⟩,
    fun ch c => ⟨hdrFmtOf_channels ch c, hdrFmtOf_colorspace ch c, ?_, hdrFmtOf_high ch c⟩⟩
  · rw [hdrFmtOf_hasAlpha, channelByte_beq]
  · rw [hdrFmtOf_hasAlpha, beq_iff_eq]

/-- Settles O27: the frame of a header step by its moves, and the header registers by the header's error. -/
theorem headerFrame : Obligations.HeaderFrame := by
  intro s t w h ch c hx
  have hm : HeaderMove s t := execHeader_move hx
  obtain ⟨hcfg, hregs, hlen, hopos, hrun, hmodel, hin, hout, hpix⟩ := headerMove_untouched (exec_header_phase hx) hm
  exact ⟨hcfg, hregs, hlen, hopos, hrun, hmodel, hin, hout, hpix, fun hp => headerMove_parse hp hm,
    exec_header_regs hx⟩

/-- Settles O41: the checks of R162 and R163 pass, and the bytes emitted from 0 are the header's. -/
theorem encodeHeaderStep : Obligations.EncodeHeaderStep := by
  intro s hp hopos hw hw' hh hh' hc hN hcap
  have valid : imageError (latchImage s) = .none := imageError_eq_none.2
    ⟨badDimension_eq_false.2 ⟨hw, hw'⟩, badDimension_eq_false.2 ⟨hh, hh'⟩, badColorspace_eq_false.2 hc⟩
  have fits : imageTooBig (setPixelTotal (latchImage s)) = false := imageTooBig_eq_false.2 ⟨hN, hcap⟩
  rw [coreStep_eHdr hp, stepEHdr_started valid fits (by omega)]
  refine ⟨_, rfl, ?_, fun a ha => ?_, ?_, rfl, rfl, rfl, rfl, rfl, rfl, fun k => ?_, rfl, rfl, rfl, fun _ => rfl,
    fun _ => rfl, ⟨rfl, rfl, rfl, rfl, rfl⟩, rfl, rfl, rfl⟩
  · have written := map_byteOutAt_emit s
      (streamBytes (.header s.imgWidth s.imgHeight (channelByte (imgHasAlpha s)) (imgColorspace s))) (s.opos + 14)
    simp only [hopos, Nat.zero_add] at written ⊢
    exact written
  · exact byteOutAt_emit_of_ge s (s.opos + 14) (by rwa [hopos, streamBytes_length, Nat.zero_add])
  · show s.opos + 14 = 14
    rw [hopos]
  · exact Vector.getElem_replicate _

/-- Settles O15: no check of R110 fails, so P_HDR takes its last branch. -/
theorem parseHeaderCompletes : Obligations.ParseHeaderCompletes :=
  fun _ _ _ _ _ hp hch hc hw hw' hh hh' => exec_header_parsed hp (headerError_of_valid hch hc hw hw' hh hh')

/-- Settles O17: the error is raised after the header registers and the latches are written, in a phase that leaves
`PIX`. -/
theorem decodeOutOfMemory : Obligations.DecodeOutOfMemory := by
  intro s w h ch c hp hch hc hw hw' hh hh' hN
  have latched : (latchHeader w h ch c s).phase = .pHdr ∨ (latchHeader w h ch c s).phase = .dHdr := .inr hp
  obtain ⟨hpos, hpix⟩ := raise_header_position .outOfMemory latched
  exact ⟨_, exec_header_tooBig hp (headerError_of_valid hch hc hw hw' hh hh') hN, rfl, hpos, hpix, ⟨rfl, rfl⟩,
    rfl, rfl, rfl, raise_header_samePix _ latched⟩

end Sys2Proof.Machine
end

section
/-! PROOFS. The family 41_decoder.md: the cache law (R143) and that a DECODE's result is a function of its operands
(R151); what the chunks (R134 to R142), the end marker (R133, R144) and an error of the decoder (R146, R214) do and
leave. -/

namespace Sys2Proof.Machine

/-! ### The cache law (R143) -/

section

variable {s t : State}

/-- A pixel is cached in the slot of its hash. -/
theorem CacheOk.put (h : CacheOk s) (p : Pixel) : CacheOk { s with cache := cachePut s.cache p } := by
  intro k
  rw [cachePut_get]
  split
  · exact .inr ‹_›
  · exact h k

/-- The start of a pass empties every slot (R36). -/
theorem cacheOk_cleared (h : s.cache = Vector.replicate 64 zeroPixel) : CacheOk s := by
  intro k
  rw [h]
  exact .inl (Vector.getElem_replicate _)

theorem coreMove_cacheOk (h : CacheOk s) (hm : CoreMove s t) : CacheOk t := by
  cases hm with
  | header _ _ hm _ =>
    cases hm with
    | started => exact cacheOk_cleared rfl
    | failed | parsed | tooBig => exact h
  | chunk i _ _ _ _ _ _ _ _ hm =>
    cases hm with
    | made => exact h.put (madePixel s.px i)
    | indexed | ran | overflowed => exact h
  | encodeStarted => exact cacheOk_cleared rfl
  | pixel _ _ _ hm =>
    cases hm with
    | emitted p => exact h.put p
    | counted | runEmitted => exact h
  | _ => exact h

/-! #### No host action writes the cache -/

theorem whenIdle_cache {f : State → State} (hf : (f s).cache = s.cache) (hx : whenIdle f s = .next t) :
    t.cache = s.cache := by
  by_cases hp : s.phase = .idle
  · rw [whenIdle_of_idle hp] at hx; injection hx with hx; exact hx ▸ hf
  · rw [whenIdle_of_busy hp] at hx; injection hx with hx; exact hx ▸ rfl

theorem exec_decodeCommand_cache {v : Word} (hx : exec (decodeCommand v) s = .next t) : t.cache = s.cache := by
  unfold decodeCommand at hx
  split at hx
  · exact whenIdle_cache (accept_cache _ _) hx
  split at hx
  · exact whenIdle_cache (accept_cache _ _) hx
  split at hx
  · exact whenIdle_cache (accept_cache _ _) hx
  · exact whenIdle_cache (rejectCommand_cache _) hx

theorem regWrite_cache {r : Reg} {v : Word} (hx : regWrite r v s = .next t) : t.cache = s.cache := by
  cases r with
  | cmd => exact exec_decodeCommand_cache hx
  | inLen => exact whenIdle_cache (f := fun s => { s with inLen := clampLen s.cfg v }) rfl hx
  | imgWidth => exact whenIdle_cache (f := fun s => { s with imgWidth := v }) rfl hx
  | imgHeight => exact whenIdle_cache (f := fun s => { s with imgHeight := v }) rfl hx
  | imgFmt => exact whenIdle_cache (f := fun s => { s with imgFmt := v &&& 0xFF01 }) rfl hx
  | _ => injection hx with hx; exact hx ▸ rfl

theorem hostStep_cache {act : HostAction} (hx : hostStep act s = .next t) : t.cache = s.cache := by
  cases act with
  | readReg off =>
    simp only [hostStep] at hx
    split at hx
    · cases hx
    · injection hx with hx; exact hx ▸ rfl
  | writeReg off v =>
    simp only [hostStep] at hx
    split at hx
    · cases hx
    · exact regWrite_cache hx
  | readIn | writeIn | readOut | writeOut | readPix | writePix =>
    obtain ⟨-, -, rfl⟩ := hostMemory_eq_next.1 hx; rfl

end

/-! ### Errors of D_CHUNK and D_TAIL (R146, R213, R214) -/

section

variable {s : State}

theorem recordsPosition_eq_true : recordsPosition s = true ↔ s.phase = .dChunk ∨ s.phase = .dTail := by
  simp [recordsPosition]

theorem raise_position (e : ErrorCode) (hp : s.phase = .dChunk ∨ s.phase = .dTail) :
    (raise e s).errPos = BitVec.ofNat 32 s.ipos ∧ (raise e s).errPix = BitVec.ofNat 32 s.cur := by
  rw [raise_errPos, raise_errPix, recordsPosition_eq_true.2 hp]
  exact ⟨rfl, rfl⟩

theorem raise_noPosition (e : ErrorCode) (hc : s.phase ≠ .dChunk) (ht : s.phase ≠ .dTail) :
    (raise e s).errPos = 0 ∧ (raise e s).errPix = 0 := by
  have hr : recordsPosition s = false := Bool.eq_false_iff.2 fun hr => (recordsPosition_eq_true.1 hr).elim hc ht
  rw [raise_errPos, raise_errPix, hr]
  exact ⟨rfl, rfl⟩

/-- An error loses no entry of `PIX` at or above `N`, whatever the phase. -/
theorem pixAt_raise_of_ge (e : ErrorCode) {i : Nat} (hi : s.latN ≤ i) : pixAt (raise e s) i = pixAt s i := by
  rw [pixAt_raise, if_neg]
  rintro ⟨-, hlt⟩
  omega

end

/-! ### The end marker (R133, R144) -/

section

variable {s t : State}

theorem exec_endMarker_dChunk (hp : s.phase = .dChunk) : exec .endMarker s = .next (raise .unexpectedEof s) := by
  simp only [exec, execEndMarker, hp]

theorem exec_endMarker_dTail (hp : s.phase = .dTail) :
    exec .endMarker s = if 8 < s.len.toNat - s.ipos then .next (raise .trailingData s)
      else .next (finish { s with pixCount := BitVec.ofNat 32 s.latN }) := by
  simp only [exec, execEndMarker, hp]

theorem exec_endMarker_finishes (hp : s.phase = .dTail) (hl : s.len.toNat - s.ipos = 8) :
    exec .endMarker s = .next (finish { s with pixCount := BitVec.ofNat 32 s.latN }) := by
  rw [exec_endMarker_dTail hp, if_neg (by omega)]

/-- Every answer of END is an error or the successful end of a decode. -/
theorem exec_endMarker_answer (hx : exec .endMarker s = .next t) :
    (∃ e, t = raise e s) ∨ t = finish { s with pixCount := BitVec.ofNat 32 s.latN } := by
  cases hp : s.phase with
  | dChunk => exact .inl ⟨_, Host.Outcome.next.inj (hx.symm.trans (exec_endMarker_dChunk hp))⟩
  | dTail =>
    rw [exec_endMarker_dTail hp] at hx
    split at hx <;> injection hx with hx
    · exact .inl ⟨_, hx.symm⟩
    · exact .inr hx.symm
  | idle | pHdr | dHdr | eHdr | ePix | eEnd => simp only [exec, execEndMarker, hp] at hx; cases hx

end

/-! ### The steps of D_CHUNK and D_TAIL (R132, R144) -/

section

variable {s : State}

theorem fetchIn_length {a n : Nat} {bs : List Byte} (hf : fetchIn a n s = some bs) : bs.length = n := by
  obtain ⟨-, rfl⟩ := fetchIn_eq_some.1 hf
  rw [List.length_map, List.length_range]

theorem coreStep_dChunk (hp : s.phase = .dChunk) : coreStep s = stepChunk s := by simp only [coreStep, hp]

theorem coreStep_dTail (hp : s.phase = .dTail) : coreStep s = stepTail s := by simp only [coreStep, hp]

theorem stepChunk_short (hl : s.len.toNat - s.ipos < 8) : stepChunk s = .next (raise .unexpectedEof s) := if_pos hl

theorem stepChunk_decoded {bs rest : List Byte} {i : Instr} (hl : 8 ≤ s.len.toNat - s.ipos)
    (hf : fetchIn s.ipos 8 s = some bs) (hd : decodeChunk bs = .ok (i, rest)) : stepChunk s = exec i s := by
  rw [stepChunk, if_neg (Nat.not_lt.2 hl), hf]
  simp only [decode, hd]

theorem stepTail_short (hl : s.len.toNat - s.ipos < 8) : stepTail s = .next (raise .unexpectedEof s) := if_pos hl

theorem stepTail_fetched {bs : List Byte} (hl : 8 ≤ s.len.toNat - s.ipos) (hf : fetchIn s.ipos 8 s = some bs) :
    stepTail s = if bs = endMarkerBytes then exec .endMarker s else .next (raise .badEndMarker s) := by
  rw [stepTail, if_neg (Nat.not_lt.2 hl), hf]

end

/-! ### What a chunk leaves (R134 to R140) -/

section

variable {s : State}

/-- A chunk that ends writes `px`, the cache, `PIX`, `cur`, `ipos` and `phase`, and nothing else. -/
theorem chunkFrame_endChunk (s : State) (k : Nat) (p : Pixel) (c : Vector Pixel 64) (m : Memory Pixel) (n : Nat) :
    ChunkFrame s (endChunk k { s with px := p, cache := c, pix := m, cur := n }) :=
  ⟨rfl, ⟨rfl, rfl, rfl, rfl, rfl⟩, ⟨rfl, rfl, rfl⟩, ⟨rfl, rfl, rfl, rfl, rfl, rfl⟩, ⟨rfl, rfl, rfl, rfl, rfl, rfl⟩,
    rfl, rfl, ⟨rfl, rfl, rfl, rfl⟩, fun _ => rfl, fun _ => rfl⟩

theorem endChunk_phase_of_dChunk (k : Nat) (hp : s.phase = .dChunk) :
    (endChunk k s).phase = if s.cur = s.latN then .dTail else .dChunk := by rw [endChunk_phase, hp]

/-- What `PIX` reads as after `n` copies of a pixel are put. -/
theorem pixAt_run (s : State) (p : Pixel) (n c i : Nat) :
    pixAt { s with pix := Memory.writeList s.pix s.cur (List.replicate n p), cur := c } i =
      if s.cur ≤ i ∧ i < s.cur + n then p else pixAt s i := by
  rw [pixAt_put]
  simp only [List.length_replicate, List.getElem_replicate, dite_eq_ite]

/-- RGB, RGBA, DIFF and LUMA: the new pixel is cached and put (R135, R136, R138, R139). -/
theorem exec_made {i : Instr} (hm : makesPixel i = true) (hp : s.phase = .dChunk)
    (hc : s.cur < s.cfg.pixCapacity.toNat) :
    ∃ t, exec i s = .next t ∧ t.px = madePixel s.px i ∧
      (∀ k : Fin 64, t.cache[k] = if k = pixelHash t.px then t.px else s.cache[k]) ∧
      pixAt t s.cur = t.px ∧ (∀ a, a ≠ s.cur → pixAt t a = pixAt s a) ∧ t.cur = s.cur + 1 ∧
      t.ipos = s.ipos + i.size ∧ (t.phase = if t.cur = s.latN then .dTail else .dChunk) ∧ ChunkFrame s t := by
  have put (a : Nat) := pixAt_write s s.cur a (madePixel s.px i)
  refine ⟨_, (exec_chunk_eq_next (isChunk_of_makesPixel hm)).2 ⟨hp, .made hm hc⟩, rfl, fun k => ?_,
    (put _).trans (if_pos rfl), fun a ha => (put a).trans (if_neg ha), rfl, rfl,
    endChunk_phase_of_dChunk _ hp, chunkFrame_endChunk ..⟩
  simp only [@eq_comm _ k]
  exact cachePut_get s.cache _ k

end

/-! ### Channels modulo 256 (R7, R8) -/

theorem addDelta_toNat (c : Byte) (d : Int) : ((addDelta c d).toNat : Int) = (c.toNat + d) % 256 := by
  rw [addDelta, u8, BitVec.toNat_ofInt]
  exact Int.toNat_of_nonneg (Int.emod_nonneg _ (by decide))

theorem diffPixel_channels (px : Pixel) (dr dg db : Int) :
    ((diffPixel px dr dg db).r.toNat : Int) = (px.r.toNat + dr) % 256 ∧
      ((diffPixel px dr dg db).g.toNat : Int) = (px.g.toNat + dg) % 256 ∧
      ((diffPixel px dr dg db).b.toNat : Int) = (px.b.toNat + db) % 256 ∧ (diffPixel px dr dg db).a = px.a :=
  ⟨addDelta_toNat _ _, addDelta_toNat _ _, addDelta_toNat _ _, rfl⟩

/-! ### Two commands in step, under any interleavings (R190, R203) -/

/-- Where `o` answers a next state, `o'` answers one that `R` relates to it. -/
def Simulates (R : State → State → Prop) (o o' : Result) : Prop := ∀ t, o = .next t → ∃ v, o' = .next v ∧ R t v

/-- `R` relates states of one phase, and the core's steps of a running command keep it. -/
def IsSimulation (R : State → State → Prop) : Prop :=
  ∀ s u, R s u → u.phase = s.phase ∧ (s.phase ≠ .idle → Simulates R (coreStep s) (coreStep u))

section

variable {R : State → State → Prop} {s u t : State}

theorem Simulates.next {t v : State} (h : R t v) : Simulates R (.next t) (.next v) := by
  intro _ e
  injection e with e
  exact ⟨v, rfl, e ▸ h⟩

/-- The cores' runs alone stay related. -/
theorem IsSimulation.runs_related (hR : IsSimulation R) (n : Nat) :
    ∀ {s u t : State}, s.turns = [] → u.turns = [] → R s u → BusyBefore n s → runs n s = .next t →
      ∃ v, runs n u = .next v ∧ BusyBefore n u ∧ R t v := by
  induction n with
  | zero =>
    intro s u t _ _ h _ hx
    injection hx with hx
    exact ⟨u, rfl, fun j _ hj => absurd hj (Nat.not_lt_zero j), hx ▸ h⟩
  | succ n ih =>
    intro s u t hs hu h hbusy hx
    obtain ⟨s', hs', hx⟩ := andThen_eq_next.1 hx
    have hb : s.phase ≠ .idle := hbusy 0 s (Nat.succ_pos n) rfl
    obtain ⟨hph, hsim⟩ := hR s u h
    have hcs : coreStep s = .next s' := (step_core_of_nil hs).symm.trans hs'
    obtain ⟨u', hcu, h'⟩ := hsim hb s' hcs
    have hu' : step u = .next u' := (step_core_of_nil hu).trans hcu
    obtain ⟨v, hv, hbv, htv⟩ :=
      ih ((coreStep_turns hcs).trans hs) ((coreStep_turns hcu).trans hu) h' (hbusy.step hs') hx
    exact ⟨v, by rw [runs_succ, hu']; exact hv, hbv.succ (hph ▸ hb) hu', htv⟩

/-- A command that began with `DONE` clear has it set exactly when it is over. -/
theorem DoneOk.done_eq {k : Nat} (h : DoneOk k s t) (hd : s.done = false) (h0 : k = 0 → t.phase ≠ .idle) :
    t.done = decide (t.phase = .idle) := by
  obtain ⟨hend, hrun⟩ := h
  by_cases hi : t.phase = .idle
  · rw [hend (fun hk => h0 hk hi) hi, decide_eq_true hi]
  · rw [hrun hd hi, decide_eq_false hi]

/-- The moves after the first, up to and with the one that reaches `t`. -/
theorem reaches_succ_iff {s' : State} {k : Nat} (hx : step s = .next s') :
    Reaches (k + 1) s t ↔ runs k s' = .next t ∧ BusyBefore k s' := by
  have later (j : Nat) : runs (j + 1) s = runs j s' := by rw [runs_succ, hx]; rfl
  rw [Reaches, later]
  refine and_congr_right fun _ => ⟨fun h j v hj hv => h (j + 1) v (Nat.succ_pos j) (Nat.succ_lt_succ hj) ?_, ?_⟩
  · rw [later]; exact hv
  · rintro h (_ | j) v h0 hj hv
    · exact absurd h0 (Nat.lt_irrefl 0)
    · rw [later] at hv; exact h j v (Nat.lt_of_succ_lt_succ hj) hv

theorem step_writeCmd {v : Word} {ts : List Turn} (ht : s.turns = .host (.writeReg 0x08 v) :: ts) :
    step s = exec (decodeCommand v) { s with turns := ts } :=
  (step_host ht).trans (hostStep_writeReg (r := .cmd) rfl v _)

/-- A command accepted in two idle states, its runs alone related from there on: whatever register accesses come
between, each state the one reaches is matched, after as many core steps, by one the other reaches. -/
theorem IsSimulation.accepted (hR : IsSimulation R) {v : Word} {ph : Phase} {ts us : List Turn} {k : Nat}
    (hv : ∀ s, exec (decodeCommand v) s = whenIdle (accept ph) s) (hph : ph ≠ .idle)
    (hs : s.phase = .idle) (hu : u.phase = .idle)
    (hts : s.turns = .host (.writeReg 0x08 v) :: ts) (hus : u.turns = .host (.writeReg 0x08 v) :: us)
    (rts : RegisterTurns ts) (rus : RegisterTurns us)
    (h : R (accept ph { s with turns := [] }) (accept ph { u with turns := [] })) (hx : Reaches (k + 1) s t) :
    ∃ j w a b, coreMoves j us = coreMoves k ts ∧ Reaches (j + 1) u w ∧ SameRun a t ∧ SameRun b w ∧ R a b ∧
      w.done = t.done := by
  have starts {s : State} {ts : List Turn} (hs : s.phase = .idle) (hts : s.turns = .host (.writeReg 0x08 v) :: ts) :
      step s = .next (accept ph { s with turns := ts }) := by
    rw [step_writeCmd hts, hv]; exact whenIdle_of_idle hs
  obtain ⟨hx, hbusy⟩ := (reaches_succ_iff (starts hs hts)).1 hx
  obtain ⟨a, ha, hat, hba, hdt⟩ := alone_of_interleaved k rfl
    (sameRun_hostSide _ _ _ ts (accept ph { s with turns := [] })) rts hbusy hx
  obtain ⟨b, hb, hbb, hab⟩ := hR.runs_related _ rfl rfl h hba ha
  obtain ⟨j, w, hj, hw, hbw, hbusy', hdw, -⟩ := interleaved_of_alone _ rfl hbb hb us rfl
    (sameRun_hostSide _ _ _ us (accept ph { u with turns := [] })) rus
  refine ⟨j, w, a, b, hj, (reaches_succ_iff (starts hu hus)).2 ⟨hw, hbusy'⟩, hat, hbw, hab, ?_⟩
  have phases : w.phase = t.phase := by rw [hbw.phase, hat.phase, (hR a b hab).1]
  rw [hdw.done_eq rfl, hdt.done_eq rfl, phases]
  · rintro rfl
    injection hx with hx; exact hx ▸ hph
  · intro h0
    rw [h0] at hb
    injection hb with hb
    rw [hbw.phase, ← hb]; exact hph

end

/-! ### What two DECODEs of the same operands have in common (R151) -/

/-- The operands: `MAX_DIMENSION`, `PIX_CAPACITY`, `len` and `BYTE_IN[0..len)`, which lies in both memories. -/
def SameOperands (s u : State) : Prop :=
  u.cfg.maxDimension = s.cfg.maxDimension ∧ u.cfg.pixCapacity = s.cfg.pixCapacity ∧ u.len = s.len ∧
    s.len.toNat ≤ s.cfg.inCapacity.toNat ∧ u.len.toNat ≤ u.cfg.inCapacity.toNat ∧
    ∀ a, a < s.len.toNat → byteInAt u a = byteInAt s a

/-- How far the pixels are decoded: the pixel state, the cursors, `N`, and the pixels put so far. -/
def SameProgress (s u : State) : Prop :=
  u.px = s.px ∧ u.cache = s.cache ∧ u.ipos = s.ipos ∧ u.cur = s.cur ∧ u.latN = s.latN ∧
    ∀ i, i < s.cur → pixAt u i = pixAt s i

/-- What is common in each phase of a DECODE: nothing more until the header is read; then the progress; and at a
successful end the pixels. -/
def SamePoint (s u : State) : Prop :=
  match s.phase with
  | .dHdr => True
  | .dChunk => SameProgress s u
  | .dTail => SameProgress s u ∧ s.cur = s.latN
  | .idle => s.errCode = .none → ∀ i, i < s.pixCount.toNat → pixAt u i = pixAt s i
  | .pHdr => False
  | .eHdr => False
  | .ePix => False
  | .eEnd => False

/-- Two DECODEs of the same operands, accepted in `s₀` and `u₀`, after as many core steps: the header registers are
written alike, or not at all (R117). -/
structure SameDecode (s₀ u₀ s u : State) : Prop where
  operands : SameOperands s u
  phase : u.phase = s.phase
  results : SameResultRegs s u
  header : SameHeaderRegs s u ∨ SameHeaderRegs s₀ s ∧ SameHeaderRegs u₀ u
  point : SamePoint s u

section

variable {s₀ u₀ s u : State}

theorem samePoint_dHdr (hp : s.phase = .dHdr) : SamePoint s u := by simp only [SamePoint, hp]

theorem samePoint_dChunk (hp : s.phase = .dChunk) : SamePoint s u ↔ SameProgress s u := by simp only [SamePoint, hp]

theorem samePoint_dTail (hp : s.phase = .dTail) : SamePoint s u ↔ SameProgress s u ∧ s.cur = s.latN := by
  simp only [SamePoint, hp]

theorem samePoint_idle (hp : s.phase = .idle) :
    SamePoint s u ↔ (s.errCode = .none → ∀ i, i < s.pixCount.toNat → pixAt u i = pixAt s i) := by
  simp only [SamePoint, hp]

/-! #### Reading the operands -/

theorem SameOperands.fetched (h : SameOperands s u) {a n : Nat} (ha : a + n ≤ s.len.toNat) :
    ∃ bs, fetchIn a n s = some bs ∧ fetchIn a n u = some bs := by
  obtain ⟨-, -, hlen, hin, hin', hbytes⟩ := h
  refine ⟨_, fetchIn_of (Nat.le_trans ha hin), ?_⟩
  rw [fetchIn_of (Nat.le_trans ha (hlen ▸ hin'))]
  refine congrArg some (List.map_congr_left fun i hi => hbytes _ ?_)
  exact Nat.lt_of_lt_of_le (Nat.add_lt_add_left (List.mem_range.1 hi) a) ha

theorem SameOperands.bytesLeft (h : SameOperands s u) (hi : u.ipos = s.ipos) :
    u.len.toNat - u.ipos = s.len.toNat - s.ipos := by
  obtain ⟨-, -, hlen, -, -, -⟩ := h
  rw [hlen, hi]

theorem headerError_congr {p q : Params} (hpq : q.maxDimension = p.maxDimension) (w h : Word) (ch c : Byte) :
    headerError q w h ch c = headerError p w h ch c := by
  have dimension (v : Word) : badDimension q v = badDimension p v := by rw [badDimension, badDimension, hpq]
  simp only [headerError, dimension]

/-- Eight bytes always hold a chunk or an end marker (R94). -/
theorem decodeChunk_of_length {bs : List Byte} (hl : bs.length = 8) : ∃ i rest, decodeChunk bs = .ok (i, rest) := by
  cases bs with
  | nil => cases hl
  | cons t more =>
    obtain ⟨i, rest, hd, -⟩ := tagSpaceIsTotal t more (Nat.succ.inj hl).ge
    exact ⟨i, rest, hd⟩

/-! #### Errors, and the ends of the chunks -/

/-- The same error in both; a phase that records the position has reached the same one. -/
theorem SameDecode.raised (h : SameDecode s₀ u₀ s u) {e : ErrorCode} (he : e ≠ .none)
    (hpos : recordsPosition s = true → u.ipos = s.ipos ∧ u.cur = s.cur) :
    SameDecode s₀ u₀ (raise e s) (raise e u) := by
  have hr : recordsPosition u = recordsPosition s := by simp only [recordsPosition, h.phase]
  have position : (raise e u).errPos = (raise e s).errPos ∧
      (raise e u).errPix = (raise e s).errPix := by
    simp only [raise_errPos, raise_errPix, hr]
    split
    · obtain ⟨hi, hc⟩ := hpos ‹_›
      rw [hi, hc]; exact ⟨rfl, rfl⟩
    · exact ⟨rfl, rfl⟩
  exact ⟨h.operands, rfl, ⟨rfl, rfl, position.1, position.2, rfl, rfl⟩, h.header,
    (samePoint_idle rfl).2 fun hn => absurd hn he⟩

theorem SameDecode.raised_dHdr (h : SameDecode s₀ u₀ s u) (hp : s.phase = .dHdr) {e : ErrorCode} (he : e ≠ .none) :
    SameDecode s₀ u₀ (raise e s) (raise e u) :=
  h.raised he fun hr => by rw [recordsPosition_header (.inr hp)] at hr; cases hr

theorem SameDecode.raised_progress (h : SameDecode s₀ u₀ s u) (hsame : SameProgress s u) {e : ErrorCode}
    (he : e ≠ .none) : SameDecode s₀ u₀ (raise e s) (raise e u) := by
  obtain ⟨-, -, hi, hc, -, -⟩ := hsame
  exact h.raised he fun _ => ⟨hi, hc⟩

/-- The same pixels put by a chunk of the same length, with the same `px` and cache after it. -/
theorem SameProgress.chunkEnded (h : SameProgress s u) (k : Nat) {p p' : Pixel} {c c' : Vector Pixel 64}
    {ps ps' : List Pixel} (hp : p' = p) (hc : c' = c) (hps : ps' = ps) :
    SameProgress
      (endChunk k { s with px := p, cache := c, pix := Memory.writeList s.pix s.cur ps, cur := s.cur + ps.length })
      (endChunk k { u with
        px := p', cache := c', pix := Memory.writeList u.pix u.cur ps', cur := u.cur + ps'.length }) := by
  subst hp hc hps
  obtain ⟨-, -, hi, hcur, hN, hpix⟩ := h
  refine ⟨rfl, rfl, congrArg (· + k) hi, congrArg (· + ps'.length) hcur, hN, fun i hlt => ?_⟩
  refine (pixAt_put u ps' (u.cur + ps'.length) i).trans (Eq.trans ?_ (pixAt_put s ps' (s.cur + ps'.length) i).symm)
  simp only [hcur]
  split
  · rfl
  · have hlt : i < s.cur + ps'.length := hlt
    exact hpix i (by omega)

theorem SameDecode.chunkEnded (h : SameDecode s₀ u₀ s u) (hs : s.phase = .dChunk) (k : Nat) {p p' : Pixel}
    {c c' : Vector Pixel 64} {ps ps' : List Pixel} (hp : p' = p) (hc : c' = c) (hps : ps' = ps) :
    SameDecode s₀ u₀
      (endChunk k { s with px := p, cache := c, pix := Memory.writeList s.pix s.cur ps, cur := s.cur + ps.length })
      (endChunk k { u with
        px := p', cache := c', pix := Memory.writeList u.pix u.cur ps', cur := u.cur + ps'.length }) := by
  have hsame := (samePoint_dChunk hs).1 h.point
  have later := hsame.chunkEnded k hp hc hps
  obtain ⟨-, -, -, hcur, hN, -⟩ := id later
  refine ⟨h.operands, ?_, h.results, h.header, ?_⟩
  · rw [endChunk_phase, endChunk_phase]
    simp only [endChunk_cur, endChunk_latN] at hcur hN
    simp only [hcur, hN, h.phase]
  · by_cases hend : s.cur + ps.length = s.latN
    · exact (samePoint_dTail (if_pos hend)).2 ⟨later, hend⟩
    · exact (samePoint_dChunk ((if_neg hend).trans hs)).2 later

/-! #### The instructions -/

theorem exec_chunk_simulates (h : SameDecode s₀ u₀ s u) (hs : s.phase = .dChunk) {i : Instr}
    (hi : i.isChunk = true) : Simulates (SameDecode s₀ u₀) (exec i s) (exec i u) := by
  intro t hx
  obtain ⟨-, hm⟩ := (exec_chunk_eq_next hi).1 hx
  have hsame := (samePoint_dChunk hs).1 h.point
  obtain ⟨hpx, hcache, -, hcur, hN, -⟩ := id hsame
  obtain ⟨-, hcap, -, -, -, -⟩ := h.operands
  have matched {v : State} (hm : ChunkMove i u v) (ht : SameDecode s₀ u₀ t v) :
      ∃ v, exec i u = .next v ∧ SameDecode s₀ u₀ t v :=
    ⟨v, (exec_chunk_eq_next hi).2 ⟨h.phase.trans hs, hm⟩, ht⟩
  cases hm with
  | made hmk hc =>
    exact matched (.made hmk (by rwa [hcur, hcap]))
      (h.chunkEnded hs i.size (ps := [_]) (ps' := [_]) (by rw [hpx]) (by rw [hpx, hcache]) (by rw [hpx]))
  | indexed k hk hc =>
    exact matched (.indexed k hk (by rwa [hcur, hcap]))
      (h.chunkEnded hs 1 (ps := [_]) (ps' := [_]) (by rw [hcache]) hcache (by rw [hcache]))
  | ran n hn hfits hc =>
    have hend := h.chunkEnded hs 1 (ps := List.replicate n s.px) (ps' := List.replicate n u.px) hpx hcache (by rw [hpx])
    simp only [List.length_replicate] at hend
    exact matched (.ran n hn (by rwa [hcur, hN]) (by rwa [hcur, hcap])) hend
  | overflowed n hn hover =>
    exact matched (.overflowed n hn (by rwa [hcur, hN])) (h.raised_progress hsame nofun)

/-- The successful end: the pixels below `PIX_COUNT`, which holds `N` modulo 2^32, are all put. -/
theorem SameDecode.finished (h : SameDecode s₀ u₀ s u) (hs : s.phase = .dTail) :
    SameDecode s₀ u₀ (finish { s with pixCount := BitVec.ofNat 32 s.latN })
      (finish { u with pixCount := BitVec.ofNat 32 u.latN }) := by
  obtain ⟨⟨-, -, -, -, hN, hpix⟩, hcur⟩ := (samePoint_dTail hs).1 h.point
  obtain ⟨-, herr, hpos, hpx, -, hout⟩ := h.results
  refine ⟨h.operands, rfl, ⟨rfl, herr, hpos, hpx, congrArg (BitVec.ofNat 32) hN, hout⟩, h.header,
    (samePoint_idle rfl).2 fun _ i hi => hpix i (Nat.lt_of_lt_of_le hi ?_)⟩
  show (BitVec.ofNat 32 s.latN).toNat ≤ s.cur
  rw [BitVec.toNat_ofNat, hcur]
  exact Nat.mod_le _ _

theorem exec_endMarker_dTail_simulates (h : SameDecode s₀ u₀ s u) (hs : s.phase = .dTail) :
    Simulates (SameDecode s₀ u₀) (exec .endMarker s) (exec .endMarker u) := by
  have hsame := ((samePoint_dTail hs).1 h.point).1
  obtain ⟨-, -, hi, -, -, -⟩ := id hsame
  rw [exec_endMarker_dTail hs, exec_endMarker_dTail (h.phase.trans hs), h.operands.bytesLeft hi]
  split
  · exact .next (h.raised_progress hsame nofun)
  · exact .next (h.finished hs)

/-- The header registers and the latches take the same header. -/
theorem SameDecode.headerLatched (h : SameDecode s₀ u₀ s u) (hs : s.phase = .dHdr) (w v : Word) (ch c : Byte) :
    SameDecode s₀ u₀ (latchHeader w v ch c s) (latchHeader w v ch c u) :=
  ⟨h.operands, h.phase, h.results, .inl ⟨rfl, rfl, rfl⟩, samePoint_dHdr hs⟩

theorem exec_header_simulates (h : SameDecode s₀ u₀ s u) (hs : s.phase = .dHdr) (w v : Word) (ch c : Byte) :
    Simulates (SameDecode s₀ u₀) (exec (.header w v ch c) s) (exec (.header w v ch c) u) := by
  have hu : u.phase = .dHdr := h.phase.trans hs
  obtain ⟨hmax, hcap, -, -, -, -⟩ := h.operands
  have herr : headerError u.cfg w v ch c = headerError s.cfg w v ch c := headerError_congr hmax w v ch c
  have latched := h.headerLatched hs w v ch c
  by_cases hv : headerError s.cfg w v ch c = .none
  · rcases Nat.lt_or_ge s.cfg.pixCapacity.toNat (w.toNat * v.toNat) with hN | hN
    · rw [exec_header_tooBig hs hv hN, exec_header_tooBig hu (herr.trans hv) (by rwa [hcap])]
      exact .next (latched.raised_dHdr hs nofun)
    · rw [exec_header_started hs hv hN, exec_header_started hu (herr.trans hv) (by rwa [hcap])]
      exact .next ⟨latched.operands, rfl, latched.results, latched.header,
        (samePoint_dChunk rfl).2 ⟨rfl, rfl, rfl, rfl, rfl, fun i hi => absurd hi (Nat.not_lt_zero i)⟩⟩
  · rw [exec_header_failed (.inr hs) hv, exec_header_failed (.inr hu) (herr ▸ hv), herr]
    exact .next (h.raised_dHdr hs hv)

/-! #### The steps -/

theorem stepHeader_simulates (h : SameDecode s₀ u₀ s u) (hs : s.phase = .dHdr) :
    Simulates (SameDecode s₀ u₀) (stepHeader s) (stepHeader u) := by
  obtain ⟨-, -, hlen, hin, hin', hbytes⟩ := h.operands
  rcases Nat.lt_or_ge s.len.toNat 14 with hl | hl
  · rw [stepHeader, stepHeader, hlen, if_pos hl, if_pos hl]
    exact .next (h.raised_dHdr hs nofun)
  · have hl' : 14 ≤ u.len.toNat := hlen ▸ hl
    have same (a : Nat) (ha : a < 14) : byteInAt u a = byteInAt s a := hbytes a (Nat.lt_of_lt_of_le ha hl)
    rw [stepHeader_of_length hl (Nat.le_trans hl hin), stepHeader_of_length hl' (Nat.le_trans hl' hin')]
    simp only [same, Nat.reduceLT]
    split
    · exact exec_header_simulates h hs _ _ _ _
    · exact .next (h.raised_dHdr hs nofun)

theorem stepChunk_simulates (h : SameDecode s₀ u₀ s u) (hs : s.phase = .dChunk) :
    Simulates (SameDecode s₀ u₀) (stepChunk s) (stepChunk u) := by
  have hsame := (samePoint_dChunk hs).1 h.point
  obtain ⟨-, -, hi, -, -, -⟩ := id hsame
  have left := h.operands.bytesLeft hi
  rcases Nat.lt_or_ge (s.len.toNat - s.ipos) 8 with hl | hl
  · rw [stepChunk_short hl, stepChunk_short (left ▸ hl)]
    exact .next (h.raised_progress hsame nofun)
  · obtain ⟨bs, hf, hf'⟩ := h.operands.fetched (show s.ipos + 8 ≤ s.len.toNat by omega)
    obtain ⟨i, rest, hd⟩ := decodeChunk_of_length (fetchIn_length hf)
    rw [stepChunk_decoded hl hf hd, stepChunk_decoded (left ▸ hl) (hi ▸ hf') hd]
    rcases decodeChunk_kind hd with rfl | hc
    · rw [exec_endMarker_dChunk hs, exec_endMarker_dChunk (h.phase.trans hs)]
      exact .next (h.raised_progress hsame nofun)
    · exact exec_chunk_simulates h hs hc

theorem stepTail_simulates (h : SameDecode s₀ u₀ s u) (hs : s.phase = .dTail) :
    Simulates (SameDecode s₀ u₀) (stepTail s) (stepTail u) := by
  have hsame := ((samePoint_dTail hs).1 h.point).1
  obtain ⟨-, -, hi, -, -, -⟩ := id hsame
  have left := h.operands.bytesLeft hi
  rcases Nat.lt_or_ge (s.len.toNat - s.ipos) 8 with hl | hl
  · rw [stepTail_short hl, stepTail_short (left ▸ hl)]
    exact .next (h.raised_progress hsame nofun)
  · obtain ⟨bs, hf, hf'⟩ := h.operands.fetched (show s.ipos + 8 ≤ s.len.toNat by omega)
    rw [stepTail_fetched hl hf, stepTail_fetched (left ▸ hl) (hi ▸ hf')]
    split
    · exact exec_endMarker_dTail_simulates h hs
    · exact .next (h.raised_progress hsame nofun)

end

/-- The core's steps of two DECODEs of the same operands keep what they have in common. -/
theorem sameDecode_isSimulation (s₀ u₀ : State) : IsSimulation (SameDecode s₀ u₀) := by
  intro s u h
  refine ⟨h.phase, fun hb => ?_⟩
  have hpoint := h.point
  cases hs : s.phase with
  | dHdr =>
    rw [coreStep_header (.inr hs), coreStep_header (.inr (h.phase.trans hs))]
    exact stepHeader_simulates h hs
  | dChunk =>
    rw [coreStep_dChunk hs, coreStep_dChunk (h.phase.trans hs)]
    exact stepChunk_simulates h hs
  | dTail =>
    rw [coreStep_dTail hs, coreStep_dTail (h.phase.trans hs)]
    exact stepTail_simulates h hs
  | idle => exact absurd hs hb
  | pHdr | eHdr | ePix | eEnd => simp only [SamePoint, hs] at hpoint

/-! ### The statements -/

/-- Settles O51: the core caches a pixel in the slot of its hash or empties the cache, the host never writes it, and
the reset state's cache is empty; the coming turns are no part of it. -/
theorem everyStepKeepsCacheLaw : Obligations.EveryStepKeepsCacheLaw := by
  intro s t h hx
  cases hs : s.turns with
  | nil => exact coreMove_cacheOk h (coreStep_move (step_core_of_nil hs ▸ hx))
  | cons turn ts =>
    have later : CacheOk { s with turns := ts } := h
    cases turn with
    | core => exact coreMove_cacheOk later (coreStep_move (step_core hs ▸ hx))
    | host act =>
      intro k
      rw [hostStep_cache (step_host hs ▸ hx)]
      exact h k
    | reset =>
      rw [step_reset hs] at hx
      injection hx with hx; exact hx ▸ cacheOk_cleared rfl

/-- Settles O58: acceptance puts two idle states with the same operands in step, the core's steps keep them so, and the
register accesses between these change no result. -/
theorem decodeIsDeterministic : Obligations.DecodeIsDeterministic := by
  intro s u ts us hs hu hts hus rts rus hmax hcap hlen hin hin' hbytes k t hx
  have start : SameDecode s u (accept .dHdr { s with turns := [] }) (accept .dHdr { u with turns := [] }) :=
    ⟨⟨hmax, hcap, hlen, hin, hin', hbytes⟩, rfl, ⟨rfl, rfl, rfl, rfl, rfl, rfl⟩,
      .inr ⟨⟨rfl, rfl, rfl⟩, rfl, rfl, rfl⟩, samePoint_dHdr rfl⟩
  obtain ⟨j, v, a, b, hj, hv, hat, hbv, hab, hdone⟩ := (sameDecode_isSimulation s u).accepted
    (ph := .dHdr) (fun _ => rfl) nofun hs hu hts hus rts rus start hx
  obtain ⟨-, herr, hpos, hpix, hcount, hout⟩ := hab.results
  obtain ⟨c, d, w, xs, rfl⟩ : ∃ c d w xs, t = hostSide c d w xs a := ⟨_, _, _, _, hat⟩
  obtain ⟨c', d', w', xs', rfl⟩ : ∃ c d w xs, v = hostSide c d w xs b := ⟨_, _, _, _, hbv⟩
  exact ⟨j, _, hj, hv, hab.phase, ⟨hdone, herr, hpos, hpix, hcount, hout⟩, hab.header,
    fun hi => (samePoint_idle hi).1 hab.point⟩

/-- Settles O11: the room check comes first, the end marker raises in D_CHUNK, and the 8 bytes fetched are an end marker
only if all of them are. -/
theorem chunkStepRejects : Obligations.ChunkStepRejects := by
  intro s hp
  rw [coreStep_dChunk hp]
  refine ⟨fun h => ?_, fun bs hl hf hbs => ?_⟩
  · have raised : stepChunk s = .next (raise .unexpectedEof s) := by
      rcases h with hl | ⟨hl, hf⟩
      · exact stepChunk_short hl
      · rw [stepChunk_decoded hl hf (decodeChunk_end rfl), exec_endMarker_dChunk hp]
    obtain ⟨hpos, hpix⟩ := raise_position .unexpectedEof (.inl hp)
    exact ⟨_, raised, rfl, hpos, hpix, ⟨rfl, rfl⟩, rfl, rfl, ⟨rfl, rfl, rfl⟩, fun i => pixAt_raise_of_ge _⟩
  · have hlen : bs.length = 7 := Nat.succ.inj (fetchIn_length hf)
    have notEnd : ((0 : Byte) :: bs).take 8 ≠ endMarkerBytes := by
      rw [List.take_of_length_le (by rw [List.length_cons, hlen])]
      exact fun e => hbs (List.cons.inj e).2
    exact stepChunk_decoded hl hf (decodeChunk_index notEnd rfl)

/-- Settles O12: D_TAIL tests the length, then the marker, and END tests what follows it; `cur = N` makes the recorded
entry `N`. -/
theorem tailChecks : Obligations.TailChecks := by
  intro s hp hcur
  rw [coreStep_dTail hp]
  have fails (e : ErrorCode) (hx : stepTail s = .next (raise e s)) :
      ∃ t, stepTail s = .next t ∧ t.errCode = e ∧ t.errPos = BitVec.ofNat 32 s.ipos ∧
        t.errPix = BitVec.ofNat 32 s.latN ∧ commandEnded t ∧ ∀ i, s.latN ≤ i → pixAt t i = pixAt s i := by
    obtain ⟨hpos, hpix⟩ := raise_position e (.inr hp)
    exact ⟨_, hx, rfl, hpos, hcur ▸ hpix, ⟨rfl, rfl⟩, fun i => pixAt_raise_of_ge e⟩
  refine ⟨fun hl => fails _ (stepTail_short hl), fun bs hl hf => ⟨fun hbs => fails _ ?_, fun hbs hmore => fails _ ?_,
    fun hbs hend => ?_⟩⟩
  · exact (stepTail_fetched hl hf).trans (if_neg hbs)
  · rw [(stepTail_fetched hl hf).trans (if_pos hbs), exec_endMarker_dTail hp, if_pos hmore]
  · exact ((stepTail_fetched hl hf).trans (if_pos hbs)).trans (exec_endMarker_finishes hp hend)

/-- Settles O19: both are chunks that make a pixel. -/
theorem literalResults : Obligations.LiteralResults := fun _ r g b a =>
  ⟨decodeChunk_rgb r g b, decodeChunk_rgba r g b a, fun hp hc =>
    ⟨exec_made (i := .rgb r g b) rfl hp hc, exec_made (i := .rgba r g b a) rfl hp hc⟩⟩

/-- Settles O20: the tag's low bits are the slot, and the cached pixel is put without a cache write. -/
theorem indexResult : Obligations.IndexResult := by
  refine ⟨fun t rest ht hm => ⟨_, rfl, decodeChunk_index hm ht⟩, fun s k hp hc => ?_⟩
  have put (a : Nat) := pixAt_write s s.cur a s.cache[k]
  exact ⟨_, (exec_chunk_eq_next rfl).2 ⟨hp, .indexed k rfl hc⟩, rfl, rfl, (put _).trans (if_pos rfl),
    fun a ha => (put a).trans (if_neg ha), rfl, rfl, endChunk_phase_of_dChunk _ hp, chunkFrame_endChunk ..⟩

/-- Settles O21: DIFF makes a pixel whose channels are each moved modulo 256. -/
theorem diffResult : Obligations.DiffResult := by
  refine ⟨fun t rest ht => decodeChunk_diff rest ht, fun s dr dg db hp hc => ?_⟩
  obtain ⟨t, hx, hpx, hrest⟩ := exec_made (i := .diff dr dg db) rfl hp hc
  obtain ⟨hr, hg, hb, ha⟩ := diffPixel_channels s.px dr dg db
  exact ⟨t, hx, hpx ▸ hr, hpx ▸ hg, hpx ▸ hb, hpx ▸ ha, hrest⟩

/-- Settles O22: LUMA makes the pixel of DIFF with the green delta added to the other two. -/
theorem lumaResult : Obligations.LumaResult := by
  refine ⟨fun t u rest ht => decodeChunk_luma u rest ht, fun s dg drDg dbDg hp hc => ?_⟩
  obtain ⟨t, hx, hpx, hrest⟩ := exec_made (i := .luma dg drDg dbDg) rfl hp hc
  obtain ⟨hr, hg, hb, ha⟩ := diffPixel_channels s.px (drDg + dg) dg (dbDg + dg)
  exact ⟨t, hx, hpx ▸ hr, hpx ▸ hg, hpx ▸ hb, hpx ▸ ha, hrest⟩

/-- Settles O23: a run that fits in `N` fits in `PIX`; one that does not raises in the state before it. -/
theorem runResult : Obligations.RunResult := by
  refine ⟨fun t rest ht h1 h2 => decodeChunk_run rest ht h1 h2, fun s n hp hcap => ⟨fun hn => ?_, fun hn => ?_⟩⟩
  · have put (i : Nat) := pixAt_run s s.px n (s.cur + n) i
    exact ⟨_, (exec_chunk_eq_next rfl).2 ⟨hp, .ran n rfl hn (Nat.le_trans hn hcap)⟩, rfl, rfl,
      fun i hlo hhi => (put i).trans (if_pos ⟨hlo, hhi⟩), fun i hi => (put i).trans (if_neg (by omega)), rfl, rfl,
      endChunk_phase_of_dChunk _ hp, chunkFrame_endChunk ..⟩
  · obtain ⟨hpos, hpix⟩ := raise_position .runOverflow (.inl hp)
    exact ⟨_, (exec_chunk_eq_next rfl).2 ⟨hp, .overflowed n rfl hn⟩, rfl, hpos, hpix, rfl, ⟨rfl, rfl⟩, rfl, rfl, rfl,
      rfl, fun i => pixAt_raise_of_ge _⟩

/-- Settles O24: each kind of chunk puts what it leaves in `px`, and a well-formed run puts at least one copy. -/
theorem currentPixelIsLastWritten : Obligations.CurrentPixelIsLastWritten := by
  intro i s t hi hwf hx hb
  obtain ⟨-, hm⟩ := (exec_chunk_eq_next hi).1 hx
  cases hm with
  | made hmk =>
    refine ⟨Nat.lt_succ_self _, (pixAt_write s s.cur s.cur _).trans (if_pos rfl),
      fun _ => ⟨rfl, (cachePut_get s.cache _ _).trans (if_pos rfl)⟩, ?_, ?_⟩
    · rintro k rfl; cases hmk
    · rintro n rfl; cases hmk
  | indexed k hk =>
    subst hk
    refine ⟨Nat.lt_succ_self _, (pixAt_write s s.cur s.cur _).trans (if_pos rfl), nofun, ?_, nofun⟩
    rintro _ ⟨rfl⟩; rfl
  | ran n hn =>
    subst hn
    have put (a : Nat) := pixAt_run s s.px n (s.cur + n) a
    have hpos : 1 ≤ n := by
      rw [Instr.wellFormed, Bool.and_eq_true, decide_eq_true_eq] at hwf
      exact hwf.1
    have hlt : s.cur < s.cur + n := Nat.lt_add_of_pos_right hpos
    refine ⟨hlt, (put (s.cur + n - 1)).trans (if_pos (by omega)), nofun, nofun, ?_⟩
    rintro _ ⟨rfl⟩
    exact ⟨rfl, fun j hlo hhi => (put j).trans (if_pos ⟨hlo, hhi⟩)⟩
  | overflowed => exact absurd rfl hb

/-- Settles O25: the one way such a chunk answers is to cache and put its pixel. -/
theorem pixelChunkFrame : Obligations.PixelChunkFrame := by
  intro i s t hmk hx
  obtain ⟨-, hm⟩ := (exec_chunk_eq_next (isChunk_of_makesPixel hmk)).1 hx
  cases hm with
  | made =>
    exact ⟨chunkFrame_endChunk .., fun k hk => (cachePut_get s.cache _ k).trans (if_neg hk.symm),
      fun a ha => (pixAt_write s s.cur a _).trans (if_neg ha)⟩
  | indexed k hi => subst hi; cases hmk
  | ran n hi => subst hi; cases hmk
  | overflowed n hi => subst hi; cases hmk

/-- Settles O26: of a chunk's moves these are the two that make no pixel and raise no error. -/
theorem indexAndRunFrame : Obligations.IndexAndRunFrame := by
  intro i s t hi hx
  have hc : i.isChunk = true := by rcases hi with ⟨k, rfl⟩ | ⟨n, rfl, -⟩ <;> rfl
  obtain ⟨-, hm⟩ := (exec_chunk_eq_next hc).1 hx
  cases hm with
  | made hmk => rcases hi with ⟨k, rfl⟩ | ⟨n, rfl, -⟩ <;> cases hmk
  | indexed k hk =>
    subst hk
    refine ⟨chunkFrame_endChunk .., rfl, nofun, fun a ha => (pixAt_write s s.cur a _).trans (if_neg ?_)⟩
    rintro rfl
    exact ha.elim (Nat.lt_irrefl _) (Nat.not_succ_le_self _)
  | ran n hn =>
    subst hn
    exact ⟨chunkFrame_endChunk .., rfl, fun _ _ => rfl,
      fun a (ha : a < s.cur ∨ s.cur + n ≤ a) => (pixAt_run s s.px n (s.cur + n) a).trans (if_neg (by omega))⟩
  | overflowed n hn hover =>
    obtain ⟨k, hk⟩ | ⟨m, hm, hfits⟩ := hi
    · exact nomatch hn.symm.trans hk
    · obtain rfl : n = m := Instr.run.inj (hn.symm.trans hm)
      exact absurd hover (Nat.not_lt.2 hfits)

/-- Settles O28: the successful end by the test of what follows the marker, the frame by the two ways END answers. -/
theorem endMarkerResultAndFrame : Obligations.EndMarkerResultAndFrame := by
  refine ⟨fun s hp hl => exec_endMarker_finishes hp hl, fun s t hx => ?_⟩
  obtain ⟨e, rfl⟩ | rfl := exec_endMarker_answer hx
  · exact ⟨rfl, ⟨rfl, rfl, rfl, rfl, rfl⟩, ⟨rfl, rfl, rfl⟩, ⟨rfl, rfl, rfl, rfl, rfl, rfl⟩, ⟨rfl, rfl⟩,
      ⟨rfl, rfl, rfl⟩, rfl, rfl, rfl, rfl, fun _ => rfl, fun _ => rfl, fun i => pixAt_raise_of_ge e⟩
  · exact ⟨rfl, ⟨rfl, rfl, rfl, rfl, rfl⟩, ⟨rfl, rfl, rfl⟩, ⟨rfl, rfl, rfl, rfl, rfl, rfl⟩, ⟨rfl, rfl⟩,
      ⟨rfl, rfl, rfl⟩, rfl, rfl, rfl, rfl, fun _ => rfl, fun _ => rfl, fun _ _ => rfl⟩

/-- Settles O32: the position and the entries of `PIX` go by the phase, the rest by `raise`'s own fields. -/
theorem raiseRecordsError : Obligations.RaiseRecordsError := by
  intro e s
  refine ⟨rfl, rfl, rfl, rfl, rfl, fun hp => ?_, fun hc ht => ?_, rfl, ⟨rfl, rfl, rfl, rfl, rfl⟩, ⟨rfl, rfl, rfl⟩,
    ⟨rfl, rfl, rfl, rfl, rfl, rfl⟩, ⟨rfl, rfl⟩, ⟨rfl, rfl, rfl⟩, rfl, fun _ => rfl, fun _ => rfl⟩
  · obtain ⟨hpos, hpix⟩ := raise_position e hp
    exact ⟨hpos, hpix, fun i => pixAt_raise_of_ge e⟩
  · obtain ⟨hpos, hpix⟩ := raise_noPosition e hc ht
    exact ⟨hpos, hpix, raise_samePix e hc ht⟩

end Sys2Proof.Machine
end

section
/-! PROOFS. The family 42_encoder.md: the steps of an ENCODE (R162 to R176) and the chunk it chooses (R168 to R173,
R180); that it ends after `N + 2` steps (R204), that its result is a function of its operands (R182), and that the
stream it writes decodes to the image (R181), by way of the pixels a list of chunks draws (`Draws`). -/

namespace Sys2Proof.Machine

/-! ### The chunk chosen for a differing pixel (R168 to R173, R180) -/

section

variable {cache : Vector Pixel 64} {px p : Pixel}

theorem chooseChunk_of_cached (h : cache[pixelHash p] = p) : chooseChunk cache px p = .index (pixelHash p) := if_pos h

theorem chooseChunk_of_alpha (h : cache[pixelHash p] ≠ p) (ha : p.a ≠ px.a) :
    chooseChunk cache px p = .rgba p.r p.g p.b p.a := by rw [chooseChunk, if_neg h, if_pos ha]

theorem chooseChunk_of_sameAlpha (h : cache[pixelHash p] ≠ p) (ha : p.a = px.a) :
    chooseChunk cache px p = deltaChunk px p := by rw [chooseChunk, if_neg h, if_neg (not_not.2 ha)]

theorem diffFits_iff {dr dg db : Int} :
    diffFits dr dg db = true ↔ -2 ≤ dr ∧ dr ≤ 1 ∧ -2 ≤ dg ∧ dg ≤ 1 ∧ -2 ≤ db ∧ db ≤ 1 := by
  simp only [diffFits, Bool.and_eq_true, inRange_iff, and_assoc]

theorem lumaFits_iff {dr dg db : Int} :
    lumaFits dr dg db = true ↔
      -32 ≤ dg ∧ dg ≤ 31 ∧ -8 ≤ dr - dg ∧ dr - dg ≤ 7 ∧ -8 ≤ db - dg ∧ db - dg ≤ 7 := by
  simp only [lumaFits, Bool.and_eq_true, inRange_iff, and_assoc]

/-- Adding the residuals back to `px` gives the pixel (R8, R169). -/
theorem diffPixel_channelDelta (ha : p.a = px.a) :
    diffPixel px (channelDelta p.r px.r) (channelDelta p.g px.g) (channelDelta p.b px.b) = p := by
  simp only [diffPixel, addDelta_channelDelta, ← ha]

/-- DIFF, LUMA and RGB are legal where they are chosen, and each makes the pixel again. -/
theorem deltaChunk_makes (ha : p.a = px.a) :
    (deltaChunk px p).wellFormed = true ∧ makesPixel (deltaChunk px p) = true ∧
      madePixel px (deltaChunk px p) = p := by
  simp only [deltaChunk]
  split
  · exact ⟨‹_›, rfl, diffPixel_channelDelta ha⟩
  split
  · refine ⟨‹_›, rfl, ?_⟩
    simp only [madePixel, lumaPixel, sub_add_cancel]
    exact diffPixel_channelDelta ha
  · refine ⟨rfl, rfl, ?_⟩
    simp only [madePixel, rgbPixel, ← ha]

/-- A pixel that its slot holds already is cached without effect. -/
theorem cachePut_of_cached (h : cache[pixelHash p] = p) : cachePut cache p = cache :=
  calc cache.set (pixelHash p).val p _
    _ = cache.set (pixelHash p).val cache[(pixelHash p).val] _ := by rw [show cache[(pixelHash p).val] = p from h]
    _ = cache := Vector.set_getElem_self _

/-- The chosen chunk takes the pixel from its slot or makes it. -/
theorem chooseChunk_reconstructs (cache : Vector Pixel 64) (px p : Pixel) :
    (∃ k, chooseChunk cache px p = .index k ∧ cache[k] = p ∧ cachePut cache p = cache) ∨
      (chooseChunk cache px p).wellFormed = true ∧ makesPixel (chooseChunk cache px p) = true ∧
        madePixel px (chooseChunk cache px p) = p := by
  by_cases hk : cache[pixelHash p] = p
  · exact .inl ⟨_, chooseChunk_of_cached hk, hk, cachePut_of_cached hk⟩
  by_cases ha : p.a = px.a
  · rw [chooseChunk_of_sameAlpha hk ha]
    exact .inr (deltaChunk_makes ha)
  · rw [chooseChunk_of_alpha hk ha]
    exact .inr ⟨rfl, rfl, rfl⟩

end

/-! ### The encoder's steps as equations -/

section

variable {s t : State}

theorem coreStep_ePix (hp : s.phase = .ePix) : coreStep s = stepEPix s := by simp only [coreStep, hp]

theorem coreStep_eEnd (hp : s.phase = .eEnd) : coreStep s = stepEEnd s := by simp only [coreStep, hp]

theorem imageError_of_badDimension (hd : badDimension s.cfg s.latW = true ∨ badDimension s.cfg s.latH = true) :
    imageError s = .invalidDimension := if_pos (Bool.or_eq_true_iff.2 hd)

theorem imageError_of_badColorspace (hd : ¬ (badDimension s.cfg s.latW = true ∨ badDimension s.cfg s.latH = true))
    (hc : badColorspace s.cs = true) : imageError s = .unsupportedColorspace := by
  rw [imageError, if_neg (by rwa [Bool.or_eq_true_iff]), if_pos hc]

theorem imageError_of_valid (hd : ¬ (badDimension s.cfg s.latW = true ∨ badDimension s.cfg s.latH = true))
    (hc : ¬ badColorspace s.cs = true) : imageError s = .none := by
  rw [imageError, if_neg (by rwa [Bool.or_eq_true_iff]), if_neg hc]

theorem imageTooBig_eq_true :
    imageTooBig s = true ↔
      s.cfg.pixCapacity.toNat < s.latN ∨ s.cfg.outCapacity.toNat < 14 + 5 * s.latN + 8 := by
  simp only [imageTooBig, Bool.or_eq_true, decide_eq_true_eq]

/-- E_HDR when a check of R162 fails: nothing but the latches is written before the error. -/
theorem stepEHdr_failed (he : imageError (latchImage s) ≠ .none) :
    stepEHdr s = .next (raise (imageError (latchImage s)) (latchImage s)) := by
  simp only [stepEHdr]

/-- E_HDR when the check of R163 fails. -/
theorem stepEHdr_tooBig (hv : imageError (latchImage s) = .none)
    (hb : imageTooBig (setPixelTotal (latchImage s)) = true) :
    stepEHdr s = .next (raise .outOfMemory (setPixelTotal (latchImage s))) := by
  simp only [stepEHdr, hv, startEncode]
  exact if_pos hb

theorem stepEEnd_of (ho : s.opos + 8 ≤ s.cfg.outCapacity.toNat) :
    stepEEnd s = .next (finish { s with
      byteOut := Memory.writeList s.byteOut s.opos endMarkerBytes, opos := s.opos + 8
      outLen := BitVec.ofNat 32 (s.opos + 8) }) := by
  rw [stepEEnd, emitInstr_of ho]; rfl

/-- Each way of E_PIX is taken where its conditions hold. -/
theorem stepEPix_of_move (hc : s.cur < s.cfg.pixCapacity.toNat) (hm : PixelMove s t) : stepEPix s = .next t := by
  rw [stepEPix, loadPixel_of hc]
  dsimp only
  cases hm with
  | counted hp hr hl =>
    rw [if_pos hp, extendRun, if_neg (by rw [decide_eq_true_eq]; exact not_or.2 ⟨hr, hl⟩)]
    rfl
  | runEmitted hp hr ho =>
    rw [if_pos hp, extendRun, if_pos (by rwa [decide_eq_true_eq]), emitInstr_of ho]
    rfl
  | emitted p hp hne ho =>
    subst hp
    have flush : s.opos + (if s.run = 0 then [] else streamBytes (.run s.run.toNat)).length ≤
        s.cfg.outCapacity.toNat := by
      rw [pixelBytes, List.length_append] at ho; omega
    rw [if_neg hne, encodePixel, flushRun_eq_next.2 (.inl ⟨flush, rfl⟩), andThen_next, emitInstr, emitBytes_of]
    · simp only [andThen_next, pixelBytes, Memory.writeList_append, List.length_append, Nat.add_assoc]
    · rwa [pixelBytes, List.length_append, ← Nat.add_assoc] at ho

end

/-! ### A run of the core alone, and the run the host sees (R190, R203, R205) -/

/-- With no turn listed the core ends the command in `t` after exactly `k` steps. -/
def EndsAfter (k : Nat) (s t : State) : Prop := runs k s = .next t ∧ BusyBefore k s ∧ t.phase = .idle

/-- The state in which an idle block accepts a command, with no turn listed. -/
def acceptedAlone (ph : Phase) (s : State) : State := accept ph { s with turns := [] }

section

variable {s t : State} {k : Nat}

theorem EndsAfter.step {s' : State} (ht : s.turns = []) (hb : s.phase ≠ .idle) (hx : coreStep s = .next s')
    (h : EndsAfter k s' t) : EndsAfter (k + 1) s t := by
  obtain ⟨hrun, hbusy, hend⟩ := h
  have hstep : Machine.step s = .next s' := (step_core_of_nil ht).trans hx
  exact ⟨by rw [runs_succ, hstep]; exact hrun, hbusy.succ hb hstep, hend⟩

theorem EndsAfter.last (ht : s.turns = []) (hb : s.phase ≠ .idle) (hx : coreStep s = .next t)
    (hend : t.phase = .idle) : EndsAfter 1 s t :=
  EndsAfter.step ht hb hx ⟨rfl, fun j _ hj => absurd hj (Nat.not_lt_zero j), hend⟩

/-- Whatever register accesses come between, the command ends after as many core steps, in the same state but for the
host's side. -/
theorem EndsAfter.interleaved {b a : State} {n : Nat} (h : EndsAfter (n + 1) b a) (hb : b.turns = [])
    (hs : SameRun b s) (rts : RegisterTurns s.turns) :
    ∃ k t, coreMoves k s.turns = n + 1 ∧ runs k s = .next t ∧ BusyBefore k s ∧ SameRun a t ∧ commandEnded t := by
  obtain ⟨hrun, hbusy, hend⟩ := h
  obtain ⟨k, t, hk, hx, hat, hbusy', ⟨hdone, -⟩, -⟩ := interleaved_of_alone (n + 1) hb hbusy hrun s.turns rfl hs rts
  have hidle : t.phase = .idle := hat.phase.trans hend
  exact ⟨k, t, hk, hx, hbusy', hat, hidle, hdone (Nat.succ_ne_zero n) hidle⟩

/-- The command as the host starts it, and sees it end. -/
theorem EndsAfter.accepted {v : Word} {ph : Phase} {ts : List Turn} {n : Nat} {a : State}
    (h : EndsAfter (n + 1) (acceptedAlone ph s) a) (hv : ∀ s, exec (decodeCommand v) s = whenIdle (accept ph) s)
    (hs : s.phase = .idle) (hts : s.turns = .host (.writeReg 0x08 v) :: ts) (rts : RegisterTurns ts) :
    ∃ k t, coreMoves k ts = n + 1 ∧ Reaches (k + 1) s t ∧ commandEnded t ∧ SameRun a t := by
  have starts : Machine.step s = .next (accept ph { s with turns := ts }) := by
    rw [step_writeCmd hts, hv]; exact whenIdle_of_idle hs
  obtain ⟨k, t, hk, hx, hbusy, hat, hended⟩ :=
    h.interleaved rfl (sameRun_hostSide _ _ _ ts (acceptedAlone ph s)) rts
  exact ⟨k, t, hk, (reaches_succ_iff starts).2 ⟨hx, hbusy⟩, hended, hat⟩

theorem coreMoves_le_succ (k : Nat) : ∀ ts, coreMoves k ts ≤ coreMoves (k + 1) ts := by
  induction k with
  | zero => exact fun ts => by rw [coreMoves]; exact Nat.zero_le _
  | succ k ih =>
    rintro (_ | ⟨_ | _ | _, ts⟩)
    · exact Nat.succ_le_succ (ih [])
    · exact ih ts
    · exact Nat.succ_le_succ (ih ts)
    · exact ih ts

theorem coreMoves_mono (ts : List Turn) : Monotone fun k => coreMoves k ts :=
  monotone_nat_of_le_succ fun k => coreMoves_le_succ k ts

/-- Nor does it end after fewer core steps. -/
theorem EndsAfter.interleaved_busy {b a : State} {n : Nat} (h : EndsAfter n b a) (hb : b.turns = [])
    (hs : SameRun b s) (rts : RegisterTurns s.turns) :
    ∀ t, coreMoves k s.turns < n → runs k s = .next t → t.phase ≠ .idle := by
  obtain ⟨-, hbusy, -⟩ := h
  induction k using Nat.strong_induction_on with
  | _ k ih =>
    intro t hk hx
    have before : BusyBefore k s := fun j u hj =>
      ih j hj u (Nat.lt_of_le_of_lt (coreMoves_mono s.turns hj.le) hk)
    obtain ⟨a', ha', hat, -⟩ := alone_of_interleaved k hb hs rts before hx
    rw [hat.phase]
    exact hbusy _ a' hk ha'

end

/-! ### What is written, and what is put, so far -/

/-- `BYTE_OUT[0..opos)`: the bytes of the encode so far. -/
def written (s : State) : List Byte := (List.range s.opos).map (byteOutAt s)

/-- `PIX[0..cur)`: the pixels of the decode so far. -/
def pixelsPut (s : State) : List Pixel := (List.range s.cur).map (pixAt s)

/-- `IN[ipos..len)`: the bytes of the stream not read yet. -/
def bytesLeft (s : State) : List Byte := (List.range' s.ipos (s.len.toNat - s.ipos)).map (byteInAt s)

section

variable (s : State)

theorem length_written : (written s).length = s.opos := by simp [written]

theorem length_bytesLeft : (bytesLeft s).length = s.len.toNat - s.ipos := by simp [bytesLeft]

theorem written_emit (bs : List Byte) :
    written { s with byteOut := Memory.writeList s.byteOut s.opos bs, opos := s.opos + bs.length } =
      written s ++ bs := by
  have before : ∀ a ∈ List.range s.opos,
      byteOutAt { s with byteOut := Memory.writeList s.byteOut s.opos bs, opos := s.opos + bs.length } a =
        byteOutAt s a := by
    intro a ha
    have ha := List.mem_range.1 ha
    rw [byteOutAt_emit, dif_neg (by omega)]
  simp only [written, List.range_add, List.map_append, List.map_map, List.map_congr_left before]
  exact congrArg _ (map_byteOutAt_emit s bs _)

theorem pixelsPut_put (ps : List Pixel) :
    pixelsPut { s with pix := Memory.writeList s.pix s.cur ps, cur := s.cur + ps.length } = pixelsPut s ++ ps := by
  refine List.ext_getElem (by simp [pixelsPut]) fun i hi hi' => ?_
  simp only [pixelsPut, List.getElem_map, List.getElem_range, pixAt_put, List.getElem_append, List.length_map,
    List.length_range]
  by_cases h : i < s.cur
  · rw [dif_pos h, dif_neg (by omega)]
  · rw [dif_neg h, dif_pos]
    simp only [pixelsPut, List.length_map, List.length_range] at hi
    omega

theorem fetchIn_bytesLeft {n : Nat} (hl : s.ipos + n ≤ s.len.toNat) (hin : s.len.toNat ≤ s.cfg.inCapacity.toNat) :
    fetchIn s.ipos n s = some ((bytesLeft s).take n) := by
  rw [fetchIn_of (Nat.le_trans hl hin), bytesLeft, ← List.map_take, List.take_range'_of_length_ge (by omega),
    List.range'_eq_map_range, List.map_map]
  rfl

end

/-! ### The pixels a list of chunks draws (R135 to R140) -/

/-- A chunk that a decoder holding `px` and `cache` turns into the pixels of the list, with the `px` and the cache it
has then. An INDEX must change `px`, as the encoder's does; two INDEX 0 in a row could start an end marker (R92). -/
inductive ChunkDraws (px : Pixel) (cache : Vector Pixel 64) :
    Instr → Pixel → Vector Pixel 64 → List Pixel → Prop
  | made (i : Instr) (hm : makesPixel i = true) (hwf : i.wellFormed = true) :
      ChunkDraws px cache i (madePixel px i) (cachePut cache (madePixel px i)) [madePixel px i]
  | indexed (k : Fin 64) (hne : cache[k] ≠ px) : ChunkDraws px cache (.index k) cache[k] cache [cache[k]]
  | ran (n : Nat) (hpos : 1 ≤ n) (hmax : n ≤ 62) : ChunkDraws px cache (.run n) px cache (List.replicate n px)

/-- The chunks of a stream, from `px` and `cache` on, and the pixels they draw. -/
inductive Draws : Pixel → Vector Pixel 64 → List Instr → List Pixel → Prop
  | nil (px : Pixel) (cache : Vector Pixel 64) : Draws px cache [] []
  | cons {px px' : Pixel} {cache cache' : Vector Pixel 64} {i : Instr} {is : List Instr} {ps qs : List Pixel}
      (hi : ChunkDraws px cache i px' cache' ps) (his : Draws px' cache' is qs) : Draws px cache (i :: is) (ps ++ qs)

section

variable {px px' p : Pixel} {cache cache' : Vector Pixel 64} {i : Instr} {is : List Instr} {ps qs : List Pixel}

theorem ChunkDraws.wellFormed (h : ChunkDraws px cache i px' cache' ps) :
    i.wellFormed = true ∧ i.isChunk = true := by
  cases h with
  | made _ hm hwf => exact ⟨hwf, isChunk_of_makesPixel hm⟩
  | indexed => exact ⟨rfl, rfl⟩
  | ran n hpos hmax => exact ⟨Bool.and_eq_true_iff.2 ⟨decide_eq_true hpos, decide_eq_true hmax⟩, rfl⟩

theorem ChunkDraws.length_pos (h : ChunkDraws px cache i px' cache' ps) : 0 < ps.length := by
  cases h with
  | made => exact Nat.one_pos
  | indexed => exact Nat.one_pos
  | ran n hpos => rwa [List.length_replicate]

/-- Of the chunks INDEX 0 alone starts with a byte 0. -/
theorem streamBytes_head (hwf : i.wellFormed = true) (hc : i.isChunk = true) (hi : i ≠ .index 0) :
    ∃ t more, streamBytes i = t :: more ∧ t ≠ 0 := by
  have code := chunkCode_streamBytes hwf hc
  generalize streamBytes i = bs at code
  cases code with
  | rgb => exact ⟨_, _, rfl, by decide⟩
  | rgba => exact ⟨_, _, rfl, by decide⟩
  | index x =>
    refine ⟨_, _, rfl, fun h0 => ?_⟩
    obtain rfl : x = 0 := (BitVec.append_right_inj 0b00#2).1 h0
    exact hi rfl
  | diff => exact ⟨_, _, rfl, ne_zero_of_high BitVec.extractLsb'_append_eq_left (by decide)⟩
  | luma => exact ⟨_, _, rfl, ne_zero_of_high BitVec.extractLsb'_append_eq_left (by decide)⟩
  | run => exact ⟨_, _, rfl, ne_zero_of_high BitVec.extractLsb'_append_eq_left (by decide)⟩

/-- What follows an INDEX 0 does not make an end marker of it: another INDEX 0 would not change `px`, and the end
marker itself starts with one 0 too many (R92, R94). -/
theorem ChunkDraws.notMarker (hi : ChunkDraws px cache i px' cache' ps) (his : Draws px' cache' is qs) :
    ¬ (i = .index 0 ∧ (assemble is ++ endMarkerBytes).take 7 = [0, 0, 0, 0, 0, 0, 1]) := by
  rintro ⟨rfl, hrest⟩
  cases hi with
  | made _ hm => cases hm
  | indexed =>
    cases his with
    | nil => exact absurd hrest (by decide)
    | @cons _ _ _ _ j _ _ _ hj _ =>
      have other : j ≠ .index 0 := by
        rintro rfl
        cases hj with
        | made _ hm => cases hm
        | indexed _ hne => exact hne rfl
      obtain ⟨hwf, hc⟩ := hj.wellFormed
      obtain ⟨t, more, ht, h0⟩ := streamBytes_head hwf hc other
      rw [assemble, ht] at hrest
      exact h0 (List.cons.inj hrest).1

/-- The chunk at the front of the bytes left is the one the decoder reads in its window of 8. -/
theorem ChunkDraws.decoded (hi : ChunkDraws px cache i px' cache' ps) (his : Draws px' cache' is qs) :
    ∃ rest, decodeChunk ((assemble (i :: is) ++ endMarkerBytes).take 8) = .ok (i, rest) := by
  obtain ⟨hwf, hc⟩ := hi.wellFormed
  have hsize : (streamBytes i).length ≤ 8 :=
    (streamBytes_length i).trans_le (Nat.le_trans (size_le_of_isChunk hc) (by decide))
  rw [assemble, List.append_assoc, List.take_append, List.take_of_length_le hsize]
  refine ⟨_, decodeChunk_streamBytes hwf hc ?_⟩
  rintro ⟨rfl, hrest⟩
  refine hi.notMarker his ⟨rfl, ?_⟩
  rwa [List.take_take] at hrest

/-! #### The chunks the encoder chooses -/

/-- The chosen chunk draws its pixel and leaves the decoder with the encoder's `px` and cache (R180). -/
theorem Draws.chosen (hne : p ≠ px) (his : Draws p (cachePut cache p) is ps) :
    Draws px cache (chooseChunk cache px p :: is) (p :: ps) := by
  rcases chooseChunk_reconstructs cache px p with ⟨k, hk, hslot, hput⟩ | ⟨hwf, hmakes, hmade⟩
  · rw [hk]
    rw [hput] at his
    subst hslot
    exact .cons (.indexed k hne) his
  · have hi := ChunkDraws.made (px := px) (cache := cache) _ hmakes hwf
    rw [hmade] at hi
    exact .cons hi his

theorem assemble_append (is js : List Instr) : assemble (is ++ js) = assemble is ++ assemble js := by
  induction is with
  | nil => rfl
  | cons i is ih => rw [List.cons_append, assemble, assemble, ih, List.append_assoc]

theorem size_pos_of_isChunk (hi : i.isChunk = true) : 0 < i.size := by
  cases i <;> simp_all [Instr.isChunk, Instr.size]

/-- Chunks that draw a pixel take a byte at least. -/
theorem Draws.assemble_pos (h : Draws px cache is ps) (hps : ps ≠ []) : 0 < (assemble is).length := by
  cases h with
  | nil => exact absurd rfl hps
  | cons hi =>
    rw [assemble, List.length_append, streamBytes_length]
    exact Nat.add_pos_left (size_pos_of_isChunk hi.wellFormed.2) _

end

/-! ### The encoder's pass (R165 to R176) -/

/-- Pixel `i` as the encoder reads it (R165). -/
def imagePixel (s : State) (i : Nat) : Pixel := encoderPixel s.alpha (pixAt s i)

/-- The pixels the encoder has not read yet. -/
def pixelsLeft (s : State) : List Pixel := (List.range' s.cur (s.latN - s.cur)).map (imagePixel s)

/-- The bytes a pending run will take. -/
def pendingBytes (s : State) : Nat := if s.run = 0 then 0 else 1

/-- One pixel encoded: what stays, how far it comes (R178), and the chunks emitted; whatever chunks follow, these draw
the pixel in their place. -/
structure PixelEncoded (s t : State) : Prop where
  params : SameParams s t
  latches : SameLatches s t
  errCode : t.errCode = s.errCode
  pix : SamePix s t
  cur : t.cur = s.cur + 1
  phase : t.phase = if t.cur = t.latN then .eEnd else .ePix
  run : t.run.toNat ≤ 61
  flushed : t.cur = t.latN → t.run = 0
  room : t.opos + pendingBytes t ≤ s.opos + pendingBytes s + 5
  chunks : ∃ is, written t = written s ++ assemble is ∧ ∀ js ps,
    Draws t.px t.cache js (List.replicate t.run.toNat t.px ++ ps) →
      Draws s.px s.cache (is ++ js) (List.replicate s.run.toNat s.px ++ imagePixel s s.cur :: ps)

section

variable {s t : State}

/-- A run one longer ends with one more copy of its pixel. -/
theorem replicate_run_succ {p : Pixel} (ps : List Pixel) (hrun : s.run.toNat ≤ 61) :
    List.replicate (s.run + 1).toNat p ++ ps = List.replicate s.run.toNat p ++ p :: ps := by
  have hsucc : (s.run + 1).toNat = s.run.toNat + 1 := by bv_omega
  rw [hsucc, List.replicate_succ', List.append_assoc, List.singleton_append]

/-- The chunks of the bytes a differing pixel makes the encoder emit. -/
def pixelChunks (s : State) (p : Pixel) : List Instr :=
  (if s.run = 0 then [] else [.run s.run.toNat]) ++ [chooseChunk s.cache s.px p]

theorem assemble_pixelChunks (s : State) (p : Pixel) : assemble (pixelChunks s p) = pixelBytes s p := by
  rw [pixelChunks, pixelBytes, assemble_append]
  split <;> simp only [assemble, List.append_nil]

theorem draws_pixelChunks {p : Pixel} {js : List Instr} {ps : List Pixel} (hrun : s.run.toNat ≤ 61) (hne : p ≠ s.px)
    (h : Draws p (cachePut s.cache p) js ps) :
    Draws s.px s.cache (pixelChunks s p ++ js) (List.replicate s.run.toNat s.px ++ p :: ps) := by
  rw [pixelChunks]
  split <;> rename_i hr
  · rw [hr]; exact .chosen hne h
  · exact .cons (.ran _ (by bv_omega) (by omega)) (.chosen hne h)

theorem PixelMove.encoded (hm : PixelMove s t) (hp : s.phase = .ePix) (hrun : s.run.toNat ≤ 61) :
    PixelEncoded s t := by
  have same (u : State) : SameLatches u u := ⟨rfl, rfl, rfl, rfl, rfl, rfl⟩
  have phase (u : State) (hu : u.phase = .ePix) :
      (advancePixel u).phase = if u.cur + 1 = u.latN then .eEnd else .ePix := by rw [advancePixel_phase, hu]
  cases hm with
  | counted hpx hr hl =>
    refine ⟨rfl, same s, rfl, fun _ => rfl, rfl, phase _ hp, ?_, fun h => absurd h hl, ?_, [],
      (List.append_nil _).symm, fun js ps h => ?_⟩
    · show (s.run + 1).toNat ≤ 61
      bv_omega
    · show s.opos + (if s.run + 1 = 0 then 0 else 1) ≤ _
      split <;> omega
    · rw [imagePixel, hpx, ← replicate_run_succ ps hrun]; exact h
  | runEmitted hpx hr ho =>
    refine ⟨rfl, same s, rfl, fun _ => rfl, rfl, phase _ hp, Nat.zero_le 61, fun _ => rfl, ?_, [.run (s.run + 1).toNat],
      written_emit s [_], fun js ps h => ?_⟩
    · show s.opos + 1 + 0 ≤ _
      omega
    · rw [imagePixel, hpx, ← replicate_run_succ ps hrun]
      exact .cons (.ran _ (by bv_omega) (by bv_omega)) h
  | emitted p hpx hne ho =>
    have hlen := pixelBytes_length_le s p
    refine ⟨rfl, same s, rfl, fun _ => rfl, rfl, phase _ hp, Nat.zero_le 61, fun _ => rfl, ?_, pixelChunks s p, ?_,
      fun js ps h => ?_⟩
    · show s.opos + (pixelBytes s p).length + 0 ≤ _
      rw [pendingBytes]; omega
    · rw [assemble_pixelChunks]; exact written_emit s _
    · rw [imagePixel, ← hpx]; exact draws_pixelChunks hrun hne h

theorem PixelEncoded.latN (h : PixelEncoded s t) : t.latN = s.latN := by
  obtain ⟨-, -, hN, -⟩ := h.latches
  exact hN

/-- An ENCODE between its header and its end. -/
structure Encoding (s : State) : Prop where
  ok : EncodeOk s
  phase : s.phase = if s.cur = s.latN then .eEnd else .ePix
  cur : s.cur ≤ s.latN
  flushed : s.cur = s.latN → s.run = 0

theorem Encoding.pixel (h : Encoding s) (hcur : s.cur < s.latN) (he : PixelEncoded s t) : Encoding t := by
  refine ⟨h.ok.advance he.params he.latches he.run he.cur he.room, he.phase, ?_, he.flushed⟩
  rw [he.cur, he.latN]; exact hcur

theorem PixelEncoded.pixelsLeft (h : PixelEncoded s t) (hcur : s.cur < s.latN) :
    pixelsLeft s = imagePixel s s.cur :: pixelsLeft t := by
  obtain ⟨-, -, -, halpha, -, -⟩ := h.latches
  have image : imagePixel t = imagePixel s := by
    funext i; rw [imagePixel, imagePixel, halpha, h.pix]
  obtain ⟨m, hm⟩ : ∃ m, s.latN - s.cur = m + 1 := ⟨s.latN - s.cur - 1, by omega⟩
  have hm' : s.latN - (s.cur + 1) = m := by omega
  rw [Machine.pixelsLeft, Machine.pixelsLeft, image, h.cur, h.latN, hm, hm', List.range'_succ, List.map_cons]

/-- What an ENCODE leaves: chunks that draw the pending run and the pixels left, then the end marker. -/
structure Encoded (s t : State) : Prop where
  errCode : t.errCode = s.errCode
  outLen : t.outLen = BitVec.ofNat 32 t.opos
  bound : t.opos ≤ 22 + 5 * s.latN
  chunks : ∃ is, written t = written s ++ assemble is ++ endMarkerBytes ∧
    Draws s.px s.cache is (List.replicate s.run.toNat s.px ++ pixelsLeft s)

/-- E_END after the last pixel, at which no run is pending. -/
theorem Encoding.ends (h : Encoding s) (hcur : s.cur = s.latN) :
    ∃ t, coreStep s = .next t ∧ t.phase = .idle ∧ Encoded s t := by
  obtain ⟨-, -, hcap, -, hle⟩ := h.ok
  have hp : s.phase = .eEnd := h.phase.trans (if_pos hcur)
  refine ⟨_, (coreStep_eEnd hp).trans (stepEEnd_of (by omega)), rfl, rfl, rfl, ?_, [], ?_, ?_⟩
  · show s.opos + 8 ≤ _
    omega
  · rw [assemble, List.append_nil]; exact written_emit s endMarkerBytes
  · rw [h.flushed hcur, pixelsLeft, hcur, Nat.sub_self]
    exact .nil _ _

theorem PixelEncoded.trans {u : State} (h : PixelEncoded s t) (hcur : s.cur < s.latN) (he : Encoded t u) :
    Encoded s u := by
  obtain ⟨is, hwritten, hdraws⟩ := h.chunks
  obtain ⟨js, hwritten', hdraws'⟩ := he.chunks
  refine ⟨he.errCode.trans h.errCode, he.outLen, h.latN ▸ he.bound, is ++ js, ?_, ?_⟩
  · rw [hwritten', hwritten, assemble_append, List.append_assoc (written s)]
  · rw [h.pixelsLeft hcur]; exact hdraws js _ hdraws'

/-- A step for each pixel left and one for the end marker (R204). -/
theorem Encoding.endsAfter (m : Nat) : ∀ {s : State}, s.turns = [] → Encoding s → s.latN = s.cur + m →
    ∃ t, EndsAfter (m + 1) s t ∧ Encoded s t := by
  induction m with
  | zero =>
    intro s ht h hm
    obtain ⟨t, hx, hidle, he⟩ := h.ends hm.symm
    have hp : s.phase = .eEnd := h.phase.trans (if_pos hm.symm)
    exact ⟨t, .last ht (hp.trans_ne nofun) hx hidle, he⟩
  | succ m ih =>
    intro s ht h hm
    have hcur : s.cur < s.latN := by omega
    have hp : s.phase = .ePix := h.phase.trans (if_neg hcur.ne)
    obtain ⟨t, hx⟩ := stepEPix_answers h.ok hcur
    obtain ⟨-, -, -, hrun, -⟩ := h.ok
    have he := (stepEPix_move hx).2.encoded hp hrun
    have hx' : coreStep s = .next t := (coreStep_ePix hp).trans hx
    obtain ⟨u, hu, hdone⟩ := ih ((coreStep_turns hx').trans ht) (h.pixel hcur he) (by rw [he.latN, he.cur]; omega)
    exact ⟨u, hu.step ht (hp.trans_ne nofun) hx', he.trans hcur hdone⟩

end

/-! ### A whole ENCODE -/

/-- The checks of R162 and R163 pass. -/
structure ValidImage (s : State) : Prop where
  checked : imageError (latchImage s) = .none
  fits : imageTooBig (setPixelTotal (latchImage s)) = false

/-- The image of the `IMG_*` registers, alpha forced to 255 when it has none (R165). -/
def imagePixels (s : State) : List Pixel :=
  (List.range (s.imgWidth.toNat * s.imgHeight.toNat)).map fun i => encoderPixel (imgHasAlpha s) (pixAt s i)

/-- The stream of the image, its chunks given. -/
def imageStream (s : State) (is : List Instr) : List Byte :=
  asmStream s.imgWidth s.imgHeight (channelByte (imgHasAlpha s)) (imgColorspace s) is

section

variable {s t : State}

theorem validImage_of (hw : 1 ≤ s.imgWidth.toNat) (hw' : s.imgWidth.toNat ≤ s.cfg.maxDimension.toNat)
    (hh : 1 ≤ s.imgHeight.toNat) (hh' : s.imgHeight.toNat ≤ s.cfg.maxDimension.toNat)
    (hc : s.imgFmt.extractLsb' 8 8 = 0 ∨ s.imgFmt.extractLsb' 8 8 = 1)
    (hN : s.imgWidth.toNat * s.imgHeight.toNat ≤ s.cfg.pixCapacity.toNat)
    (hcap : 22 + 5 * (s.imgWidth.toNat * s.imgHeight.toNat) ≤ s.cfg.outCapacity.toNat) : ValidImage s :=
  ⟨imageError_eq_none.2
    ⟨badDimension_eq_false.2 ⟨hw, hw'⟩, badDimension_eq_false.2 ⟨hh, hh'⟩, badColorspace_eq_false.2 hc⟩,
    imageTooBig_eq_false.2 ⟨hN, hcap⟩⟩

theorem ValidImage.room (h : ValidImage s) :
    s.imgWidth.toNat * s.imgHeight.toNat ≤ s.cfg.pixCapacity.toNat ∧
      22 + 5 * (s.imgWidth.toNat * s.imgHeight.toNat) ≤ s.cfg.outCapacity.toNat :=
  imageTooBig_eq_false.1 h.fits

theorem ValidImage.pixels_pos (h : ValidImage s) : 0 < s.imgWidth.toNat * s.imgHeight.toNat := by
  obtain ⟨hw, hh, -⟩ := imageError_eq_none.1 h.checked
  exact pixelTotal_pos hw hh

/-- What E_HDR leaves of a valid image (R164). -/
def passStarted (s : State) : State := { s with
  latW := s.imgWidth, latH := s.imgHeight, alpha := imgHasAlpha s, cs := imgColorspace s
  latN := s.imgWidth.toNat * s.imgHeight.toNat
  byteOut := Memory.writeList s.byteOut s.opos
    (streamBytes (.header s.imgWidth s.imgHeight (channelByte (imgHasAlpha s)) (imgColorspace s)))
  opos := s.opos + 14, px := opaqueBlack, cache := Vector.replicate 64 zeroPixel
  run := 0, cur := 0, phase := .ePix }

theorem ValidImage.starts (h : ValidImage s) (hp : s.phase = .eHdr) (hopos : s.opos = 0) :
    coreStep s = .next (passStarted s) := by
  obtain ⟨-, hcap⟩ := h.room
  exact (coreStep_eHdr hp).trans (stepEHdr_started h.checked h.fits (by omega))

theorem ValidImage.encoding (h : ValidImage s) (hopos : s.opos = 0) : Encoding (passStarted s) := by
  obtain ⟨hN, hcap⟩ := h.room
  have hpos := h.pixels_pos
  refine ⟨⟨rfl, hN, hcap, Nat.zero_le 61, ?_⟩, (if_neg hpos.ne).symm, Nat.zero_le _, fun _ => rfl⟩
  show s.opos + 14 + 0 ≤ 14 + 5 * 0
  rw [hopos]

theorem written_passStarted (hopos : s.opos = 0) :
    written (passStarted s) =
      streamBytes (.header s.imgWidth s.imgHeight (channelByte (imgHasAlpha s)) (imgColorspace s)) := by
  have nothing : written s = [] := by rw [written, hopos]; rfl
  exact (written_emit s _).trans (by rw [nothing, List.nil_append])

theorem pixelsLeft_passStarted (s : State) : pixelsLeft (passStarted s) = imagePixels s := by
  rw [pixelsLeft, imagePixels, List.range_eq_range']; rfl

/-- A valid image is encoded in `N + 2` steps, into a stream whose chunks draw its pixels (R160, R178). -/
theorem ValidImage.endsAfter (h : ValidImage s) (hp : s.phase = .eHdr) (ht : s.turns = []) (hopos : s.opos = 0) :
    ∃ t, EndsAfter (s.imgWidth.toNat * s.imgHeight.toNat + 2) s t ∧ t.errCode = s.errCode ∧
      t.outLen.toNat = t.opos ∧ t.opos ≤ 22 + 5 * (s.imgWidth.toNat * s.imgHeight.toNat) ∧
      ∃ is, written t = imageStream s is ∧
        Draws opaqueBlack (Vector.replicate 64 zeroPixel) is (imagePixels s) := by
  obtain ⟨t, hends, herr, hlen, hbound, is, hwritten, hdraws⟩ :=
    Encoding.endsAfter (s := passStarted s) _ ht (h.encoding hopos) (Nat.zero_add _).symm
  obtain ⟨-, hcap⟩ := h.room
  have hfits : t.opos < 2 ^ 32 :=
    Nat.lt_of_le_of_lt (Nat.le_trans hbound hcap) s.cfg.outCapacity.isLt
  refine ⟨t, hends.step ht (hp.trans_ne nofun) (h.starts hp hopos), herr, ?_, hbound, is, ?_, ?_⟩
  · rw [hlen, BitVec.toNat_ofNat, Nat.mod_eq_of_lt hfits]
  · rw [hwritten, written_passStarted hopos]; rfl
  · rw [pixelsLeft_passStarted] at hdraws; exact hdraws

/-- The header, a chunk and the end marker are 23 bytes at least (R178). -/
theorem imageStream_length {px : Pixel} {cache : Vector Pixel 64} {is : List Instr} (h : ValidImage s)
    (his : Draws px cache is (imagePixels s)) : 23 ≤ (imageStream s is).length := by
  have hchunk : 0 < (assemble is).length := his.assemble_pos fun hnil => by
    have hlen := congrArg List.length hnil
    rw [imagePixels, List.length_map, List.length_range] at hlen
    exact h.pixels_pos.ne' hlen
  simp only [imageStream, asmStream, List.length_append, streamBytes_length, Instr.size]
  omega

end

/-! ### A DECODE of such a stream (R131 to R144) -/

/-- A DECODE between its header and its end, with chunks left that draw the pixels left, then the end marker. -/
structure Decoding (s : State) (is : List Instr) (ps : List Pixel) : Prop where
  draws : Draws s.px s.cache is ps
  bytes : bytesLeft s = assemble is ++ endMarkerBytes
  len : s.len.toNat ≤ s.cfg.inCapacity.toNat
  room : s.latN ≤ s.cfg.pixCapacity.toNat
  cur : s.cur + ps.length = s.latN
  phase : s.phase = if s.cur = s.latN then .dTail else .dChunk

/-- What a DECODE leaves: the pixels drawn put after the ones before them (R144). -/
structure Decoded (s : State) (ps : List Pixel) (t : State) : Prop where
  errCode : t.errCode = s.errCode
  pixCount : t.pixCount = BitVec.ofNat 32 s.latN
  header : SameHeaderRegs s t
  pixels : pixelsPut t = pixelsPut s ++ ps

section

variable {s t : State} {i : Instr} {is : List Instr} {ps qs : List Pixel}

/-- The state after a chunk of `k` bytes has put its pixels. -/
def chunkDone (k : Nat) (px : Pixel) (cache : Vector Pixel 64) (ps : List Pixel) (s : State) : State :=
  endChunk k { s with
    px := px, cache := cache, pix := Memory.writeList s.pix s.cur ps, cur := s.cur + ps.length }

theorem ChunkDraws.exec {px : Pixel} {cache : Vector Pixel 64} (hi : ChunkDraws s.px s.cache i px cache ps)
    (hp : s.phase = .dChunk) (hN : s.cur + ps.length ≤ s.latN) (hcap : s.latN ≤ s.cfg.pixCapacity.toNat) :
    exec i s = .next (chunkDone i.size px cache ps s) := by
  refine (exec_chunk_eq_next hi.wellFormed.2).2 ⟨hp, ?_⟩
  cases hi with
  | made i hm => exact .made hm (Nat.le_trans hN hcap)
  | indexed k => exact .indexed k rfl (Nat.le_trans hN hcap)
  | ran n =>
    have hput := ChunkMove.ran (i := .run n) (s := s) n rfl
    rw [chunkDone, List.length_replicate] at *
    exact hput hN (Nat.le_trans hN hcap)

/-- The bytes left once `k` of them are read. -/
theorem bytesLeft_drop (hin : SameByteIn s t) (hlen : t.len = s.len) {k : Nat} (hi : t.ipos = s.ipos + k) :
    bytesLeft t = (bytesLeft s).drop k := by
  rw [bytesLeft, bytesLeft, ← List.map_drop, List.drop_range', Nat.mul_one, Nat.sub_sub, hlen, hi, funext hin]

theorem pixelsPut_chunkDone (k : Nat) (px : Pixel) (cache : Vector Pixel 64) (ps : List Pixel) (s : State) :
    pixelsPut (chunkDone k px cache ps s) = pixelsPut s ++ ps := pixelsPut_put s ps

theorem Decoding.bytes_length (h : Decoding s is ps) : s.len.toNat - s.ipos = (assemble is).length + 8 := by
  rw [← length_bytesLeft, h.bytes, List.length_append]; rfl

/-- D_TAIL finds the end marker, and nothing after it. -/
theorem Decoding.ends (h : Decoding s [] []) :
    ∃ t, coreStep s = .next t ∧ t.phase = .idle ∧ Decoded s [] t := by
  have hp : s.phase = .dTail := h.phase.trans (if_pos h.cur)
  have hl : s.len.toNat - s.ipos = 8 := h.bytes_length
  have hf := fetchIn_bytesLeft s (n := 8) (by omega) h.len
  rw [h.bytes] at hf
  refine ⟨_, (coreStep_dTail hp).trans ((stepTail_fetched hl.ge hf).trans ((if_pos rfl).trans
    (exec_endMarker_finishes hp hl))), rfl, rfl, rfl, ⟨rfl, rfl, rfl⟩, (List.append_nil _).symm⟩

/-- D_CHUNK reads the first of the chunks left. -/
theorem Decoding.chunk {px : Pixel} {cache : Vector Pixel 64} (h : Decoding s (i :: is) (ps ++ qs))
    (hi : ChunkDraws s.px s.cache i px cache ps) (his : Draws px cache is qs) :
    s.phase = .dChunk ∧ coreStep s = .next (chunkDone i.size px cache ps s) ∧
      Decoding (chunkDone i.size px cache ps s) is qs := by
  have hcur := h.cur
  have hpos := hi.length_pos
  rw [List.length_append] at hcur
  have hp : s.phase = .dChunk := h.phase.trans (if_neg (by omega))
  have hl := h.bytes_length
  have hf := fetchIn_bytesLeft s (n := 8) (by omega) h.len
  obtain ⟨rest, hd⟩ := hi.decoded his
  rw [h.bytes] at hf
  refine ⟨hp, ?_, his, ?_, h.len, h.room, ?_, endChunk_phase_of_dChunk _ hp⟩
  · rw [coreStep_dChunk hp, stepChunk_decoded (by omega) hf hd]
    exact hi.exec hp (by omega) h.room
  · have hdrop : bytesLeft (chunkDone i.size px cache ps s) = (bytesLeft s).drop i.size :=
      bytesLeft_drop (s := s) (t := chunkDone i.size px cache ps s) (fun _ => rfl) rfl rfl
    rw [hdrop, h.bytes, assemble, List.append_assoc, ← streamBytes_length, List.drop_left]
  · exact (Nat.add_assoc _ _ _).trans hcur

/-- A step for each chunk and one for the end marker. -/
theorem Decoding.endsAfter (is : List Instr) : ∀ {s : State} {ps : List Pixel}, s.turns = [] → Decoding s is ps →
    ∃ t, EndsAfter (is.length + 1) s t ∧ Decoded s ps t := by
  induction is with
  | nil =>
    intro s ps ht h
    obtain rfl : ps = [] := by cases h.draws; rfl
    have hp : s.phase = .dTail := h.phase.trans (if_pos h.cur)
    obtain ⟨t, hx, hidle, hdone⟩ := h.ends
    exact ⟨t, .last ht (hp.trans_ne nofun) hx hidle, hdone⟩
  | cons i is ih =>
    intro s ps ht h
    cases h.draws with
    | cons hi his =>
      obtain ⟨hp, hx, hnext⟩ := h.chunk hi his
      obtain ⟨t, hends, herr, hcount, hheader, hpixels⟩ := ih ((coreStep_turns hx).trans ht) hnext
      refine ⟨t, hends.step ht (hp.trans_ne nofun) hx, herr, hcount, hheader, ?_⟩
      rw [hpixels, pixelsPut_chunkDone, List.append_assoc]

/-! ### A whole DECODE -/

theorem stepHeader_fetched {bs rest : List Byte} (hl : 14 ≤ s.len.toNat) (hf : fetchIn 0 14 s = some bs)
    (hd : decodeHeader bs = .ok (i, rest)) : stepHeader s = exec i s := by
  rw [stepHeader, if_neg (Nat.not_lt.2 hl), hf]
  simp only [decode, hd]

/-- What D_HDR leaves of a valid header whose image fits (R131). -/
def decodeStarted (w h : Word) (ch c : Byte) (s : State) : State := { s with
  hdrWidth := w, hdrHeight := h, hdrFmt := hdrFmtOf ch c, latW := w, latH := h, alpha := decide (ch = 4)
  cs := c, latN := w.toNat * h.toNat, px := opaqueBlack, cache := Vector.replicate 64 zeroPixel
  ipos := 14, cur := 0, phase := .dChunk }

section

variable {w h : Word} {ch c : Byte}

theorem asmStream_eq_header_append :
    asmStream w h ch c is = streamBytes (.header w h ch c) ++ (assemble is ++ endMarkerBytes) := List.append_assoc ..

/-- D_HDR at the start of a stream with a valid header. -/
theorem coreStep_of_stream (hp : s.phase = .dHdr) (hipos : s.ipos = 0) (hlen : s.len.toNat ≤ s.cfg.inCapacity.toNat)
    (hbytes : bytesLeft s = asmStream w h ch c is) (hv : headerError s.cfg w h ch c = .none)
    (hN : w.toNat * h.toNat ≤ s.cfg.pixCapacity.toNat) : coreStep s = .next (decodeStarted w h ch c s) := by
  obtain ⟨hch, hc, hw, hh⟩ := headerError_eq_none.1 hv
  obtain ⟨hw, hw'⟩ := badDimension_eq_false.1 hw
  obtain ⟨hh, hh'⟩ := badDimension_eq_false.1 hh
  have executed := decodeHeaderCompletes s w h ch c hp (badChannels_eq_false.1 hch) (badColorspace_eq_false.1 hc)
    hw hw' hh hh' hN
  have hheader : (streamBytes (.header w h ch c)).length = 14 := rfl
  rw [asmStream_eq_header_append] at hbytes
  have hl : 14 ≤ s.len.toNat := by
    have total := length_bytesLeft s
    rw [hbytes, List.length_append, hheader] at total
    omega
  have hf := fetchIn_bytesLeft s (n := 14) (by omega) hlen
  rw [hbytes, hipos, List.take_left' hheader] at hf
  exact (coreStep_header (.inr hp)).trans
    ((stepHeader_fetched hl hf (decodeHeader_streamBytes w h ch c)).trans executed)

theorem decoding_of_stream (hipos : s.ipos = 0) (hlen : s.len.toNat ≤ s.cfg.inCapacity.toNat)
    (hbytes : bytesLeft s = asmStream w h ch c is) (hv : headerError s.cfg w h ch c = .none)
    (hN : w.toNat * h.toNat ≤ s.cfg.pixCapacity.toNat)
    (hdraws : Draws opaqueBlack (Vector.replicate 64 zeroPixel) is ps) (hps : ps.length = w.toNat * h.toNat) :
    Decoding (decodeStarted w h ch c s) is ps := by
  obtain ⟨-, -, hw, hh⟩ := headerError_eq_none.1 hv
  have hpos := pixelTotal_pos hw hh
  have hheader : (streamBytes (.header w h ch c)).length = 14 := rfl
  have hdrop : bytesLeft (decodeStarted w h ch c s) = (bytesLeft s).drop 14 :=
    bytesLeft_drop (s := s) (t := decodeStarted w h ch c s) (fun _ => rfl) rfl (by rw [hipos]; rfl)
  refine ⟨hdraws, ?_, hlen, hN, (Nat.zero_add _).trans hps, (if_neg hpos.ne).symm⟩
  rw [hdrop, hbytes, asmStream_eq_header_append, List.drop_left' hheader]

/-- A stream whose chunks draw the pixels of its header's image decodes to these pixels. -/
theorem endsAfter_of_stream (hp : s.phase = .dHdr) (ht : s.turns = []) (hipos : s.ipos = 0)
    (hlen : s.len.toNat ≤ s.cfg.inCapacity.toNat) (hbytes : bytesLeft s = asmStream w h ch c is)
    (hv : headerError s.cfg w h ch c = .none) (hN : w.toNat * h.toNat ≤ s.cfg.pixCapacity.toNat)
    (hdraws : Draws opaqueBlack (Vector.replicate 64 zeroPixel) is ps) (hps : ps.length = w.toNat * h.toNat) :
    ∃ t, EndsAfter (is.length + 2) s t ∧ t.errCode = s.errCode ∧ t.pixCount = BitVec.ofNat 32 (w.toNat * h.toNat) ∧
      t.hdrWidth = w ∧ t.hdrHeight = h ∧ t.hdrFmt = hdrFmtOf ch c ∧ pixelsPut t = ps := by
  obtain ⟨t, hends, herr, hcount, ⟨hwidth, hheight, hfmt⟩, hpixels⟩ :=
    Decoding.endsAfter is (s := decodeStarted w h ch c s) ht (decoding_of_stream hipos hlen hbytes hv hN hdraws hps)
  exact ⟨t, hends.step ht (hp.trans_ne nofun) (coreStep_of_stream hp hipos hlen hbytes hv hN), herr, hcount, hwidth,
    hheight, hfmt, hpixels⟩

end

theorem getElem_pixelsPut {i : Nat} (hi : i < (pixelsPut s).length) : (pixelsPut s)[i] = pixAt s i := by
  simp [pixelsPut]

theorem getElem_imagePixels {i : Nat} (hi : i < (imagePixels s).length) :
    (imagePixels s)[i] = encoderPixel (imgHasAlpha s) (pixAt s i) := by
  simp [imagePixels]

/-- The bytes an ENCODE wrote, placed in `BYTE_IN`, are the stream a DECODE reads. -/
theorem bytesLeft_accepted {u : State} (hlen : t.outLen.toNat = t.opos) (hin : u.inLen = t.outLen)
    (hbytes : ∀ a, a < t.outLen.toNat → byteInAt u a = byteOutAt t a) :
    bytesLeft (acceptedAlone .dHdr u) = written t := by
  rw [bytesLeft, written, ← hlen, ← hin, List.range_eq_range']
  refine List.map_congr_left fun a ha => hbytes a ?_
  obtain ⟨-, hlt⟩ := List.mem_range'_1.1 ha
  rw [← hin]
  exact hlt.trans_eq (Nat.zero_add _)

end

/-! ### What two ENCODEs of the same operands have in common (R182) -/

/-- The operands: the parameters, the image registers, and the image's pixels. -/
def SameImage (s u : State) : Prop :=
  u.cfg = s.cfg ∧ u.imgWidth = s.imgWidth ∧ u.imgHeight = s.imgHeight ∧ u.imgFmt = s.imgFmt ∧
    ∀ i, i < s.imgWidth.toNat * s.imgHeight.toNat → pixAt u i = pixAt s i

/-- How far the pixels are encoded: the pixel state, the pending run, the cursor, the image's alpha, and the bytes
written so far. -/
def SamePass (s u : State) : Prop :=
  u.px = s.px ∧ u.cache = s.cache ∧ u.run = s.run ∧ u.cur = s.cur ∧ u.alpha = s.alpha ∧ u.latN = s.latN ∧
    s.latN = s.imgWidth.toNat * s.imgHeight.toNat ∧ written u = written s

/-- What is common in each phase of an ENCODE: no byte until the header is written; then the pass; and at the end the
bytes below `OUT_LEN`. -/
def SameEncodePoint (s u : State) : Prop :=
  match s.phase with
  | .eHdr => s.opos = 0 ∧ u.opos = 0
  | .ePix => SamePass s u ∧ s.cur < s.latN
  | .eEnd => SamePass s u
  | .idle => ∀ a, a < s.outLen.toNat → byteOutAt u a = byteOutAt s a
  | .pHdr => False
  | .dHdr => False
  | .dChunk => False
  | .dTail => False

/-- Two ENCODEs of the same operands after as many core steps. -/
structure SameEncode (s u : State) : Prop where
  image : SameImage s u
  phase : u.phase = s.phase
  results : SameResultRegs s u
  running : s.phase ≠ .idle → s.outLen = 0
  point : SameEncodePoint s u

section

variable {s u t : State}

theorem sameEncodePoint_eHdr (hp : s.phase = .eHdr) : SameEncodePoint s u ↔ s.opos = 0 ∧ u.opos = 0 := by
  simp only [SameEncodePoint, hp]

theorem sameEncodePoint_ePix (hp : s.phase = .ePix) : SameEncodePoint s u ↔ SamePass s u ∧ s.cur < s.latN := by
  simp only [SameEncodePoint, hp]

theorem sameEncodePoint_eEnd (hp : s.phase = .eEnd) : SameEncodePoint s u ↔ SamePass s u := by
  simp only [SameEncodePoint, hp]

theorem sameEncodePoint_idle (hp : s.phase = .idle) :
    SameEncodePoint s u ↔ ∀ a, a < s.outLen.toNat → byteOutAt u a = byteOutAt s a := by
  simp only [SameEncodePoint, hp]

theorem opos_eq_of_written (h : written u = written s) : u.opos = s.opos := by
  rw [← length_written, ← length_written, h]

theorem byteOutAt_of_written (h : written u = written s) {a : Nat} (ha : a < s.opos) :
    byteOutAt u a = byteOutAt s a := by
  have get (t : State) (ht : a < (written t).length) : (written t)[a] = byteOutAt t a := by simp [written]
  have hs : a < (written s).length := by rwa [length_written]
  rw [← get u (h ▸ hs), ← get s hs]
  exact List.getElem_of_eq h _

/-! #### E_HDR -/

theorem SameImage.imageError_eq (h : SameImage s u) : imageError (latchImage u) = imageError (latchImage s) := by
  obtain ⟨hcfg, hw, hh, hf, -⟩ := h
  have cfg : (latchImage u).cfg = (latchImage s).cfg := hcfg
  have width : (latchImage u).latW = (latchImage s).latW := hw
  have height : (latchImage u).latH = (latchImage s).latH := hh
  have colorspace : (latchImage u).cs = (latchImage s).cs := congrArg (BitVec.extractLsb' 8 8) hf
  rw [imageError, imageError, cfg, width, height, colorspace]

theorem SameImage.imageTooBig_eq (h : SameImage s u) :
    imageTooBig (setPixelTotal (latchImage u)) = imageTooBig (setPixelTotal (latchImage s)) := by
  obtain ⟨hcfg, hw, hh, -, -⟩ := h
  have cfg : (setPixelTotal (latchImage u)).cfg = (setPixelTotal (latchImage s)).cfg := hcfg
  have total : (setPixelTotal (latchImage u)).latN = (setPixelTotal (latchImage s)).latN :=
    congrArg₂ (fun w h : Word => w.toNat * h.toNat) hw hh
  rw [imageTooBig, imageTooBig, cfg, total]

/-- The same error of E_HDR in both; it leaves no byte to agree on. -/
theorem SameImage.raised (h : SameImage s u) (hs : s.phase = .eHdr) (hu : u.phase = .eHdr) (e : ErrorCode) :
    SameEncode (raise e s) (raise e u) := by
  obtain ⟨hcfg, hw, hh, hf, hpix⟩ := h
  obtain ⟨hpos, hpx⟩ := raise_noPosition e (hs.trans_ne nofun) (hs.trans_ne nofun)
  obtain ⟨hpos', hpx'⟩ := raise_noPosition e (hu.trans_ne nofun) (hu.trans_ne nofun)
  refine ⟨⟨hcfg, hw, hh, hf, fun i hi => ?_⟩, rfl, ⟨rfl, rfl, hpos'.trans hpos.symm, hpx'.trans hpx.symm, rfl, rfl⟩,
    fun hb => absurd rfl hb, (sameEncodePoint_idle rfl).2 fun a ha => absurd ha (Nat.not_lt_zero a)⟩
  rw [raise_samePix e (hs.trans_ne nofun) (hs.trans_ne nofun), raise_samePix e (hu.trans_ne nofun) (hu.trans_ne nofun)]
  exact hpix i hi

theorem SameEncode.started (h : SameEncode s u) (hs : s.opos = 0) (hu : u.opos = 0) (hout : s.outLen = 0)
    (hv : ValidImage s) :
    SameEncode (passStarted s) (passStarted u) := by
  obtain ⟨hcfg, hw, hh, hf, hpix⟩ := h.image
  have halpha : imgHasAlpha u = imgHasAlpha s := by rw [imgHasAlpha, imgHasAlpha, hf]
  have hcs : imgColorspace u = imgColorspace s := by rw [imgColorspace, imgColorspace, hf]
  have hN : u.imgWidth.toNat * u.imgHeight.toNat = s.imgWidth.toNat * s.imgHeight.toNat := by rw [hw, hh]
  have bytes : written (passStarted u) = written (passStarted s) := by
    rw [written_passStarted hs, written_passStarted hu, hw, hh, halpha, hcs]
  exact ⟨⟨hcfg, hw, hh, hf, hpix⟩, rfl, h.results, fun _ => hout,
    (sameEncodePoint_ePix rfl).2 ⟨⟨rfl, rfl, rfl, rfl, halpha, hN, rfl, bytes⟩, hv.pixels_pos⟩⟩

theorem stepEHdr_simulates (h : SameEncode s u) (hs : s.phase = .eHdr) :
    Simulates SameEncode (stepEHdr s) (stepEHdr u) := by
  have hu : u.phase = .eHdr := h.phase.trans hs
  obtain ⟨hopos, hopos'⟩ := (sameEncodePoint_eHdr hs).1 h.point
  have herr := h.image.imageError_eq
  have hbig := h.image.imageTooBig_eq
  by_cases hv : imageError (latchImage s) = .none
  · cases hb : imageTooBig (setPixelTotal (latchImage s)) with
    | true =>
      rw [stepEHdr_tooBig hv hb, stepEHdr_tooBig (herr.trans hv) (hbig.trans hb)]
      exact .next (SameImage.raised (s := setPixelTotal (latchImage s)) (u := setPixelTotal (latchImage u)) h.image
        hs hu _)
    | false =>
      have hvalid : ValidImage s := ⟨hv, hb⟩
      have hvalid' : ValidImage u := ⟨herr.trans hv, hbig.trans hb⟩
      rw [← coreStep_eHdr hs, ← coreStep_eHdr hu, hvalid.starts hs hopos, hvalid'.starts hu hopos']
      exact .next (h.started hopos hopos' (h.running (hs.trans_ne nofun)) hvalid)
  · rw [stepEHdr_failed hv, stepEHdr_failed (herr ▸ hv), herr]
    exact .next (SameImage.raised (s := latchImage s) (u := latchImage u) h.image hs hu _)

/-! #### E_PIX -/

theorem SamePass.emit (h : SamePass s u) (bs : List Byte) :
    written { u with byteOut := Memory.writeList u.byteOut u.opos bs, opos := u.opos + bs.length } =
      written { s with byteOut := Memory.writeList s.byteOut s.opos bs, opos := s.opos + bs.length } := by
  obtain ⟨-, -, -, -, -, -, -, hwritten⟩ := h
  rw [written_emit, written_emit, hwritten]

/-- The pixel advance of both, once the step's bytes are emitted. -/
theorem SamePass.advanced (h : SamePass s u) (himage : SameImage s u) (hres : SameResultRegs s u)
    (hs : s.phase = .ePix) (hu : u.phase = .ePix) (hout : s.outLen = 0) (hcur : s.cur < s.latN) :
    SameEncode (advancePixel s) (advancePixel u) := by
  obtain ⟨hpx, hcache, hrun, hc, halpha, hN, htotal, hwritten⟩ := h
  have hc' : u.cur + 1 = s.cur + 1 := congrArg (· + 1) hc
  have later : SamePass (advancePixel s) (advancePixel u) := ⟨hpx, hcache, hrun, hc', halpha, hN, htotal, hwritten⟩
  refine ⟨himage, ?_, hres, fun _ => hout, ?_⟩
  · rw [advancePixel_phase, advancePixel_phase, hs, hu, hc', hN]
  · by_cases hend : s.cur + 1 = s.latN
    · exact (sameEncodePoint_eEnd (if_pos hend)).2 later
    · exact (sameEncodePoint_ePix ((if_neg hend).trans hs)).2 ⟨later, Nat.lt_of_le_of_ne hcur hend⟩

theorem PixelMove.simulated (h : SameEncode s u) (hs : s.phase = .ePix) (hm : PixelMove s t) :
    ∃ v, PixelMove u v ∧ SameEncode t v := by
  have hu : u.phase = .ePix := h.phase.trans hs
  obtain ⟨hsame, hcur⟩ := (sameEncodePoint_ePix hs).1 h.point
  obtain ⟨hcfg, -, -, -, hpix⟩ := h.image
  obtain ⟨hpx, hcache, hrun, hc, halpha, hN, htotal, hwritten⟩ := id hsame
  have hopos := opos_eq_of_written hwritten
  have hout := h.running (hs.trans_ne nofun)
  have pixel : encoderPixel u.alpha (pixAt u u.cur) = encoderPixel s.alpha (pixAt s s.cur) := by
    rw [halpha, hc, hpix s.cur (htotal ▸ hcur)]
  cases hm with
  | counted hp hr hl =>
    exact ⟨_, .counted (by rw [pixel, hp, hpx]) (by rwa [hrun]) (by rwa [hc, hN]),
      SamePass.advanced (s := setRun (s.run + 1) s) (u := setRun (u.run + 1) u)
        ⟨hpx, hcache, congrArg (· + 1) hrun, hc, halpha, hN, htotal, hwritten⟩ h.image h.results hs hu hout hcur⟩
  | runEmitted hp hr ho =>
    refine ⟨_, .runEmitted (by rw [pixel, hp, hpx]) (by rwa [hrun, hc, hN]) (by rwa [hopos, hcfg]), ?_⟩
    rw [hrun]
    exact SamePass.advanced ⟨hpx, hcache, rfl, hc, halpha, hN, htotal, hsame.emit [_]⟩ h.image h.results hs hu hout hcur
  | emitted p hp hne ho =>
    have hbytes : pixelBytes u p = pixelBytes s p := by rw [pixelBytes, pixelBytes, hrun, hcache, hpx]
    refine ⟨_, .emitted p (by rw [pixel, hp]) (by rwa [hpx]) (by rwa [hopos, hcfg, hbytes]), ?_⟩
    rw [hbytes]
    exact SamePass.advanced ⟨rfl, congrArg (cachePut · p) hcache, rfl, hc, halpha, hN, htotal, hsame.emit _⟩ h.image
      h.results hs hu hout hcur

theorem stepEPix_simulates (h : SameEncode s u) (hs : s.phase = .ePix) :
    Simulates SameEncode (stepEPix s) (stepEPix u) := by
  intro t hx
  obtain ⟨hcap, hm⟩ := stepEPix_move hx
  obtain ⟨v, hm', hv⟩ := hm.simulated h hs
  obtain ⟨⟨-, -, -, hc, -⟩, -⟩ := (sameEncodePoint_ePix hs).1 h.point
  obtain ⟨hcfg, -⟩ := h.image
  exact ⟨v, stepEPix_of_move (by rwa [hc, hcfg]) hm', hv⟩

/-! #### E_END -/

theorem stepEEnd_simulates (h : SameEncode s u) (hs : s.phase = .eEnd) :
    Simulates SameEncode (stepEEnd s) (stepEEnd u) := by
  intro t hx
  have hsame := (sameEncodePoint_eEnd hs).1 h.point
  obtain ⟨hcfg, -⟩ := h.image
  obtain ⟨-, -, -, -, -, -, -, hwritten⟩ := id hsame
  obtain ⟨-, herr, hpos, hpix, hcount, -⟩ := h.results
  have hopos := opos_eq_of_written hwritten
  have ho : s.opos + 8 ≤ s.cfg.outCapacity.toNat := by
    obtain ⟨w, hw, -⟩ := andThen_eq_next.1 hx
    exact (emitBytes_eq_next.1 hw).1
  rw [stepEEnd_of ho] at hx
  injection hx with hx
  subst hx
  refine ⟨_, stepEEnd_of (by rwa [hopos, hcfg]), h.image, rfl,
    ⟨rfl, herr, hpos, hpix, hcount, congrArg (fun n => BitVec.ofNat 32 (n + 8)) hopos⟩,
    fun hb => absurd rfl hb, (sameEncodePoint_idle rfl).2 fun a ha => ?_⟩
  refine byteOutAt_of_written (hsame.emit endMarkerBytes) (Nat.lt_of_lt_of_le ha ?_)
  exact (BitVec.toNat_ofNat _ _).trans_le (Nat.mod_le _ _)

/-- While the command runs `OUT_LEN` is 0, and at its end the bytes below it agree. -/
theorem SameEncode.bytes (h : SameEncode s u) : ∀ a, a < s.outLen.toNat → byteOutAt u a = byteOutAt s a := by
  by_cases hs : s.phase = .idle
  · exact (sameEncodePoint_idle hs).1 h.point
  · rw [h.running hs]
    exact fun a ha => absurd ha (Nat.not_lt_zero a)

end

/-- The core's steps of two ENCODEs of the same operands keep what they have in common. -/
theorem sameEncode_isSimulation : IsSimulation SameEncode := by
  intro s u h
  refine ⟨h.phase, fun hb => ?_⟩
  have hpoint := h.point
  cases hs : s.phase with
  | eHdr =>
    rw [coreStep_eHdr hs, coreStep_eHdr (h.phase.trans hs)]
    exact stepEHdr_simulates h hs
  | ePix =>
    rw [coreStep_ePix hs, coreStep_ePix (h.phase.trans hs)]
    exact stepEPix_simulates h hs
  | eEnd =>
    rw [coreStep_eEnd hs, coreStep_eEnd (h.phase.trans hs)]
    exact stepEEnd_simulates h hs
  | idle => exact absurd hs hb
  | pHdr | dHdr | dChunk | dTail => simp only [SameEncodePoint, hs] at hpoint

/-! ### The statements -/

/-- Settles O57: the core alone takes a step for the header, one for each pixel and one for the end marker, and the
register accesses between these add none. -/
theorem encodeEndsExactly : Obligations.EncodeEndsExactly := by
  rintro s n hp rts hopos herr rfl hw hw' hh hh' hc hN hcap
  have alone : SameRun { s with turns := [] } s := rfl
  have valid : ValidImage { s with turns := [] } := validImage_of hw hw' hh hh' hc hN hcap
  obtain ⟨a, hends, herr', hlen, hbound, is, hwritten, hdraws⟩ := valid.endsAfter hp rfl hopos
  refine ⟨?_, fun k t => hends.interleaved_busy rfl alone rts t⟩
  obtain ⟨k, t, hk, hx, hbusy, hat, hended⟩ := hends.interleaved rfl alone rts
  obtain ⟨c, d, v, ts, rfl⟩ : ∃ c d v ts, t = hostSide c d v ts a := ⟨_, _, _, _, hat⟩
  have hstream := imageStream_length valid hdraws
  rw [← hwritten, length_written, ← hlen] at hstream
  refine ⟨k, _, hk, ⟨hx, fun j u _ hj => hbusy j u hj⟩, hended, herr'.trans herr, hstream, ?_⟩
  exact hlen.trans_le (hbound.trans (Nat.add_right_comm 14 _ 8).ge)

/-- Settles O59: acceptance puts two idle states with the same operands in step, the core's steps keep them so, and the
register accesses between these change no result. -/
theorem encodeIsDeterministic : Obligations.EncodeIsDeterministic := by
  intro s u ts us hs hu hts hus rts rus hcfg hw hh hf hpix k t hx
  have start : SameEncode (acceptedAlone .eHdr s) (acceptedAlone .eHdr u) :=
    ⟨⟨hcfg, hw, hh, hf, hpix⟩, rfl, ⟨rfl, rfl, rfl, rfl, rfl, rfl⟩, fun _ => rfl,
      (sameEncodePoint_eHdr rfl).2 ⟨rfl, rfl⟩⟩
  obtain ⟨j, v, a, b, hj, hv, hat, hbv, hab, hdone⟩ := sameEncode_isSimulation.accepted
    (ph := .eHdr) (fun _ => rfl) nofun hs hu hts hus rts rus start hx
  obtain ⟨-, herr, hpos, hpix, hcount, hout⟩ := hab.results
  obtain ⟨c, d, w, xs, rfl⟩ : ∃ c d w xs, t = hostSide c d w xs a := ⟨_, _, _, _, hat⟩
  obtain ⟨c', d', w', xs', rfl⟩ : ∃ c d w xs, v = hostSide c d w xs b := ⟨_, _, _, _, hbv⟩
  exact ⟨j, _, hj, hv, hab.phase, ⟨hdone, herr, hpos, hpix, hcount, hout⟩, hab.bytes⟩

/-- Settles O60: the encoder writes a stream whose chunks draw the image, and such a stream decodes to what its chunks
draw; register accesses change neither run. -/
theorem roundTripLaw : Obligations.RoundTripLaw := by
  rintro s ts n hp hts rts rfl hw hw' hh hh' hc hN hcap
  have valid : ValidImage (acceptedAlone .eHdr s) := validImage_of hw hw' hh hh' hc hN hcap
  obtain ⟨a, hends, herr, hlen, -, is, hwritten, hdraws⟩ := valid.endsAfter rfl rfl rfl
  obtain ⟨k, t, hk, hx, hended, hat⟩ := hends.accepted (fun _ => rfl) hp hts rts
  obtain ⟨c, d, v, xs, rfl⟩ : ∃ c d v xs, t = hostSide c d v xs a := ⟨_, _, _, _, hat⟩
  refine ⟨k, _, hk, hx, hended, herr, fun u us hpu hus rus hcfg hin hinCap hbytes => ?_⟩
  have header : headerError u.cfg s.imgWidth s.imgHeight (channelByte (imgHasAlpha s)) (imgColorspace s) = .none :=
    hcfg ▸ headerError_of_valid (channelByte_legal _) hc hw hw' hh hh'
  have hroom : u.inLen.toNat ≤ u.cfg.inCapacity.toNat := by rw [hin, hcfg]; exact hinCap
  have stream := (bytesLeft_accepted hlen hin hbytes).trans hwritten
  have count : (imagePixels (acceptedAlone .eHdr s)).length = s.imgWidth.toNat * s.imgHeight.toNat := by
    rw [imagePixels, List.length_map, List.length_range]; rfl
  obtain ⟨b, hends', herr', hcount, hwidth, hheight, hfmt, hpixels⟩ :=
    endsAfter_of_stream (s := acceptedAlone .dHdr u) rfl rfl rfl hroom stream header (hcfg ▸ hN) hdraws count
  obtain ⟨j, v, -, hx', hended', hbv⟩ := hends'.accepted (fun _ => rfl) hpu hus rus
  obtain ⟨c, d, w, xs, rfl⟩ : ∃ c d w xs, v = hostSide c d w xs b := ⟨_, _, _, _, hbv⟩
  refine ⟨j, _, hx', hended', herr', hcount, hwidth, hheight, ?_, ?_, ?_, fun i hi => ?_⟩
  · exact (congrArg (BitVec.extractLsb' 0 8) hfmt).trans (hdrFmtOf_channels _ _)
  · exact (congrArg (BitVec.extractLsb' 8 8) hfmt).trans (hdrFmtOf_colorspace _ _)
  · exact (congrArg (BitVec.getLsbD · 16) hfmt).trans ((hdrFmtOf_hasAlpha _ _).trans (channelByte_beq _))
  · have hput : i < (pixelsPut b).length := by rw [hpixels, count]; exact hi
    calc pixAt b i
      _ = (pixelsPut b)[i] := (getElem_pixelsPut hput).symm
      _ = (imagePixels (acceptedAlone .eHdr s))[i] := List.getElem_of_eq hpixels hput
      _ = encoderPixel (imgHasAlpha s) (pixAt s i) := getElem_imagePixels (hpixels ▸ hput)

/-- Settles O40: R162's checks come before R163's, and each error is raised in a phase that leaves the memories. -/
theorem encodeChecksInOrder : Obligations.EncodeChecksInOrder := by
  intro s hp e dimBad csBad tooBig hdim hcs hbig he
  rw [coreStep_eHdr hp]
  have raised (u : State) (hph : u.phase = .eHdr) (hin : SameByteIn s u) (hout : SameByteOut s u) (hpix : SamePix s u)
      (hx : stepEHdr s = .next (raise e u)) :
      ∃ t, stepEHdr s = .next t ∧ t.errCode = e ∧ t.errPos = 0 ∧ t.errPix = 0 ∧ commandEnded t ∧ t.outLen = 0 ∧
        SameByteIn s t ∧ SameByteOut s t ∧ SamePix s t := by
    obtain ⟨hpos, hpx⟩ := raise_noPosition e (hph.trans_ne nofun) (hph.trans_ne nofun)
    exact ⟨_, hx, rfl, hpos, hpx, ⟨rfl, rfl⟩, rfl, hin, hout,
      fun i => (raise_samePix e (hph.trans_ne nofun) (hph.trans_ne nofun) i).trans (hpix i)⟩
  have dimension : dimBad ↔
      badDimension (latchImage s).cfg (latchImage s).latW = true ∨
        badDimension (latchImage s).cfg (latchImage s).latH = true := by
    rw [hdim, badDimension_eq_true, badDimension_eq_true, or_assoc]; rfl
  have colorspace : csBad ↔ badColorspace (latchImage s).cs = true := by rw [hcs, badColorspace_eq_true]; rfl
  have big : tooBig ↔ imageTooBig (setPixelTotal (latchImage s)) = true := by rw [hbig, imageTooBig_eq_true]; rfl
  rw [dimension, colorspace, big] at he
  rcases he with ⟨rfl, hd⟩ | ⟨rfl, hd, hc⟩ | ⟨rfl, hd, hc, hb⟩
  · have herr := imageError_of_badDimension hd
    exact raised (latchImage s) hp (fun _ => rfl) (fun _ => rfl) (fun _ => rfl)
      ((stepEHdr_failed (herr.trans_ne nofun)).trans (by rw [herr]))
  · have herr := imageError_of_badColorspace hd hc
    exact raised (latchImage s) hp (fun _ => rfl) (fun _ => rfl) (fun _ => rfl)
      ((stepEHdr_failed (herr.trans_ne nofun)).trans (by rw [herr]))
  · exact raised (setPixelTotal (latchImage s)) hp (fun _ => rfl) (fun _ => rfl) (fun _ => rfl)
      (stepEHdr_tooBig (imageError_of_valid hd hc) hb)

/-- Settles O42: of the ways of E_PIX the first two, told apart by the run's length and the last pixel. -/
theorem runExtendsOrEmits : Obligations.RunExtendsOrEmits := by
  intro s hp hcur hcap hrun hpx
  have hc : s.cur < s.cfg.pixCapacity.toNat := Nat.lt_of_lt_of_le hcur hcap
  have hsucc : (s.run + 1).toNat = s.run.toNat + 1 := by bv_omega
  have h62 : s.run + 1 = 62 ↔ s.run.toNat + 1 = 62 := by bv_omega
  rw [coreStep_ePix hp]
  refine ⟨fun hr hl => ?_, fun hr ho => ?_⟩
  · rw [stepEPix_of_move hc (.counted hpx (mt h62.1 hr) hl), advancePixel, setRun, if_neg hl]
  · rw [stepEPix_of_move hc (.runEmitted hpx (by rwa [h62]) ho), advancePixel, hsucc, Nat.add_sub_cancel,
      BitVec.ofNat_toNat, hp]

/-- Settles O43: the third way of E_PIX. -/
theorem nonRunPixelEmits : Obligations.NonRunPixelEmits := by
  intro s p hp hcur hcap hpix hne bytes hbytes ho
  have same : bytes = pixelBytes s p := by
    rw [hbytes, pixelBytes]
    by_cases hr : s.run = 0
    · rw [if_pos hr, if_pos hr]
    · have : BitVec.ofNat 8 (s.run.toNat - 1) = (s.run - 1).setWidth 8 := by bv_omega
      rw [if_neg hr, if_neg hr, streamBytes, this]
  subst same
  rw [coreStep_ePix hp, stepEPix_of_move (Nat.lt_of_lt_of_le hcur hcap) (.emitted p hpix hne ho), advancePixel, hp]

/-- Settles O44: the tests of `chooseChunk` and `deltaChunk`, in their order. -/
theorem chunkPriority : Obligations.ChunkPriority := by
  rintro cache px p dr dg db rfl rfl rfl
  rw [← diffFits_iff, ← lumaFits_iff]
  refine ⟨chooseChunk_of_cached, chooseChunk_of_alpha, fun hk ha => ?_⟩
  rw [chooseChunk_of_sameAlpha hk ha, deltaChunk]
  exact ⟨fun hd => if_pos hd, fun hd =>
    ⟨fun hl => (if_neg hd).trans (if_pos hl), fun hl => (if_neg hd).trans (if_neg hl)⟩⟩

/-- Settles O46: the chunk is an INDEX whose slot holds the pixel, or one that makes it. -/
theorem chosenChunkReconstructs : Obligations.ChosenChunkReconstructs := by
  intro cache px p _
  have hchunk := chooseChunk_isChunk cache px p
  have hlen : (streamBytes (chooseChunk cache px p)).length ≤ 5 :=
    (streamBytes_length _).trans_le (size_le_of_isChunk hchunk)
  rcases chooseChunk_reconstructs cache px p with ⟨k, hk, hslot, hput⟩ | ⟨hwf, hmakes, hmade⟩
  · exact ⟨hk ▸ rfl, hchunk, hlen, .inl ⟨k, hk, hslot, hput⟩⟩
  · exact ⟨hwf, hchunk, hlen, .inr ⟨hmakes, hmade⟩⟩

/-- Settles O45: the 8 bytes of the marker fit. -/
theorem encodeEndStep : Obligations.EncodeEndStep :=
  fun _ hp ho => (coreStep_eEnd hp).trans (stepEEnd_of ho)

end Sys2Proof.Machine
end

section
/-! PROOFS. The family 43_commands.md: what a write of `CMD` (R191 to R193) and of the other registers does (R199,
R200), the phases the core's steps go through (R196), that the host disturbs no running command (R199), and that a
DECODE ends within `N + 2` core steps (R204). -/

namespace Sys2Proof.Machine

/-! ### A write of `CMD` (R191, R192, R193) -/

/-- What a write of `v` to `CMD` does in an idle block. -/
def requested (v : Word) : State → State :=
  if v = 1 then accept .pHdr
  else if v = 2 then accept .dHdr
  else if v = 3 then accept .eHdr
  else rejectCommand

section

variable {v : Word} {s t : State}

theorem exec_decodeCommand (v : Word) (s : State) : exec (decodeCommand v) s = whenIdle (requested v) s := by
  unfold decodeCommand requested
  split
  · rfl
  split
  · rfl
  split
  · rfl
  · rfl

theorem requested_illegal (h1 : v ≠ 1) (h2 : v ≠ 2) (h3 : v ≠ 3) : requested v = rejectCommand := by
  rw [requested, if_neg h1, if_neg h2, if_neg h3]

/-- The illegal command keeps the phase, so the command is one of the other three. -/
theorem exec_decodeCommand_leavesIdle (hp : s.phase = .idle) (hx : exec (decodeCommand v) s = .next t)
    (ht : t.phase ≠ .idle) : v = 1 ∨ v = 2 ∨ v = 3 := by
  rw [exec_decodeCommand, whenIdle_of_idle hp] at hx
  injection hx with hx
  subst hx
  by_contra hv
  obtain ⟨h1, h2, h3⟩ : v ≠ 1 ∧ v ≠ 2 ∧ v ≠ 3 := by simpa only [not_or] using hv
  rw [requested_illegal h1 h2 h3] at ht
  exact ht hp

/-! ### A write of any register (R199, R200) -/

theorem regWrite_inLen (v : Word) (s : State) :
    regWrite .inLen v s = whenIdle (fun s => { s with inLen := clampLen s.cfg v }) s := rfl

theorem regWrite_imgWidth (v : Word) (s : State) :
    regWrite .imgWidth v s = whenIdle (fun s => { s with imgWidth := v }) s := rfl

theorem regWrite_imgHeight (v : Word) (s : State) :
    regWrite .imgHeight v s = whenIdle (fun s => { s with imgHeight := v }) s := rfl

theorem regWrite_imgFmt (v : Word) (s : State) :
    regWrite .imgFmt v s = whenIdle (fun s => { s with imgFmt := v &&& 0xFF01 }) s := rfl

theorem clampLen_of_le {p : Params} (h : v.toNat ≤ p.inCapacity.toNat) : clampLen p v = v := if_neg (Nat.not_lt.2 h)

theorem clampLen_of_lt {p : Params} (h : p.inCapacity.toNat < v.toNat) : clampLen p v = p.inCapacity := if_pos h

/-- The bits of `IMG_FMT` a write stores, and the ones it leaves 0 (R27). -/
theorem imgFmt_stored (v : Word) :
    (v &&& 0xFF01).getLsbD 0 = v.getLsbD 0 ∧ (v &&& 0xFF01).extractLsb' 8 8 = v.extractLsb' 8 8 ∧
      (v &&& 0xFF01).extractLsb' 1 7 = 0 ∧ (v &&& 0xFF01).extractLsb' 16 16 = 0 := by
  refine ⟨?_, ?_, ?_, ?_⟩
  · rw [BitVec.getLsbD_and, show (0xFF01 : Word).getLsbD 0 = true from rfl, Bool.and_true]
  · rw [BitVec.extractLsb'_and, show (0xFF01 : Word).extractLsb' 8 8 = BitVec.allOnes 8 from rfl, BitVec.and_allOnes]
  · rw [BitVec.extractLsb'_and, show (0xFF01 : Word).extractLsb' 1 7 = 0 from rfl]; exact BitVec.and_zero
  · rw [BitVec.extractLsb'_and, show (0xFF01 : Word).extractLsb' 16 16 = 0 from rfl]; exact BitVec.and_zero

/-! ### What the host leaves of the phase and of a running command -/

theorem whenIdle_phase {f : State → State} (hf : (f s).phase = s.phase) (hx : whenIdle f s = .next t) :
    t.phase = s.phase := by
  by_cases hp : s.phase = .idle
  · rw [whenIdle_of_idle hp] at hx; injection hx with hx; exact hx ▸ hf
  · rw [whenIdle_of_busy hp] at hx; injection hx with hx; exact hx ▸ rfl

theorem regWrite_phase {r : Reg} (hr : r ≠ .cmd) (hx : regWrite r v s = .next t) : t.phase = s.phase := by
  cases r with
  | cmd => exact absurd rfl hr
  | inLen => rw [regWrite_inLen] at hx; exact whenIdle_phase rfl hx
  | imgWidth => rw [regWrite_imgWidth] at hx; exact whenIdle_phase rfl hx
  | imgHeight => rw [regWrite_imgHeight] at hx; exact whenIdle_phase rfl hx
  | imgFmt => rw [regWrite_imgFmt] at hx; exact whenIdle_phase rfl hx
  | _ => injection hx with hx; exact hx ▸ rfl

theorem hostStep_leavesIdle {act : HostAction} (hp : s.phase = .idle) (hx : hostStep act s = .next t)
    (ht : t.phase ≠ .idle) : ∃ v, act = .writeReg 0x08 v ∧ (v = 1 ∨ v = 2 ∨ v = 3) := by
  cases act with
  | readReg off =>
    simp only [hostStep] at hx
    split at hx
    · cases hx
    · injection hx with hx; subst hx; exact absurd hp ht
  | writeReg off v =>
    cases hr : regAt off with
    | none => rw [hostStep, hr] at hx; cases hx
    | some r =>
      rw [hostStep_writeReg hr] at hx
      by_cases hc : r = .cmd
      · subst hc
        obtain ⟨-, -, hoff⟩ := regAt_eq_some.1 hr
        exact ⟨v, by rw [regNamed_eq_cmd.1 hoff.symm], exec_decodeCommand_leavesIdle hp hx ht⟩
      · exact absurd ((regWrite_phase hc hx).trans hp) ht
  | readIn | writeIn | readOut | writeOut | readPix | writePix =>
    obtain ⟨-, -, rfl⟩ := hostMemory_eq_next.1 hx; exact absurd hp ht

/-- The state but for `CTRL`, `DONE`, which is not set, and the host's last read. -/
def CommandUndisturbed (s t : State) : Prop :=
  t = { s with ctrl := t.ctrl, done := t.done, hostData := t.hostData } ∧ (t.done = true → s.done = true)

theorem CommandUndisturbed.refl (s : State) : CommandUndisturbed s s := ⟨rfl, id⟩

theorem whenIdle_undisturbed {f : State → State} (hb : s.phase ≠ .idle) (hx : whenIdle f s = .next t) :
    CommandUndisturbed s t := by
  rw [whenIdle_of_busy hb] at hx
  injection hx with hx
  exact hx ▸ .refl s

theorem regWrite_undisturbed {r : Reg} (hb : s.phase ≠ .idle) (hx : regWrite r v s = .next t) :
    CommandUndisturbed s t := by
  cases r with
  | ctrl => injection hx with hx; exact hx ▸ ⟨rfl, id⟩
  | status => injection hx with hx; exact hx ▸ ⟨rfl, fun h => (Bool.and_eq_true_iff.1 h).1⟩
  | cmd => exact whenIdle_undisturbed hb ((exec_decodeCommand v s).symm.trans hx)
  | inLen => rw [regWrite_inLen] at hx; exact whenIdle_undisturbed hb hx
  | imgWidth => rw [regWrite_imgWidth] at hx; exact whenIdle_undisturbed hb hx
  | imgHeight => rw [regWrite_imgHeight] at hx; exact whenIdle_undisturbed hb hx
  | imgFmt => rw [regWrite_imgFmt] at hx; exact whenIdle_undisturbed hb hx
  | _ => injection hx with hx; exact hx ▸ .refl s

theorem hostStep_undisturbed {act : HostAction} (hb : s.phase ≠ .idle) (hx : hostStep act s = .next t) :
    CommandUndisturbed s t := by
  cases act with
  | readReg off =>
    simp only [hostStep] at hx
    split at hx
    · cases hx
    · injection hx with hx; exact hx ▸ ⟨rfl, id⟩
  | writeReg off v =>
    simp only [hostStep] at hx
    split at hx
    · cases hx
    · exact regWrite_undisturbed hb hx
  | readIn | writeIn | readOut | writeOut | readPix | writePix =>
    obtain ⟨hp, -, -⟩ := hostMemory_eq_next.1 hx; exact absurd hp hb

end

/-! ### The phases of the core's steps (R196) -/

/-- D_CHUNK while pixels are still to come, D_TAIL once none is. -/
def DecodePhase (s : State) : Prop := s.phase = .dChunk ∧ s.cur < s.latN ∨ s.phase = .dTail ∧ s.cur = s.latN

/-- E_PIX while pixels are still to come, E_END once none is. -/
def EncodePhase (s : State) : Prop := s.phase = .ePix ∧ s.cur < s.latN ∨ s.phase = .eEnd ∧ s.cur = s.latN

section

variable {s t : State} {i : Instr}

theorem coreStep_idle (hp : s.phase = .idle) : coreStep s = .next s := by simp only [coreStep, hp]

theorem HeaderMove.phase (hm : HeaderMove s t) : t.phase = .idle ∨ s.phase = .dHdr ∧ t.phase = .dChunk := by
  cases hm with
  | started _ _ _ _ hp => exact .inr ⟨hp, rfl⟩
  | failed | parsed | tooBig => exact .inl rfl

theorem endChunk_decodePhase (k : Nat) (hp : s.phase = .dChunk) (hcur : s.cur ≤ s.latN) :
    DecodePhase (endChunk k s) := by
  by_cases hend : s.cur = s.latN
  · exact .inr ⟨if_pos hend, hend⟩
  · exact .inl ⟨(if_neg hend).trans hp, Nat.lt_of_le_of_ne hcur hend⟩

/-- A chunk is a RUN that overflows, or the decode goes on. -/
theorem ChunkMove.phase (hm : ChunkMove i s t) (hp : s.phase = .dChunk) (hcur : s.cur < s.latN) :
    t.phase = .idle ∧ t.errCode ≠ .none ∨ DecodePhase t := by
  cases hm with
  | made => exact .inr (endChunk_decodePhase _ hp hcur)
  | indexed => exact .inr (endChunk_decodePhase _ hp hcur)
  | ran n _ hn => exact .inr (endChunk_decodePhase _ hp hn)
  | overflowed => exact .inl ⟨rfl, nofun⟩

theorem advancePixel_encodePhase (hp : s.phase = .ePix) (hcur : s.cur < s.latN) : EncodePhase (advancePixel s) := by
  by_cases hend : s.cur + 1 = s.latN
  · exact .inr ⟨if_pos hend, hend⟩
  · exact .inl ⟨(if_neg hend).trans hp, Nat.lt_of_le_of_ne hcur hend⟩

theorem PixelMove.phase (hm : PixelMove s t) (hp : s.phase = .ePix) (hcur : s.cur < s.latN) :
    t.errCode = s.errCode ∧ EncodePhase t := by
  cases hm with
  | counted | runEmitted | emitted => exact ⟨rfl, advancePixel_encodePhase hp hcur⟩

/-- The row of R196 for a core step from `s`, in phase `ph`, to `t`. -/
def NextPhase (ph : Phase) (s t : State) : Prop :=
  match ph with
  | .idle => t = s
  | .pHdr => t.phase = .idle
  | .dHdr => t.phase = .idle ∨ t.phase = .dChunk
  | .dChunk => s.cur < s.latN → t.phase = .idle ∨ DecodePhase t
  | .dTail => t.phase = .idle
  | .eHdr => t.phase = .idle ∨ t.phase = .ePix
  | .ePix => s.cur < s.latN → t.errCode = s.errCode ∧ EncodePhase t
  | .eEnd => t.phase = .idle ∧ t.errCode = s.errCode

theorem CoreMove.nextPhase (hm : CoreMove s t) : NextPhase s.phase s t := by
  cases hm with
  | held hp => rw [hp]; exact rfl
  | header _ hp hm =>
    obtain hp | hp := hp
    · rw [hp]; exact hm.phase.resolve_right fun h => nomatch hp.symm.trans h.1
    · rw [hp]; exact hm.phase.imp_right And.right
  | chunkFailed _ hp => rw [hp]; exact fun _ => .inl rfl
  | chunk _ _ _ _ hp _ _ _ _ hm =>
    rw [hp]
    exact fun hcur => (hm.phase hp hcur).imp_left And.left
  | tailFailed _ hp => rw [hp]; exact rfl
  | decoded hp => rw [hp]; exact rfl
  | imageFailed _ hp => rw [hp]; exact .inl rfl
  | imageOverCapacity hp => rw [hp]; exact .inl rfl
  | encodeStarted hp => rw [hp]; exact .inr rfl
  | pixel _ hp _ hm => rw [hp]; exact hm.phase hp
  | encoded hp => rw [hp]; exact ⟨rfl, rfl⟩

end

/-! ### A DECODE past its header makes progress (R132, R144, R204) -/

/-- Between D_HDR and the end of the command. -/
structure PastHeader (s : State) : Prop where
  ok : DecodeOk s
  phase : DecodePhase s

section

variable {s t : State} {i : Instr}

theorem DecodePhase.cur_le (h : DecodePhase s) : s.cur ≤ s.latN := by
  obtain ⟨-, hlt⟩ | ⟨-, heq⟩ := h
  · exact hlt.le
  · exact heq.le

theorem DecodePhase.busy (h : DecodePhase s) : s.phase ≠ .idle := by
  obtain ⟨hp, -⟩ | ⟨hp, -⟩ := h
  · exact hp.trans_ne nofun
  · exact hp.trans_ne nofun

theorem ChunkMove.latN (hm : ChunkMove i s t) : t.latN = s.latN := by
  cases hm with
  | made | indexed | ran | overflowed => rfl

/-- The room check leaves every chunk inside the stream. -/
theorem ChunkMove.decodeOk (hm : ChunkMove i s t) (hi : i.isChunk = true) (hl : 8 ≤ s.len.toNat - s.ipos)
    (h : DecodeOk s) : DecodeOk t := by
  obtain ⟨hlen, hpos, hle, hN, hcap⟩ := h
  have hsize := size_le_of_isChunk hi
  have read (k : Nat) (hk : k ≤ 5) : 14 ≤ s.ipos + k ∧ s.ipos + k ≤ s.len.toNat := by omega
  cases hm with
  | made => exact ⟨hlen, (read i.size hsize).1, (read i.size hsize).2, hN, hcap⟩
  | indexed | ran => exact ⟨hlen, (read 1 (by decide)).1, (read 1 (by decide)).2, hN, hcap⟩
  | overflowed => exact ⟨hlen, hpos, hle, hN, hcap⟩

/-- The operands of what eight bytes decode to are in range (R94, R97). -/
theorem decodeChunk_wellFormed {bs rest : List Byte} (hl : bs.length = 8) (hd : decodeChunk bs = .ok (i, rest)) :
    i.wellFormed = true := by
  cases bs with
  | nil => cases hl
  | cons tag more =>
    obtain ⟨j, rest', hd', hwf, -⟩ := tagSpaceIsTotal tag more (Nat.succ.inj hl).ge
    obtain ⟨rfl, -⟩ := Prod.mk.inj (Except.ok.inj (hd.symm.trans hd'))
    exact hwf

/-- The command is over, and without error the count is of all `n` pixels. -/
def DecodeOver (n : Nat) (t : State) : Prop :=
  t.phase = .idle ∧ (t.errCode = .none → t.pixCount = BitVec.ofNat 32 n)

theorem decodeOver_raise (n : Nat) (s : State) {e : ErrorCode} (he : e ≠ .none) : DecodeOver n (raise e s) :=
  ⟨rfl, fun h => absurd h he⟩

/-- A step of the decoder past the header ends the command or puts a pixel. -/
def DecodeAdvances (s t : State) : Prop :=
  DecodeOver s.latN t ∨ PastHeader t ∧ t.latN = s.latN ∧ s.cur < t.cur

theorem exec_chunk_advances (h : DecodeOk s) (hp : s.phase = .dChunk) (hcur : s.cur < s.latN)
    (hl : 8 ≤ s.len.toNat - s.ipos) (hi : i.isChunk = true) (hwf : i.wellFormed = true) :
    ∃ t, exec i s = .next t ∧ DecodeAdvances s t := by
  obtain ⟨-, -, -, -, hcap⟩ := id h
  obtain ⟨t, hx⟩ := exec_chunk_answers hi hp hcur hcap
  obtain ⟨-, hm⟩ := (exec_chunk_eq_next hi).1 hx
  obtain ⟨hidle, herr⟩ | hph := hm.phase hp hcur
  · exact ⟨t, hx, .inl ⟨hidle, fun hn => absurd hn herr⟩⟩
  · have progress := currentPixelIsLastWritten i s t hi hwf hx hph.busy
    exact ⟨t, hx, .inr ⟨⟨hm.decodeOk hi hl h, hph⟩, hm.latN, progress.1⟩⟩

theorem stepChunk_advances (h : DecodeOk s) (hp : s.phase = .dChunk) (hcur : s.cur < s.latN) :
    ∃ t, stepChunk s = .next t ∧ DecodeAdvances s t := by
  obtain ⟨hlen, -, -, -, -⟩ := id h
  rcases Nat.lt_or_ge (s.len.toNat - s.ipos) 8 with hl | hl
  · exact ⟨_, stepChunk_short hl, .inl (decodeOver_raise _ s nofun)⟩
  · obtain ⟨bs, hf⟩ := fetchIn_inside (show s.ipos + 8 ≤ s.cfg.inCapacity.toNat by omega)
    obtain ⟨i, rest, hd⟩ := decodeChunk_of_length (fetchIn_length hf)
    rw [stepChunk_decoded hl hf hd]
    obtain rfl | hi := decodeChunk_kind hd
    · exact ⟨_, exec_endMarker_dChunk hp, .inl (decodeOver_raise _ s nofun)⟩
    · exact exec_chunk_advances h hp hcur hl hi (decodeChunk_wellFormed (fetchIn_length hf) hd)

theorem stepTail_over (h : DecodeOk s) (hp : s.phase = .dTail) :
    ∃ t, stepTail s = .next t ∧ DecodeOver s.latN t := by
  obtain ⟨hlen, -, -, -, -⟩ := h
  rcases Nat.lt_or_ge (s.len.toNat - s.ipos) 8 with hl | hl
  · exact ⟨_, stepTail_short hl, decodeOver_raise _ s nofun⟩
  · obtain ⟨bs, hf⟩ := fetchIn_inside (show s.ipos + 8 ≤ s.cfg.inCapacity.toNat by omega)
    rw [stepTail_fetched hl hf, exec_endMarker_dTail hp]
    split
    · split
      · exact ⟨_, rfl, decodeOver_raise _ s nofun⟩
      · exact ⟨_, rfl, rfl, fun _ => rfl⟩
    · exact ⟨_, rfl, decodeOver_raise _ s nofun⟩

theorem PastHeader.step (h : PastHeader s) : ∃ t, coreStep s = .next t ∧ DecodeAdvances s t := by
  obtain ⟨hp, hcur⟩ | ⟨hp, -⟩ := h.phase
  · rw [coreStep_dChunk hp]
    exact stepChunk_advances h.ok hp hcur
  · obtain ⟨t, hx, hover⟩ := stepTail_over h.ok hp
    exact ⟨t, (coreStep_dTail hp).trans hx, .inl hover⟩

/-- A step for each pixel left at most, and one for the end. -/
theorem PastHeader.endsWithin (m : Nat) : ∀ {s : State}, s.turns = [] → PastHeader s → s.latN < s.cur + m →
    ∃ j t, j < m ∧ EndsAfter (j + 1) s t ∧ DecodeOver s.latN t := by
  induction m with
  | zero => exact fun _ h hm => absurd hm (Nat.not_lt.2 h.phase.cur_le)
  | succ m ih =>
    intro s ht h hm
    obtain ⟨t, hx, hover | ⟨hpast, hN, hcur⟩⟩ := h.step
    · exact ⟨0, t, Nat.succ_pos m, .last ht h.phase.busy hx hover.1, hover⟩
    · obtain ⟨j, u, hj, hends, hover⟩ := ih ((coreStep_turns hx).trans ht) hpast (by omega)
      exact ⟨j + 1, u, Nat.succ_lt_succ hj, hends.step ht h.phase.busy hx, hN ▸ hover⟩

/-! ### A DECODE from its header (R131, R204) -/

/-- The header's width times its height, as D_HDR reads them. -/
def headerPixels (s : State) : Nat :=
  (be32 (byteInAt s 4) (byteInAt s 5) (byteInAt s 6) (byteInAt s 7)).toNat *
    (be32 (byteInAt s 8) (byteInAt s 9) (byteInAt s 10) (byteInAt s 11)).toNat

theorem exec_header_advances {w h : Word} {ch c : Byte} (hp : s.phase = .dHdr) (hl : 14 ≤ s.len.toNat)
    (hlen : s.len.toNat ≤ s.cfg.inCapacity.toNat) :
    ∃ t, exec (.header w h ch c) s = .next t ∧
      (DecodeOver (w.toNat * h.toNat) t ∨ PastHeader t ∧ t.latN = w.toNat * h.toNat) := by
  by_cases hv : headerError s.cfg w h ch c = .none
  · rcases Nat.lt_or_ge s.cfg.pixCapacity.toNat (w.toNat * h.toNat) with hN | hN
    · exact ⟨_, exec_header_tooBig hp hv hN, .inl (decodeOver_raise _ _ nofun)⟩
    · obtain ⟨-, -, hw, hh⟩ := headerError_eq_none.1 hv
      exact ⟨_, exec_header_started hp hv hN,
        .inr ⟨⟨⟨hlen, le_rfl, hl, rfl, hN⟩, .inl ⟨rfl, pixelTotal_pos hw hh⟩⟩, rfl⟩⟩
  · exact ⟨_, exec_header_failed (.inr hp) hv, .inl (decodeOver_raise _ s hv)⟩

theorem stepHeader_advances (hp : s.phase = .dHdr) (hlen : s.len.toNat ≤ s.cfg.inCapacity.toNat) :
    ∃ t, stepHeader s = .next t ∧
      (DecodeOver (headerPixels s) t ∨ PastHeader t ∧ t.latN = headerPixels s) := by
  rcases Nat.lt_or_ge s.len.toNat 14 with hl | hl
  · exact ⟨_, if_pos hl, .inl (decodeOver_raise _ s nofun)⟩
  · rw [stepHeader_of_length hl (hl.trans hlen)]
    split
    · exact exec_header_advances hp hl hlen
    · exact ⟨_, rfl, .inl (decodeOver_raise _ s nofun)⟩

/-- A step for the header, then those past it. -/
theorem decode_endsWithin (ht : s.turns = []) (hp : s.phase = .dHdr) (hlen : s.len.toNat ≤ s.cfg.inCapacity.toNat) :
    ∃ j t, j ≤ headerPixels s + 1 ∧ EndsAfter (j + 1) s t ∧ DecodeOver (headerPixels s) t := by
  have hb : s.phase ≠ .idle := hp.trans_ne nofun
  obtain ⟨t, hx, hnext⟩ := stepHeader_advances hp hlen
  have hx : coreStep s = .next t := (coreStep_header (.inr hp)).trans hx
  obtain hover | ⟨hpast, hN⟩ := hnext
  · exact ⟨0, t, Nat.zero_le _, .last ht hb hx hover.1, hover⟩
  · obtain ⟨j, u, hj, hends, hover⟩ :=
      hpast.endsWithin (headerPixels s + 1) ((coreStep_turns hx).trans ht) (by omega)
    exact ⟨j + 1, u, hj, hends.step ht hb hx, hN ▸ hover⟩

end

/-! ### The statements -/

/-- Settles O56: the core alone takes a step for the header, at most one for each pixel and one for the end, and the
register accesses between these add none. -/
theorem decodeEndsWithinBound : Obligations.DecodeEndsWithinBound := by
  rintro s n hp rts hlen rfl
  have alone : SameRun { s with turns := [] } s := rfl
  obtain ⟨j, a, hj, hends, -, hcount⟩ := decode_endsWithin (s := { s with turns := [] }) rfl hp hlen
  obtain ⟨k, t, hk, hx, hbusy, hat, hended⟩ := hends.interleaved rfl alone rts
  obtain ⟨c, d, v, ts, rfl⟩ : ∃ c d v ts, t = hostSide c d v ts a := ⟨_, _, _, _, hat⟩
  have hpos : 1 ≤ k := by
    refine Nat.one_le_iff_ne_zero.2 ?_
    rintro rfl
    exact absurd hk (Nat.succ_ne_zero j).symm
  exact ⟨k, _, hpos, hk.trans_le (Nat.succ_le_succ hj), ⟨hx, fun i u _ hi => hbusy i u hi⟩, hended, hcount⟩

/-- Settles O52: a row of R196 for each phase; only an error and a successful end go to IDLE, and both set `DONE`. -/
theorem sequencerTransitions : Obligations.SequencerTransitions := by
  intro s t hx
  have row (ph : Phase) (hp : s.phase = ph) : NextPhase ph s t := hp ▸ (coreStep_move hx).nextPhase
  exact ⟨row .idle, row .pHdr, row .dHdr, row .dChunk, row .dTail, row .eHdr, row .ePix, row .eEnd,
    fun hb hi => coreStep_done hb hx hi⟩

/-- Settles O53: a core step in IDLE holds the state, a reset gives IDLE, and of the host's actions only a command's
acceptance writes the phase. -/
theorem onlyAcceptanceLeavesIdle : Obligations.OnlyAcceptanceLeavesIdle := by
  intro s t hx hp ht
  cases hs : s.turns with
  | nil =>
    rw [step_core_of_nil hs, coreStep_idle hp] at hx
    injection hx with hx; subst hx; exact absurd hp ht
  | cons turn ts =>
    have later : ({ s with turns := ts } : State).phase = .idle := hp
    cases turn with
    | core =>
      rw [step_core hs, coreStep_idle later] at hx
      injection hx with hx; subst hx; exact absurd hp ht
    | host act =>
      obtain ⟨v, rfl, hv⟩ := hostStep_leavesIdle later ((step_host hs).symm.trans hx) ht
      exact ⟨v, ts, rfl, hv⟩
    | reset =>
      rw [step_reset hs] at hx
      injection hx with hx; subst hx; exact absurd rfl ht

/-- Settles O55: while a command runs a memory access has no move, and of the registers only `CTRL` and `STATUS` take a
write. -/
theorem hostCannotDisturbCommand : Obligations.HostCannotDisturbCommand :=
  fun _ _ _ hb hx => hostStep_undisturbed hb hx

/-- Settles O10: each fetching step runs what it decodes, and offset 0x08 is `CMD`. -/
theorem stepRunsDecoded : Obligations.StepRunsDecoded := by
  refine ⟨fun s => step_core_of_nil, fun s ts => step_core, fun s bs rest i =>
    ⟨fun hp hl hf hd => ?_, fun hp hl hf hd => ?_, fun hp hl hf hbs => ?_⟩, fun s v ts => step_writeCmd⟩
  · exact (coreStep_header hp).trans (stepHeader_fetched hl hf hd)
  · exact (coreStep_dChunk hp).trans (stepChunk_decoded hl hf hd)
  · exact (coreStep_dTail hp).trans ((stepTail_fetched hl hf).trans (if_pos hbs))

/-- Settles O29: in IDLE each of the three values requests its acceptance. -/
theorem commandAccepted : Obligations.CommandAccepted := by
  rintro s v i ph hp (⟨rfl, rfl, rfl⟩ | ⟨rfl, rfl, rfl⟩ | ⟨rfl, rfl, rfl⟩)
  · exact ⟨rfl, whenIdle_of_idle hp⟩
  · exact ⟨rfl, whenIdle_of_idle hp⟩
  · exact ⟨rfl, whenIdle_of_idle hp⟩

/-- Settles O30: every command is done when idle alone. -/
theorem commandIgnoredWhileBusy : Obligations.CommandIgnoredWhileBusy :=
  fun s v hb => (exec_decodeCommand v s).trans (whenIdle_of_busy hb)

/-- Settles O31: any other value requests the illegal command, which in IDLE is recorded. -/
theorem illegalCommandRecorded : Obligations.IllegalCommandRecorded :=
  fun _ _ hp h1 h2 h3 => ⟨decodeCommand_illegal h1 h2 h3, whenIdle_of_idle hp⟩

/-- Settles O35: the offset names the register, and `IN_LEN` and the image registers take a write when idle alone. -/
theorem registerWriteTable : Obligations.RegisterWriteTable := by
  intro s v
  refine ⟨fun off h => ?_, fun off h4 hw hoff => (reservedOffsets s off v h4 hw hoff).2,
    hostStep_writeReg (r := .ctrl) rfl v s, hostStep_writeReg (r := .cmd) rfl v s, fun hv => ?_, fun hv => ?_,
    fun hp => ⟨fun hv => ?_, fun hv => ?_, ?_, ?_, ?_⟩, fun hb off h => ?_⟩
  · have ignored : ∃ r, regAt off = some r ∧ regWrite r v s = .next s := by fin_cases h <;> exact ⟨_, rfl, rfl⟩
    obtain ⟨r, hr, hx⟩ := ignored
    exact (hostStep_writeReg hr v s).trans hx
  · rw [hostStep_writeReg (r := .status) rfl, regWrite, hv, Bool.not_true, Bool.and_false]
  · rw [hostStep_writeReg (r := .status) rfl, regWrite, hv, Bool.not_false, Bool.and_true]
  · rw [hostStep_writeReg (r := .inLen) rfl, regWrite_inLen, whenIdle_of_idle hp, clampLen_of_le hv]
  · rw [hostStep_writeReg (r := .inLen) rfl, regWrite_inLen, whenIdle_of_idle hp, clampLen_of_lt hv]
  · rw [hostStep_writeReg (r := .imgWidth) rfl, regWrite_imgWidth, whenIdle_of_idle hp]
  · rw [hostStep_writeReg (r := .imgHeight) rfl, regWrite_imgHeight, whenIdle_of_idle hp]
  · rw [hostStep_writeReg (r := .imgFmt) rfl, regWrite_imgFmt, whenIdle_of_idle hp]
    exact ⟨_, rfl, rfl, imgFmt_stored v⟩
  · have guarded : ∃ r f, regAt off = some r ∧ regWrite r v s = whenIdle f s := by
      fin_cases h
      · exact ⟨_, _, rfl, regWrite_inLen v s⟩
      · exact ⟨_, _, rfl, regWrite_imgWidth v s⟩
      · exact ⟨_, _, rfl, regWrite_imgHeight v s⟩
      · exact ⟨_, _, rfl, regWrite_imgFmt v s⟩
    obtain ⟨r, f, hr, hx⟩ := guarded
    exact (hostStep_writeReg hr v s).trans (hx.trans (whenIdle_of_busy hb))

end Sys2Proof.Machine
end

section
/-! PROOFS. The family 60_exceptions.md: the interrupt output is `DONE` and `IRQ_EN` at every moment (R220), so what
moves it is what writes one of the two (R221). -/

namespace Sys2Proof.Machine

/-! ### The level (R220) -/

section

variable {s : State}

theorem irq_of_done (h : s.done = true) : irq s = s.ctrl.getLsbD 0 := by
  rw [irq, irqEnabled, h, Bool.true_and]

theorem irq_of_not_done (h : s.done = false) : irq s = false := by
  rw [irq, h, Bool.false_and]

end

/-- Of a write of `CTRL` bit 0 alone is stored (R22). -/
theorem ctrl_stored_enable (v : Word) : (v &&& 1).getLsbD 0 = v.getLsbD 0 := by
  rw [BitVec.getLsbD_and, show (1 : Word).getLsbD 0 = true from rfl, Bool.and_true]

/-- After a write of `CTRL` the enable is the bit written, and `DONE` is what it was. -/
theorem irq_writeCtrl (v : Word) (s : State) : irq { s with ctrl := v &&& 1 } = (s.done && v.getLsbD 0) := by
  rw [irq, irqEnabled, ctrl_stored_enable]

/-! ### The statement -/

/-- Settles O34: the ends of a command set `DONE`, acceptance and reset clear it, and the host's two writes store
`DONE` and the enable by the table of R199. -/
theorem interruptFollowsDone : Obligations.InterruptFollowsDone := by
  refine ⟨fun _ => rfl, fun e s => irq_of_done (raise_done e s),
    fun s => ⟨irq_of_done (finish_done s), irq_of_done (rejectCommand_done s)⟩,
    fun ph s => irq_of_not_done (accept_done ph s), fun s v => ?_, fun s => irq_of_not_done (resetStep_done s)⟩
  obtain ⟨-, -, hctrl, -, hclear, -⟩ := registerWriteTable s v
  refine ⟨fun hv => ⟨_, hclear hv, irq_of_not_done rfl⟩, fun hv => ⟨_, hctrl, ?_, rfl⟩, fun hv hd => ⟨_, hctrl, ?_⟩⟩
  · rw [irq_writeCtrl, hv, Bool.and_false]
  · rw [irq_writeCtrl, hv, hd, Bool.and_self]

end Sys2Proof.Machine
end

section
/-! PROOFS. The family 70_reset_and_hazards.md: the reset state's window (R240), which the reset input gives whatever
runs (R241). -/

namespace Sys2Proof.Machine

/-! ### The window after reset (R240) -/

/-- Idle, with no end of a command to report, the block shows no flag and no error in `STATUS` (R24). -/
theorem statusWord_of_idle {s : State} (hp : s.phase = .idle) (hdone : s.done = false) (herr : s.errCode = .none) :
    statusWord s = 0 := by
  simp only [statusWord, errFlag, busy, hp, hdone, herr]; decide

/-- Only the identification and the parameters read as another value than 0. -/
theorem regRead_resetWith {p : Params} {r : Reg} (hr : r ∉ [Reg.id, .capIn, .capPix, .capOut, .capMaxdim]) :
    regRead (State.resetWith p) r = 0 := by
  cases r with
  | id | capIn | capPix | capOut | capMaxdim => simp at hr
  | status => exact statusWord_of_idle rfl rfl rfl
  | _ => rfl

/-- Settles O8: the reset state's fields, and the interrupt output is low because `DONE` is clear. -/
theorem resetWindow : Obligations.ResetWindow := by
  refine fun p => ⟨rfl, rfl, rfl, rfl, rfl, fun r hr => regRead_resetWith ?_, rfl, irq_of_not_done rfl⟩
  revert r
  decide

/-! ### The reset input (R241) -/

/-- The host reads the same window after the reset input as in the reset state: what the two states differ in, the
model's own fields, no register shows. -/
theorem regRead_resetStep (s : State) (r : Reg) : regRead (resetStep s) r = regRead (State.resetWith s.cfg) r := by
  cases r <;> rfl

/-- Settles O9: the reset turn's move is the reset input's, whatever the phase. -/
theorem resetAbandonsCommand : Obligations.ResetAbandonsCommand :=
  fun s ts hs => ⟨resetStep { s with turns := ts }, step_reset hs, resetStep_cfg _, resetStep_phase _,
    resetStep_done _, resetStep_errCode _, irq_of_not_done (resetStep_done _), regRead_resetStep _, resetStep_turns _⟩

/-! ### The invariant after reset -/

/-- Each parameter of log 1 lies in the range of R5. -/
theorem defaultParams_legal : Config.defaultParams.legal = true := by decide

/-- Settles O47: `State.reset` is the reset state for the parameters of log 1. -/
theorem invariantAtReset : Obligations.InvariantAtReset :=
  ⟨resetWith_inv, Config.defaultParams, defaultParams_legal, rfl⟩

end Sys2Proof.Machine
end
